-- ==== Sys2Proof/Word.lean ====
section
/-! DEFINITION. The three data sizes of the machine (rule R8): a byte is the unit of memory and of
instruction encoding, a word is two bytes, a doubleword is four bytes. -/

namespace Sys2Proof

/-- A byte, the unit of memory and of instruction encoding (rule R8). -/
abbrev Byte := BitVec 8

/-- A word: two bytes (rule R8). -/
abbrev Word := BitVec 16

/-- A doubleword: four bytes (rule R8); also the width of an offset, of `pc` and of a linear address. -/
abbrev DWord := BitVec 32

end Sys2Proof
end

