-- ==== Sys2Proof/Config.lean ====
section
/-! DEFINITION. The parameters of a run (rule R9) as plain data, the vocabulary they are written in, and
the constants with no body that stand for what the spec leaves free. -/

namespace Sys2Proof

/-- The value of an operand-size, address-size or stack-address-size attribute: "either 16 or 32 bits",
and no other (rule R8). -/
inductive Size where
  | s16
  | s32
  deriving DecidableEq, Repr

/-- The attribute value in bits. -/
def Size.width : Size → Nat
  | .s16 => 16
  | .s32 => 32

/-- The attribute value in bytes. -/
def Size.bytes : Size → Nat
  | .s16 => 2
  | .s32 => 4

/-- The three modes an instruction page lists exceptions for (rules R35, R252, R264). -/
inductive Mode where
  | realAddress
  | protectedMode
  | virtual8086
  deriving DecidableEq, Repr

/-- The two types of task state segment (rules R33, R240). -/
inductive TssType where
  | t386
  | t286
  deriving DecidableEq, Repr

/-- The six segment registers (rule R30). -/
inductive SegReg where
  | es
  | cs
  | ss
  | ds
  | fs
  | gs
  deriving DecidableEq, Repr

/-- One value for each of the six segment registers. -/
structure PerSeg (α : Type) where
  es : α
  cs : α
  ss : α
  ds : α
  fs : α
  gs : α
  deriving DecidableEq, Repr

/-- The value held for one segment register. -/
def PerSeg.get {α : Type} (f : PerSeg α) : SegReg → α
  | .es => f.es
  | .cs => f.cs
  | .ss => f.ss
  | .ds => f.ds
  | .fs => f.fs
  | .gs => f.gs

/-- The kinds of access `Lin` is asked about (rule R12). -/
inductive AccessKind where
  | read
  | write
  | fetch
  deriving DecidableEq, Repr

/-- The nine two-letter exception names of Table 17-6, lost rows restored (rule R251). -/
inductive ExcName where
  | ud
  | nm
  | df
  | ts
  | np
  | ss
  | gp
  | pf
  | mf
  deriving DecidableEq, Repr

/-- What the oracle `Lin` answers for a range of offsets (rule R14): the linear address of the range's
first offset, or an exception with its optional error code. -/
inductive LinResult where
  | linear (at0 : DWord)
  | raise (name : ExcName) (code : Option Nat)
  deriving DecidableEq, Repr

/-- One line of the oracle's table: the accesses it speaks of (segment, kind, size in bytes with `none`
for every size, offsets `first` to `last` inclusive) and its answer. -/
structure LinEntry where
  seg : SegReg
  kind : AccessKind
  size : Option Nat
  first : DWord
  last : DWord
  result : LinResult
  deriving DecidableEq, Repr

/-- The oracle `Lin` of rule R14 as plain data: the first table line that speaks of an access answers
it; an access no line speaks of is "(base of segment) + offset". The table may hold any number of
lines, so every function of segment, offset, kind and size can be written down. -/
structure LinOracle where
  bases : PerSeg DWord
  entries : List LinEntry
  deriving DecidableEq, Repr

/-- The parameters of a run that the spec leaves OPEN (rule R9). They are data of the launch, held in
`State` so that every statement quantifies over them; no step changes them (rule R40). The two
parameters with a decided value, `MaxInstrLen` and `IOMapBaseOffset`, are `maxInstrLen` (Decode) and
`ioMapBaseOffset` (Machine/Functions); the third, `Templates`, is `templates` (Decode). -/
structure Params where
  /-- `DefaultOperandSize`: the operand size without a 66H byte. -/
  opSize : Size
  /-- `DefaultAddressSize`: the address size without a 67H byte. -/
  addrSize : Size
  /-- `StackAddrSize`: what the B-bit of the current stack segment decides (rule R34). -/
  stackAddrSize : Size
  /-- `Mode`: which exception list of an instruction page applies (rule R35). -/
  mode : Mode
  /-- `Lin`: from segment and offset to linear address (rule R14). -/
  lin : LinOracle
  /-- `TSSBase`, `TSSType`, `TSSLimit`: the current task state segment (rule R33). -/
  tssBase : DWord
  tssType : TssType
  tssLimit : Option Nat
  /-- `EndPc`: the pc value at which a run is over (rule R289). -/
  endPc : DWord
  deriving DecidableEq, Repr

namespace Config

/-- `draw(N)` of rule R12: "a free N-bit value chosen anew at each use, under no law". The first argument
is the number of draws made before this one. No body: nothing can be proved of its value. -/
opaque freeBits : Nat → (n : Nat) → BitVec n

/-- Free: whether a string operand under a 32-bit address size is addressed through ESI and EDI (true)
or through SI and DI (false). Rule R125: "Whether SI/DI or ESI/EDI is used under a 32-bit address size
is not in the source." No body. -/
opaque stringIndexWide : Bool

end Config

end Sys2Proof
end

