-- ==== Sys2Proof/Syntax.lean ====
section
/-! DEFINITION. The instruction rows of spec/opcode_table.json: CMC and the twelve names of the eleven
instruction-prefix byte values. No row has an operand. The vocabulary of the general instruction format
(templates, ModR/M and SIB forms, operand symbols) is in Sys2Proof/Format.lean. -/

namespace Sys2Proof

/-- One constructor per row of spec/opcode_table.json. A byte of a prefix row is executed as one step of
rule R111's scan: it is remembered for the instruction it stands before (log entry 1). -/
inductive Instr where
  /-- F5, "Complement carry flag" (rule R210). -/
  | cmc
  /-- F3, "REP prefix (used only with string instructions)" (rule R150). -/
  | rep
  /-- F3 under its second name, REPE/REPZ (rule R150). The decoder names the byte `rep`. -/
  | repeRepz
  /-- F2, REPNE/REPNZ (rule R151). -/
  | repneRepnz
  /-- F0, LOCK (rule R152). -/
  | lock
  /-- 2E, CS segment override (rule R161). -/
  | segCS
  /-- 36, SS segment override (rule R162). -/
  | segSS
  /-- 3E, DS segment override (rule R163). -/
  | segDS
  /-- 26, ES segment override (rule R164). -/
  | segES
  /-- 64, FS segment override (rule R165). -/
  | segFS
  /-- 65, GS segment override (rule R166). -/
  | segGS
  /-- 66, operand-size override (rule R154). -/
  | opsize
  /-- 67, address-size override (rule R155). -/
  | addrsize
  deriving DecidableEq, Repr

end Sys2Proof
end

