-- ==== Sys2Proof/Format.lean ====
section
/-! DEFINITION. The vocabulary of the general instruction format (30_encoding.md): registers, the
remembered prefix bytes, the entries of the Opcode and Instruction columns, opcode templates, the address
specifier and a decoded instruction. Types only; what they mean is in Decode.lean and Machine/. -/

namespace Sys2Proof

/-- The eight general registers by code (rule R21). As a doubleword register `eax` is EAX, as a word
register it is AX, and so on for the others. -/
inductive Gpr where
  | eax
  | ecx
  | edx
  | ebx
  | esp
  | ebp
  | esi
  | edi
  deriving DecidableEq, Repr

/-- The eight byte registers by code (rule R21). -/
inductive Reg8 where
  | al
  | cl
  | dl
  | bl
  | ah
  | ch
  | dh
  | bh
  deriving DecidableEq, Repr

/-- The three data widths: of registers, of memory operands, of an I/O access (rules R8, R82). -/
inductive DataWidth where
  | byte
  | word
  | dword
  deriving DecidableEq, Repr

/-- A data width in bits. -/
def DataWidth.bits : DataWidth → Nat
  | .byte => 8
  | .word => 16
  | .dword => 32

/-- A data width in bytes. -/
def DataWidth.bytes : DataWidth → Nat
  | .byte => 1
  | .word => 2
  | .dword => 4

/-- Group G1 of rule R157: F3H, F2H, F0H. -/
inductive G1Byte where
  | rep
  | repne
  | lock
  deriving DecidableEq, Repr

/-- One of the eleven prefix byte values, by its group of rule R157. -/
inductive PrefixByte where
  | g1 (b : G1Byte)
  | addrSize
  | opSize
  | seg (r : SegReg)
  deriving DecidableEq, Repr

/-- The prefix bytes remembered by the scan of rule R111, one slot per group of rule R157. -/
structure PrefixSet where
  g1 : Option G1Byte
  addrSize : Bool
  opSize : Bool
  seg : Option SegReg
  deriving DecidableEq, Repr

/-- No prefix byte seen. -/
def PrefixSet.empty : PrefixSet :=
  { g1 := none, addrSize := false, opSize := false, seg := none }

/-- The ModR/M marker of an Opcode-column entry: `/r` (rule R106) or `/digit` (rule R105). -/
inductive ModRMMark where
  | slashR
  | slashDigit (d : BitVec 3)
  deriving DecidableEq, Repr

/-- The code-offset fields `cb`, `cw`, `cd`, `cp` (rule R107). -/
inductive CodeField where
  | cb
  | cw
  | cd
  | cp
  deriving DecidableEq, Repr

/-- The immediate fields `ib`, `iw`, `id` (rule R108). -/
inductive ImmField where
  | ib
  | iw
  | id
  deriving DecidableEq, Repr

/-- One entry of an Opcode column, read left to right (rules R104 to R110). -/
inductive OpcodeItem where
  | hex (b : Byte)
  | plus (w : DataWidth)
  | modrm (m : ModRMMark)
  | code (c : CodeField)
  | imm (i : ImmField)
  deriving DecidableEq, Repr

/-- Which of the two string operands an `m8`, `m16` or `m32` symbol stands for: the one at DS:SI or the
one at ES:DI (rule R125). -/
inductive StringSide where
  | source
  | destination
  deriving DecidableEq, Repr

/-- The operand symbols of the Instruction column (rules R115 to R129). -/
inductive OperandSym where
  | rel8
  | rel16
  | rel32
  | ptr16x16
  | ptr16x32
  | r8
  | r16
  | r32
  | imm8
  | imm16
  | imm32
  | rm8
  | rm16
  | rm32
  | m8 (side : StringSide)
  | m16 (side : StringSide)
  | m32 (side : StringSide)
  | m16x16
  | m16x32
  | m16and16
  | m32and32
  | m16and32
  | moffs8
  | moffs16
  | moffs32
  | sreg
  deriving DecidableEq, Repr

/-- An opcode template (rule R13): the machine form of one row of an instruction page. `row` names the
instruction the row belongs to. -/
structure Template where
  opcode : List Byte
  plus : Option DataWidth
  modrm : Option ModRMMark
  codeField : Option CodeField
  imms : List ImmField
  moffs : Bool
  /-- The operand-size condition of rule R110; `none` is `any`. -/
  cond : Option Size
  row : Instr
  deriving DecidableEq, Repr

/-- The address specifier of an instruction: its ModR/M byte, the SIB byte if one follows, and the
displacement bytes in memory order (rule R90). -/
structure AddrSpec where
  modrm : Byte
  sib : Option Byte
  disp : List Byte
  deriving DecidableEq, Repr

/-- A decoded instruction: what rule R111 has read, field by field. `regCode` is the register code of a
`+rb`, `+rw` or `+rd` opcode byte (rule R109); byte lists are in memory order. -/
structure Decoded where
  prefixes : PrefixSet
  opSize : Size
  addrSize : Size
  template : Template
  regCode : Option (BitVec 3)
  addr : Option AddrSpec
  moffs : List Byte
  code : List Byte
  imms : List (List Byte)
  deriving DecidableEq, Repr

end Sys2Proof
end

