-- ==== Sys2Proof/Decode.lean ====
section
/-! DEFINITION. The decoder of rule R111, written once over any supply of bytes and any template table;
the decoder of one table row's bytes, which the step uses; and the encoders. -/

namespace Sys2Proof

/-! ## Register codes -/

/-- The doubleword or word register with a code (rule R21). -/
def Gpr.ofCode (c : BitVec 3) : Gpr :=
  match c.toNat with
  | 0 => .eax
  | 1 => .ecx
  | 2 => .edx
  | 3 => .ebx
  | 4 => .esp
  | 5 => .ebp
  | 6 => .esi
  | _ => .edi

/-- The byte register with a code (rule R21). -/
def Reg8.ofCode (c : BitVec 3) : Reg8 :=
  match c.toNat with
  | 0 => .al
  | 1 => .cl
  | 2 => .dl
  | 3 => .bl
  | 4 => .ah
  | 5 => .ch
  | 6 => .dh
  | _ => .bh

/-- The segment register with a code; codes 6 and 7 name none (rule R30). -/
def SegReg.ofCode? (c : BitVec 3) : Option SegReg :=
  match c.toNat with
  | 0 => some .es
  | 1 => some .cs
  | 2 => some .ss
  | 3 => some .ds
  | 4 => some .fs
  | 5 => some .gs
  | _ => none

/-! ## Byte fields and byte order -/

/-- Bits 7..6 of a ModR/M byte (rule R95). -/
def modField (m : Byte) : BitVec 2 := m.extractLsb' 6 2

/-- Bits 5..3 of a ModR/M byte (rule R95). -/
def regField (m : Byte) : BitVec 3 := m.extractLsb' 3 3

/-- Bits 2..0 of a ModR/M byte (rule R95). -/
def rmField (m : Byte) : BitVec 3 := m.extractLsb' 0 3

/-- Bits 7..6 of a SIB byte (rule R101). -/
def ssField (s : Byte) : BitVec 2 := s.extractLsb' 6 2

/-- Bits 5..3 of a SIB byte (rule R101). -/
def indexField (s : Byte) : BitVec 3 := s.extractLsb' 3 3

/-- Bits 2..0 of a SIB byte (rule R101). -/
def baseField (s : Byte) : BitVec 3 := s.extractLsb' 0 3

/-- The ModR/M byte with given fields, `mod*64 + reg*8 + rm` (rule R95). -/
def modrmByte (mod : BitVec 2) (reg rm : BitVec 3) : Byte := mod ++ reg ++ rm

/-- The SIB byte with given fields, `ss*64 + index*8 + base` (rule R101). -/
def sibByte (ss : BitVec 2) (index base : BitVec 3) : Byte := ss ++ index ++ base

/-- The value of bytes in memory order, low-order byte first (rules R60, R61, R63). -/
def leValue : List Byte → Nat
  | [] => 0
  | b :: bs => b.toNat + 256 * leValue bs

/-- The `n` low-order bytes of a value in memory order, low-order byte first (rules R60, R61, R63). -/
def leBytes : Nat → Nat → List Byte
  | 0, _ => []
  | n + 1, v => BitVec.ofNat 8 v :: leBytes n (v / 256)

/-! ## Field sizes -/

/-- Whether a SIB byte follows the ModR/M byte (rule R100). -/
def needsSib (a : Size) (m : Byte) : Bool :=
  match a with
  | .s16 => false
  | .s32 => modField m != 3 && rmField m == 4

/-- How many displacement bytes follow (rule R102). -/
def dispSize (a : Size) (m : Byte) (sib : Option Byte) : Nat :=
  match a, (modField m).toNat with
  | .s16, 0 => if rmField m = 6 then 2 else 0
  | .s16, 1 => 1
  | .s16, 2 => 2
  | .s32, 0 =>
    if rmField m = 5 then 4
    else if rmField m = 4 ∧ sib.map baseField = some 5 then 4
    else 0
  | .s32, 1 => 1
  | .s32, 2 => 4
  | _, _ => 0

/-- Size in bytes of a code-offset field (rule R107). -/
def CodeField.size : CodeField → Nat
  | .cb => 1
  | .cw => 2
  | .cd => 4
  | .cp => 6

/-- Size in bytes of the code-offset field of a template, 0 where there is none. -/
def codeSize : Option CodeField → Nat
  | none => 0
  | some c => c.size

/-- Size in bytes of an immediate field (rule R108). -/
def ImmField.size : ImmField → Nat
  | .ib => 1
  | .iw => 2
  | .id => 4

/-- Size in bytes of the offset of a `moffs` template under an address size (rules R111, R128). -/
def moffsSize (a : Size) (marked : Bool) : Nat := if marked then a.bytes else 0

/-! ## The eleven prefix bytes -/

/-- The prefix byte a byte value is, if it is one of the eleven (rules R92, R150 to R155, R161 to R166). -/
def PrefixByte.ofByte (b : Byte) : Option PrefixByte :=
  match b.toNat with
  | 0xF3 => some (.g1 .rep)
  | 0xF2 => some (.g1 .repne)
  | 0xF0 => some (.g1 .lock)
  | 0x2E => some (.seg .cs)
  | 0x36 => some (.seg .ss)
  | 0x3E => some (.seg .ds)
  | 0x26 => some (.seg .es)
  | 0x64 => some (.seg .fs)
  | 0x65 => some (.seg .gs)
  | 0x66 => some .opSize
  | 0x67 => some .addrSize
  | _ => none

/-- The byte value of a group G1 byte. -/
def G1Byte.toByte : G1Byte → Byte
  | .rep => 0xF3
  | .repne => 0xF2
  | .lock => 0xF0

/-- The override byte of a segment register (rules R161 to R166). -/
def SegReg.overrideByte : SegReg → Byte
  | .cs => 0x2E
  | .ss => 0x36
  | .ds => 0x3E
  | .es => 0x26
  | .fs => 0x64
  | .gs => 0x65

/-- The byte value of a prefix byte (rule R167). -/
def PrefixByte.toByte : PrefixByte → Byte
  | .g1 b => b.toByte
  | .addrSize => 0x67
  | .opSize => 0x66
  | .seg r => r.overrideByte

/-- Remembers a prefix byte; `none` when its group has been seen (rule R157). -/
def PrefixSet.add (p : PrefixSet) : PrefixByte → Option PrefixSet
  | .g1 b => if p.g1.isSome then none else some { p with g1 := some b }
  | .addrSize => if p.addrSize then none else some { p with addrSize := true }
  | .opSize => if p.opSize then none else some { p with opSize := true }
  | .seg r => if p.seg.isSome then none else some { p with seg := some r }

/-- How many prefix bytes are remembered. -/
def PrefixSet.count (p : PrefixSet) : Nat :=
  p.g1.isSome.toNat + p.addrSize.toNat + p.opSize.toNat + p.seg.isSome.toNat

/-- The remembered bytes, in the order G1, G2, G3, G4 ("the model accepts any order", rule R158). -/
def PrefixSet.bytes (p : PrefixSet) : List Byte :=
  (p.g1.toList.map G1Byte.toByte) ++ (if p.addrSize then [0x67] else []) ++
    (if p.opSize then [0x66] else []) ++ (p.seg.toList.map SegReg.overrideByte)

/-- "the value of {16, 32} that is not" the given one (rules R154, R155). -/
def Size.other : Size → Size
  | .s16 => .s32
  | .s32 => .s16

/-- The attribute of one instruction: the default, or the other value when its override byte was seen
(rules R111, R113, R154, R155). -/
def overridden (default : Size) (seen : Bool) : Size := if seen then default.other else default

/-! ## Templates -/

/-- `MaxInstrLen`, the longest instruction the decoder accepts (rule R9, decision D6; log entry 7). -/
def maxInstrLen : Nat := 15

/-- The operand size a symbol is defined only for, if any (rule R110). -/
def OperandSym.onlySize : OperandSym → Option Size
  | .r16 | .rm16 | .imm16 | .rel16 | .ptr16x16 | .m16x16 | .m16and16 => some .s16
  | .r32 | .rm32 | .imm32 | .rel32 | .ptr16x32 | .m16x32 | .m32and32 => some .s32
  | _ => none

/-- Whether a symbol is one of the three `moffs` symbols. -/
def OperandSym.isMoffs : OperandSym → Bool
  | .moffs8 | .moffs16 | .moffs32 => true
  | _ => false

/-- One item of the Opcode column, added to the template read so far (rule R110). -/
def Template.scan (t : Template) : OpcodeItem → Template
  | .hex b => { t with opcode := t.opcode ++ [b] }
  | .plus w => { t with plus := some w }
  | .modrm m => { t with modrm := some m }
  | .code c => { t with codeField := some c }
  | .imm i => { t with imms := t.imms ++ [i] }

/-- Reads a row of an instruction page, its Opcode column and the operand symbols of its Instruction
column, into a template (rule R110). Where the symbols of one row ask for different operand sizes, the
first sets the condition: the model's choice (DESIGN CHOICE, log entry 43). -/
def templateOfRow (column : List OpcodeItem) (operands : List OperandSym) (row : Instr) : Template :=
  column.foldl Template.scan
    { opcode := [], plus := none, modrm := none, codeField := none, imms := [],
      moffs := operands.any OperandSym.isMoffs, cond := operands.findSome? OperandSym.onlySize,
      row := row }

/-- The row "F5 CMC" as a template (rules R110, R210). -/
def cmcTemplate : Template := templateOfRow [.hex 0xF5] [] .cmc

/-- `Templates` of rule R9: the one row of opcode_table.json with format `op`. -/
def templates : List Template := [cmcTemplate]

/-! ## The decoder over any supply of bytes -/

/-- The refusals of rule R111's own algorithm. -/
inductive DecodeRefusal where
  | opcodeNotInSource
  | ambiguousTemplates
  | tooLong
  | duplicatePrefixGroup
  deriving DecidableEq, Repr

/-- Where the decoder's bytes come from, the `k`-th byte being `fetch k` (which may itself fail), and how
a refusal of the decoder is reported. -/
structure Fetcher (ε : Type) where
  fetch : Nat → Except ε Byte
  refuse : DecodeRefusal → ε

/-- What the decoder takes from the parameters of the run (rules R9, R111). -/
structure DecodeEnv where
  templates : List Template
  opSize : Size
  addrSize : Size
  deriving DecidableEq, Repr

section
variable {ε : Type} (f : Fetcher ε)

/-- The `n` bytes from index `k` on, fetched in ascending order (rule R66). -/
def takeBytes (k : Nat) : Nat → Except ε (List Byte)
  | 0 => .ok []
  | n + 1 => do
    let b ← f.fetch k
    let bs ← takeBytes (k + 1) n
    return b :: bs

/-- Consecutive fields of the given sizes from index `k` on. -/
def takeFields (k : Nat) : List Nat → Except ε (List (List Byte))
  | [] => .ok []
  | n :: ns => do
    let b ← takeBytes f k n
    let bs ← takeFields (k + n) ns
    return b :: bs

/-- Whether the bytes at `k` match fixed opcode bytes, the last of them by rule R109 when it is marked
`+r` (rule R111). -/
def matchOpcode (k : Nat) (plus : Bool) : List Byte → Except ε Bool
  | [] => .ok false
  | [b] => do
    let x ← f.fetch k
    return if plus then decide (b.toNat ≤ x.toNat ∧ x.toNat ≤ b.toNat + 7) else x == b
  | b :: c :: rest => do
    let x ← f.fetch k
    if x == b then matchOpcode (k + 1) plus (c :: rest) else return false

/-- Whether a template is a candidate at `k`: fixed bytes, then operand-size condition, then digit
(rule R111). A byte compared for a template that is not taken is fetched all the same, and that fetch may
stop the decoding, also where the instruction taken does not own the byte (DESIGN CHOICE, log entry 48). -/
def matchTemplate (k : Nat) (os : Size) (t : Template) : Except ε Bool :=
  match matchOpcode f k t.plus.isSome t.opcode with
  | .error e => .error e
  | .ok false => .ok false
  | .ok true =>
    if t.cond = none ∨ t.cond = some os then
      match t.modrm with
      | some (.slashDigit d) => do
        let m ← f.fetch (k + t.opcode.length)
        return regField m == d
      | _ => .ok true
    else .ok false

/-- The candidates of rule R111, in the table's order. -/
def candidates (k : Nat) (os : Size) : List Template → Except ε (List Template)
  | [] => .ok []
  | t :: ts => do
    let b ← matchTemplate f k os t
    let r ← candidates k os ts
    return if b then t :: r else r

/-- "keep only the candidates with the longest fixed-byte list" (rule R111). -/
def longest (ts : List Template) : List Template :=
  ts.filter fun t => ts.all fun u => decide (u.opcode.length ≤ t.opcode.length)

/-- The one template that matches, or the refusal of rule R111. -/
def selectTemplate (k : Nat) (os : Size) (ts : List Template) : Except ε Template := do
  let c ← candidates f k os ts
  match longest c with
  | [] => .error (f.refuse .opcodeNotInSource)
  | [t] => return t
  | _ => .error (f.refuse .ambiguousTemplates)

/-- The register code of a `+r` opcode byte, "the register code is `b - B`" (rule R109). -/
def takeRegCode (k : Nat) (t : Template) : Except ε (Option (BitVec 3)) :=
  match t.plus with
  | none => .ok none
  | some _ => do
    let x ← f.fetch (k + (t.opcode.length - 1))
    return some (BitVec.ofNat 3 (x.toNat - (t.opcode.getLastD 0).toNat))

/-- The address specifier at `k`: ModR/M byte, SIB byte if called for, displacement (rules R100, R102). -/
def takeAddr (a : Size) (k : Nat) : Except ε AddrSpec := do
  let m ← f.fetch k
  if needsSib a m then
    let s ← f.fetch (k + 1)
    let d ← takeBytes f (k + 2) (dispSize a m (some s))
    return { modrm := m, sib := some s, disp := d }
  else
    let d ← takeBytes f (k + 1) (dispSize a m none)
    return { modrm := m, sib := none, disp := d }

/-- The address specifier of a template with a ModR/M marker (rule R111). -/
def takeOptAddr (a : Size) (k : Nat) : Option ModRMMark → Except ε (Option AddrSpec)
  | none => .ok none
  | some _ => do
    let s ← takeAddr f a k
    return some s

end

/-- Length in bytes of an address specifier with its displacement. -/
def AddrSpec.length (a : AddrSpec) : Nat := 1 + a.sib.isSome.toNat + a.disp.length

/-- Length in bytes of an optional address specifier. -/
def addrLength : Option AddrSpec → Nat
  | none => 0
  | some a => a.length

/-- Length of a decoded instruction without its prefix bytes. -/
def Decoded.bodyLength (d : Decoded) : Nat :=
  d.template.opcode.length + addrLength d.addr + d.moffs.length + d.code.length +
    (d.imms.map List.length).sum

/-- The length `L` of an instruction (rule R112). -/
def Decoded.length (d : Decoded) : Nat := d.prefixes.count + d.bodyLength

section
variable {ε : Type} (f : Fetcher ε)

/-- Everything of rule R111 after the scan for prefix bytes, the first opcode byte being byte `k`. -/
def decodeBody (env : DecodeEnv) (p : PrefixSet) (k : Nat) : Except ε Decoded := do
  let os := overridden env.opSize p.opSize
  let as := overridden env.addrSize p.addrSize
  let t ← selectTemplate f k os env.templates
  let c ← takeRegCode f k t
  let k1 := k + t.opcode.length
  let a ← takeOptAddr f as k1 t.modrm
  let k2 := k1 + addrLength a
  let mo ← takeBytes f k2 (moffsSize as t.moffs)
  let k3 := k2 + mo.length
  let co ← takeBytes f k3 (codeSize t.codeField)
  let im ← takeFields f (k3 + co.length) (t.imms.map ImmField.size)
  let d : Decoded :=
    { prefixes := p, opSize := os, addrSize := as, template := t, regCode := c, addr := a,
      moffs := mo, code := co, imms := im }
  if maxInstrLen < d.length then .error (f.refuse .tooLong) else return d

/-- The scan for prefix bytes (rule R111). Byte `k` is looked at when `k` bytes have been remembered. At
most four can be, so five rounds reach the first byte that is no prefix byte, or a second byte of a
group, and the last line is never reached from `PrefixSet.empty` with five rounds. -/
def scanPrefixes : Nat → PrefixSet → Except ε PrefixSet
  | n + 1, p => do
    let b ← f.fetch p.count
    match PrefixByte.ofByte b with
    | none => return p
    | some x =>
      match p.add x with
      | some q => scanPrefixes n q
      | none => .error (f.refuse .duplicatePrefixGroup)
  | 0, _ => .error (f.refuse .duplicatePrefixGroup)

/-- Decoding one whole instruction, prefix bytes included (rule R111). -/
def decodeInstruction (env : DecodeEnv) : Except ε Decoded := do
  let p ← scanPrefixes f 5 PrefixSet.empty
  decodeBody f env p p.count

end

/-- The row of the opcode table a prefix byte stands in. F3H has two rows; the decoder names the first
(rule R150: "which name applies depends on the string instruction that follows, and the source does not
say how"; log entry 2). -/
def PrefixByte.row : PrefixByte → Instr
  | .g1 .rep => .rep
  | .g1 .repne => .repneRepnz
  | .g1 .lock => .lock
  | .addrSize => .addrsize
  | .opSize => .opsize
  | .seg .cs => .segCS
  | .seg .ss => .segSS
  | .seg .ds => .segDS
  | .seg .es => .segES
  | .seg .fs => .segFS
  | .seg .gs => .segGS

/-- What one step of the machine runs: the prefix row of the next byte, or else the row of the
instruction body that starts there; and how many bytes that is (log entry 1). `p` holds the prefix bytes
already remembered, so the next byte of the instruction is byte `p.count`. -/
def decodeUnit {ε : Type} (f : Fetcher ε) (env : DecodeEnv) (p : PrefixSet) :
    Except ε (Instr × Nat) := do
  let b ← f.fetch p.count
  match PrefixByte.ofByte b with
  | some x => return (x.row, 1)
  | none =>
    let d ← decodeBody f env p p.count
    return (d.template.row, d.bodyLength)

/-! ## Decoding a list of bytes -/

/-- Why a list of bytes was not decoded. -/
inductive DecodeError where
  /-- The decoder refused (rule R111). -/
  | refused (r : DecodeRefusal)
  /-- The list ended inside the instruction; there is no such outcome in memory. -/
  | endOfBytes
  deriving DecidableEq, Repr

/-- Bytes taken from a list. -/
def listFetcher (bytes : List Byte) : Fetcher DecodeError :=
  { fetch := fun k => match bytes[k]? with
      | some b => .ok b
      | none => .error .endOfBytes
    refuse := .refused }

/-- The decoder's environment under given default sizes, with the spec's template table. -/
def specEnv (opSize addrSize : Size) : DecodeEnv :=
  { templates := templates, opSize := opSize, addrSize := addrSize }

/-- Reads one table row from the front of a list of bytes, with the bytes left over. -/
def decode (env : DecodeEnv) (bytes : List Byte) : Except DecodeError (Instr × List Byte) := do
  let (i, n) ← decodeUnit (listFetcher bytes) env PrefixSet.empty
  return (i, bytes.drop n)

/-- The bytes of a number as spec/opcode_table.json numbers them: byte `i` holds bits `8i+7 .. 8i`, and
every bit from `nbits` up to the longest instruction is 0. -/
def tableBytes (nbits w : Nat) : List Byte := leBytes maxInstrLen (w % 2 ^ nbits)

/-- The row the decoder reads from an instruction given as the opcode table numbers its bits. The
default sizes play no part in any row. -/
def decodeTableWord (nbits w : Nat) : Option Instr :=
  match decode (specEnv .s32 .s32) (tableBytes nbits w) with
  | .ok (i, _) => some i
  | .error _ => none

/-! ## Encoders -/

/-- The byte of a table row (rules R131, R167). -/
def encode : Instr → List Byte
  | .cmc => [0xF5]
  | .rep => [0xF3]
  | .repeRepz => [0xF3]
  | .repneRepnz => [0xF2]
  | .lock => [0xF0]
  | .segCS => [0x2E]
  | .segSS => [0x36]
  | .segDS => [0x3E]
  | .segES => [0x26]
  | .segFS => [0x64]
  | .segGS => [0x65]
  | .opsize => [0x66]
  | .addrsize => [0x67]

/-- The opcode bytes of a template with a register code added to the last one (rule R109). -/
def opcodeBytes (opcode : List Byte) (c : Option (BitVec 3)) : List Byte :=
  match c with
  | none => opcode
  | some r => opcode.dropLast ++ [opcode.getLastD 0 + r.setWidth 8]

/-- The bytes of an address specifier: ModR/M, SIB, displacement (rule R90). -/
def AddrSpec.bytes (a : AddrSpec) : List Byte := a.modrm :: (a.sib.toList ++ a.disp)

/-- The bytes of an optional address specifier. -/
def addrBytes : Option AddrSpec → List Byte
  | none => []
  | some a => a.bytes

/-- The bytes of an instruction after its prefix bytes, in the order of rule R90. -/
def encodeBody (d : Decoded) : List Byte :=
  opcodeBytes d.template.opcode d.regCode ++ addrBytes d.addr ++ d.moffs ++ d.code ++ d.imms.flatten

/-- The bytes of an instruction, prefix bytes in the order G1, G2, G3, G4 (rules R90, R158). -/
def encodeInstruction (d : Decoded) : List Byte := d.prefixes.bytes ++ encodeBody d

end Sys2Proof
end

