-- ==== Sys2Proof/Machine/State.lean ====
section
/-! DEFINITION. The whole state of the machine as plain data (rule R40), the two kinds of stop, and the
state after reset. INVENTORY.md lists every field with its rule and its reset value. -/

namespace Sys2Proof.Machine

/-- The register file: eight 32-bit cells (rule R22). Word and byte registers are views of them
(Machine/Registers.lean). -/
structure GprFile where
  eax : DWord
  ecx : DWord
  edx : DWord
  ebx : DWord
  esp : DWord
  ebp : DWord
  esi : DWord
  edi : DWord
  deriving DecidableEq, Repr

/-- GDTR or IDTR: a 16-bit limit field and a 32-bit base field (rule R32). -/
structure TableReg where
  limit : Word
  base : DWord
  deriving DecidableEq, Repr

/-- What stops a run as a fault. -/
inductive Fault where
  /-- `raise #XX(code)` of rule R258: the name, the interrupt number, the error code if there is one, and
  the `pc` of the faulting instruction (rule R255). Raised only by the oracle `Lin` (rule R256), through
  `raise` in Machine/Ops.lean. Safe: the chip delivers the exception and may go on, the model stops. -/
  | exception (name : ExcName) (number : Nat) (code : Option Nat) (pc : DWord)
  deriving DecidableEq, Repr

/-- What stops a run as a refusal: the closed list of rule R259. All are safe: the model stops where the
chip does something the spec does not give. -/
inductive Refusal where
  /-- An instruction with no meaning yet. Raised by no arm of `exec` today. Safe. -/
  | notModelled (mnemonic : String)
  /-- No template matches (rule R111). Raised by the decoder. Safe. -/
  | opcodeNotInSource
  /-- Two templates match (rule R111). Raised by the decoder; never with the spec's one-row table. Safe. -/
  | ambiguousTemplates
  /-- Longer than `maxInstrLen` (rule R111). Raised by the decoder; never with the spec's table. Safe. -/
  | tooLong
  /-- A second byte of one group (rule R157). Raised by the meaning of a prefix row. Safe. -/
  | duplicatePrefixGroup
  /-- Segment-register code 6 or 7 (rule R133). Raised by the Sreg operand. Safe. -/
  | sregCodeUndefined
  /-- mod = 11 where the operand must be memory (rule R133). Raised by the memory-only operands. Safe. -/
  | registerFormOfMemoryOperand
  /-- An instruction after F3H or F2H (rules R150, R151). Raised by CMC. Safe. -/
  | repNotInSource
  /-- An instruction after F0H (rule R156). Raised by CMC. Safe. -/
  | lockNotInSource
  /-- CMC after any other prefix byte (rule R160). Raised by CMC. Safe. -/
  | prefixNotShown
  /-- `pc + L` not below 2^32 (rule R25). Raised at the end of an instruction and by a relative operand. Safe. -/
  | pcWrap
  /-- A memory access past linear address 2^32 (rule R62). Raised by the memory operations. Safe. -/
  | linearWrap
  /-- Fetching a byte the run has stored to (rule R80). Raised by the fetch. Safe. -/
  | fetchOfWrittenByte
  /-- A stack item past the top of the stack offset range (rule R226). Raised by Push and Pop. Safe. -/
  | stackItemWrapsSegment
  /-- I-O-Permission with a 386 TSS and no `TSSLimit` (rule R240). Raised by I-O-Permission. Safe. -/
  | ioBitmapLimitUnknown
  /-- A bit offset outside the register (rule R231). Raised by Bit. Safe. -/
  | bitOffsetOutsideRegister
  /-- ZeroExtend or SignExtend of a value wider than the operand size (rules R218, R219). Safe. -/
  | extendOfWiderValue
  deriving DecidableEq, Repr

/-- The whole state of the machine (rule R40). -/
structure State where
  /-- EAX .. EDI (rules R20 to R22). -/
  regs : GprFile
  /-- Offset in CS of the first byte of the instruction being executed (rule R24). -/
  pc : DWord
  /-- The carry flag (rule R26). -/
  cf : Bool
  /-- `OtherFlags`: every flag bit that is not CF, "of a width the source does not give", as one number
  (rule R27, log entry 16). No step reads or writes it. -/
  otherFlags : Nat
  /-- ES, CS, SS, DS, FS, GS: the 16-bit visible values (rule R31). No step reads or writes them. -/
  sregs : PerSeg Word
  /-- The Global Descriptor Table Register (rule R32). No step reads or writes it. -/
  gdtr : TableReg
  /-- The Interrupt Descriptor Table Register (rule R32). No step reads or writes it. -/
  idtr : TableReg
  /-- Memory by linear address, in canonical form (rule R62, Machine/Memory.lean). -/
  mem : List Host.Cell
  /-- The set `Written` of linear addresses stored to since launch, strictly rising (rule R80). -/
  written : List Nat
  /-- The `fault` mark (rule R258). -/
  faultMark : Option Fault
  /-- The `refused` mark (rule R259). -/
  refusedMark : Option Refusal
  /-- The model's own: prefix bytes of the instruction at `pc` remembered so far (log entry 1). -/
  pending : PrefixSet
  /-- The model's own: how many free values have been drawn (rule R12 `draw`, log entry 14). -/
  draws : Nat
  /-- The parameters of the run (rule R9, log entry 4). No step changes them. -/
  params : Params
  deriving DecidableEq, Repr

/-- Why a computation stops. -/
inductive Stop where
  | fault (f : Fault)
  | refuse (r : Refusal)
  deriving DecidableEq, Repr

/-- The result of a computation that may stop. -/
abbrev Result (α : Type) := Except Stop α

/-- A stop or a next state as an outcome of a step. -/
def Result.outcome : Result State → Host.Outcome State Fault Refusal
  | .ok s => .next s
  | .error (.fault f) => .fault f
  | .error (.refuse r) => .refused r

/-- The parameters at reset. The spec gives no value (rule R280, log entry 4). -/
def Params.reset : Params :=
  { opSize := .s16, addrSize := .s16, stackAddrSize := .s16, mode := .realAddress,
    lin := { bases := { es := 0, cs := 0, ss := 0, ds := 0, fs := 0, gs := 0 }, entries := [] },
    tssBase := 0, tssType := .t386, tssLimit := none, endPc := 0xFFFFFFFF }

/-- The machine right after reset. The spec "states no reset value of any register, flag or memory byte"
(rule R280): every value here but `written`, the marks, `pending` and `draws` is the model's choice (log
entries 3 to 5). -/
def State.reset : State :=
  { regs := { eax := 0, ecx := 0, edx := 0, ebx := 0, esp := 0, ebp := 0, esi := 0, edi := 0 },
    pc := 0, cf := false, otherFlags := 0,
    sregs := { es := 0, cs := 0, ss := 0, ds := 0, fs := 0, gs := 0 },
    gdtr := { limit := 0, base := 0 }, idtr := { limit := 0, base := 0 },
    mem := [], written := [], faultMark := none, refusedMark := none,
    pending := PrefixSet.empty, draws := 0, params := Params.reset }

/-! ## Field updates, one per field that an operation writes (laws in Sys2Proof/Laws/State.lean) -/

/-- The state with another register file. -/
def State.setRegs (s : State) (v : GprFile) : State := { s with regs := v }

/-- The state with another `pc`. -/
def State.setPc (s : State) (v : DWord) : State := { s with pc := v }

/-- The state with another carry flag. -/
def State.setCf (s : State) (v : Bool) : State := { s with cf := v }

/-- The state with another memory. -/
def State.setMem (s : State) (v : List Host.Cell) : State := { s with mem := v }

/-- The state with another `Written` set. -/
def State.setWritten (s : State) (v : List Nat) : State := { s with written := v }

/-- The state with other remembered prefix bytes. -/
def State.setPending (s : State) (v : PrefixSet) : State := { s with pending := v }

/-- The state with another count of draws. -/
def State.setDraws (s : State) (v : Nat) : State := { s with draws := v }

/-- The state with another fault mark. -/
def State.setFaultMark (s : State) (v : Option Fault) : State := { s with faultMark := v }

/-- The state with another refused mark. -/
def State.setRefusedMark (s : State) (v : Option Refusal) : State := { s with refusedMark := v }

/-- The state with other parameters. -/
def State.setParams (s : State) (v : Params) : State := { s with params := v }

end Sys2Proof.Machine
end

