-- ==== Sys2Proof/Machine/Memory.lean ====
section
/-! DEFINITION. Memory as a list of (linear address, byte) pairs in one canonical form, and the set
`Written` as a strictly rising list. Nothing here checks an address; Machine/Ops.lean does. -/

namespace Sys2Proof.Machine

/-- What an address no pair lists reads as (DESIGN CHOICE, log entry 5). -/
def unlistedByte : Byte := 0

/-- The size of the linear address space in bytes (rules R62, R71). -/
def linearSize : Nat := 2 ^ 32

/-- One byte of memory. -/
def Memory.read : List Host.Cell → Nat → Byte
  | [], _ => unlistedByte
  | (b, v) :: m, a => if a = b then v else Memory.read m a

/-- Memory after a store of one byte; storing the value an unlisted address reads as removes the pair. -/
def Memory.write : List Host.Cell → Nat → Byte → List Host.Cell
  | [], a, v => if v = unlistedByte then [] else [(a, v)]
  | (b, w) :: m, a, v =>
    if a < b then if v = unlistedByte then (b, w) :: m else (a, v) :: (b, w) :: m
    else if a = b then if v = unlistedByte then m else (a, v) :: m
    else (b, w) :: Memory.write m a v

/-- Bytes stored at ascending addresses from `a` on (rules R60, R63). -/
def Memory.writeAll (m : List Host.Cell) (a : Nat) : List Byte → List Host.Cell
  | [] => m
  | v :: vs => Memory.writeAll (Memory.write m a v) (a + 1) vs

/-- The `n` bytes at ascending addresses from `a` on (rules R60, R63). -/
def Memory.readAll (m : List Host.Cell) (a : Nat) : Nat → List Byte
  | 0 => []
  | n + 1 => Memory.read m a :: Memory.readAll m (a + 1) n

/-- The canonical form from a lower bound on: addresses strictly rising and inside the linear address
space, no pair equal to what its address would read as unlisted. -/
def Memory.wfFrom : Nat → List Host.Cell → Bool
  | _, [] => true
  | lo, (a, v) :: m =>
    decide (lo ≤ a) && decide (a < linearSize) && decide (v ≠ unlistedByte) && Memory.wfFrom (a + 1) m

/-- The canonical form of memory. -/
def Memory.wf (m : List Host.Cell) : Bool := Memory.wfFrom 0 m

/-- The set with one more address. -/
def Written.insert : List Nat → Nat → List Nat
  | [], a => [a]
  | b :: w, a => if a < b then a :: b :: w else if a = b then b :: w else b :: Written.insert w a

/-- The set with the `n` addresses from `a` on. -/
def Written.insertAll (w : List Nat) (a : Nat) : Nat → List Nat
  | 0 => w
  | n + 1 => Written.insertAll (Written.insert w a) (a + 1) n

/-- The canonical form of a set of addresses from a lower bound on. -/
def Written.wfFrom : Nat → List Nat → Bool
  | _, [] => true
  | lo, a :: w => decide (lo ≤ a) && decide (a < linearSize) && Written.wfFrom (a + 1) w

/-- The canonical form of a set of addresses: strictly rising, inside the linear address space. -/
def Written.wf (w : List Nat) : Bool := Written.wfFrom 0 w

end Sys2Proof.Machine
end

