-- ==== Sys2Proof/Machine/Registers.lean ====
section
/-! DEFINITION. Reading and writing general registers (rules R20 to R22): the only accessors of the
register file. The overlap of the three kinds is log entry 15. -/

namespace Sys2Proof.Machine

/-- `r32[c]`. -/
def GprFile.get32 (f : GprFile) : Gpr → DWord
  | .eax => f.eax
  | .ecx => f.ecx
  | .edx => f.edx
  | .ebx => f.ebx
  | .esp => f.esp
  | .ebp => f.ebp
  | .esi => f.esi
  | .edi => f.edi

/-- `r32[c] <- v`. -/
def GprFile.set32 (f : GprFile) (r : Gpr) (v : DWord) : GprFile :=
  match r with
  | .eax => { f with eax := v }
  | .ecx => { f with ecx := v }
  | .edx => { f with edx := v }
  | .ebx => { f with ebx := v }
  | .esp => { f with esp := v }
  | .ebp => { f with ebp := v }
  | .esi => { f with esi := v }
  | .edi => { f with edi := v }

/-- `r16[c]`: bits 15..0 of `r32[c]` (rule R22). -/
def GprFile.get16 (f : GprFile) (r : Gpr) : Word := (f.get32 r).setWidth 16

/-- `r16[c] <- v`: bits 31..16 of `r32[c]` stay (rule R22). -/
def GprFile.set16 (f : GprFile) (r : Gpr) (v : Word) : GprFile :=
  f.set32 r ((f.get32 r).extractLsb' 16 16 ++ v)

/-- The doubleword register a byte register is part of (rule R22). -/
def Reg8.gpr : Reg8 → Gpr
  | .al | .ah => .eax
  | .cl | .ch => .ecx
  | .dl | .dh => .edx
  | .bl | .bh => .ebx

/-- Whether a byte register is bits 15..8 of its doubleword register; else it is bits 7..0 (rule R22). -/
def Reg8.isHigh : Reg8 → Bool
  | .al | .cl | .dl | .bl => false
  | .ah | .ch | .dh | .bh => true

/-- `r8[c]` (rule R22). -/
def GprFile.get8 (f : GprFile) (r : Reg8) : Byte :=
  (f.get32 (Reg8.gpr r)).extractLsb' (if Reg8.isHigh r then 8 else 0) 8

/-- `r8[c] <- v`: every other bit of the doubleword register stays (rule R22). -/
def GprFile.set8 (f : GprFile) (r : Reg8) (v : Byte) : GprFile :=
  let w := f.get32 (Reg8.gpr r)
  f.set32 (Reg8.gpr r)
    (if Reg8.isHigh r then w.extractLsb' 16 16 ++ v ++ w.extractLsb' 0 8
    else w.extractLsb' 8 24 ++ v)

/-- A general register as an operand: its kind and its code. -/
inductive RegOperand where
  | r8 (r : Reg8)
  | r16 (r : Gpr)
  | r32 (r : Gpr)
  deriving DecidableEq, Repr

/-- The register of a kind with a code (rule R21). -/
def RegOperand.ofCode (w : DataWidth) (c : BitVec 3) : RegOperand :=
  match w with
  | .byte => .r8 (Reg8.ofCode c)
  | .word => .r16 (Gpr.ofCode c)
  | .dword => .r32 (Gpr.ofCode c)

/-- The width of a register in bits (rule R20). -/
def RegOperand.bits : RegOperand → Nat
  | .r8 _ => 8
  | .r16 _ => 16
  | .r32 _ => 32

/-- The contents of a register, zero-extended to a doubleword. -/
def RegOperand.read (r : RegOperand) (f : GprFile) : DWord :=
  match r with
  | .r8 x => (f.get8 x).setWidth 32
  | .r16 x => (f.get16 x).setWidth 32
  | .r32 x => f.get32 x

/-- Writes the low bits of a doubleword into a register of any kind. -/
def RegOperand.write (r : RegOperand) (v : DWord) (f : GprFile) : GprFile :=
  match r with
  | .r8 x => f.set8 x (v.setWidth 8)
  | .r16 x => f.set16 x (v.setWidth 16)
  | .r32 x => f.set32 x v

end Sys2Proof.Machine
end

