-- ==== Sys2Proof/Machine/Ops.lean ====
section
/-! DEFINITION. The named operations every meaning is written over (rule R12): raising an exception,
`Lin`, `MemRead`, `MemWrite`, `FetchByte`, `draw`, the end of an instruction, and remembering a prefix
byte. -/

namespace Sys2Proof.Machine

/-! ## Exceptions -/

/-- The interrupt number of an exception name (rule R251, log entry 11). -/
def excNumber : ExcName → Nat
  | .ud => 6
  | .nm => 7
  | .df => 8
  | .ts => 10
  | .np => 11
  | .ss => 12
  | .gp => 13
  | .pf => 14
  | .mf => 16

/-- The name as an instruction page writes it: "a pound sign (#) followed by two letters" (rule R250). -/
def excText : ExcName → String
  | .ud => "#UD"
  | .nm => "#NM"
  | .df => "#DF"
  | .ts => "#TS"
  | .np => "#NP"
  | .ss => "#SS"
  | .gp => "#GP"
  | .pf => "#PF"
  | .mf => "#MF"

/-- The description column of Table 17-6 (rule R251). -/
def excDescription : ExcName → String
  | .ud => "Invalid opcode"
  | .nm => "Coprocessor not available"
  | .df => "Double fault"
  | .ts => "Invalid TSS"
  | .np => "Segment or gate not present"
  | .ss => "Stack fault"
  | .gp => "General protection fault"
  | .pf => "Page fault"
  | .mf => "Math (coprocessor) fault"

/-- Taking an exception, `raise #XX(code)` (rule R258): the instruction ends with none of its writes
performed, and the outcome records name, number, error code and the `pc` of the instruction. "No handler
is entered, no stack frame is written, `pc` is not changed"; and there is no return from one (rule R261).
Log entry 10. -/
def raise {α : Type} (s : State) (name : ExcName) (code : Option Nat) : Result α :=
  .error (.fault (.exception name (excNumber name) code s.pc))

/-- `refuse Reason` (rule R259). -/
def refuse {α : Type} (r : Refusal) : Result α := .error (.refuse r)

/-! ## From segment and offset to linear address -/

/-- Whether a line of the oracle's table speaks of an access. -/
def linApplies (e : LinEntry) (seg : SegReg) (off : DWord) (kind : AccessKind) (n : Nat) : Bool :=
  e.seg == seg && e.kind == kind && (e.size == none || e.size == some n) &&
    decide (e.first.toNat ≤ off.toNat) && decide (off.toNat ≤ e.last.toNat)

/-- What the oracle answers for an access (rule R14, log entry 6): a linear address, or an exception. -/
def linAnswer (o : LinOracle) (seg : SegReg) (off : DWord) (kind : AccessKind) (n : Nat) : LinResult :=
  match o.entries.find? fun e => linApplies e seg off kind n with
  | some e =>
    match e.result with
    | .linear a => .linear (a + (off - e.first))
    | .raise x c => .raise x c
  | none => .linear (o.bases.get seg + off)

/-- `Lin(s, off, kind, n)`: the linear address, or the exception raised (rules R12, R14). -/
def lin (s : State) (seg : SegReg) (off : DWord) (kind : AccessKind) (n : Nat) : Result DWord :=
  match linAnswer s.params.lin seg off kind n with
  | .linear a => .ok a
  | .raise x c => raise s x c

/-! ## Memory -/

/-- `MemRead(addr, n)` as bytes in memory order; an access past the end of the linear space is refused
(rule R62). Any address is allowed (rule R65). -/
def memReadBytes (s : State) (a : DWord) (n : Nat) : Result (List Byte) :=
  if linearSize < a.toNat + n then refuse .linearWrap else .ok (Memory.readAll s.mem a.toNat n)

/-- `MemRead(addr, n)` as an unsigned value, low-order byte first (rules R12, R60, R63). -/
def memRead (s : State) (a : DWord) (n : Nat) : Result Nat :=
  match memReadBytes s a n with
  | .ok bs => .ok (leValue bs)
  | .error e => .error e

/-- `MemWrite(addr, n, v)`: `n` bytes of `v`, low-order byte first, each address joining `Written`
(rules R12, R60, R62, R63, R80). Nothing is stored when the access would wrap. -/
def memWrite (s : State) (a : DWord) (n : Nat) (v : Nat) : Result State :=
  if linearSize < a.toNat + n then refuse .linearWrap
  else .ok ((s.setMem (Memory.writeAll s.mem a.toNat (leBytes n v))).setWritten
    (Written.insertAll s.written a.toNat n))

/-- `FetchByte(k)`: the `k`-th byte of the current instruction (rule R12); a byte the run has stored to is
not fetched (rule R80, log entry 12). -/
def fetchByte (s : State) (k : Nat) : Result Byte :=
  match lin s .cs (s.pc + BitVec.ofNat 32 k) .fetch 1 with
  | .error e => .error e
  | .ok a =>
    if s.written.contains a.toNat then refuse .fetchOfWrittenByte
    else .ok (Memory.read s.mem a.toNat)

/-! ## Free values -/

/-- `draw(N)`: "a free N-bit value chosen anew at each use, under no law" (rule R12, log entry 14). -/
def draw (s : State) (n : Nat) : BitVec n × State :=
  (Config.freeBits s.draws n, s.setDraws (s.draws + 1))

/-! ## The end of an instruction and the bytes before one -/

/-- "the end of the instruction", the offset `pc + L`: refused when it is not below 2^32 (rule R25, decision
D16; log entry 8). -/
def endOffset (s : State) (len : Nat) : Result DWord :=
  if 2 ^ 32 ≤ s.pc.toNat + len then refuse .pcWrap else .ok (s.pc + BitVec.ofNat 32 len)

/-- The end of an instruction of `L` bytes that does not transfer control: `pc <- pc + L` (rule R25); "the
next instruction starts again from the defaults" (rule R159). -/
def endInstruction (s : State) (len : Nat) : Result State := do
  let e ← endOffset s len
  return (s.setPc e).setPending PrefixSet.empty

/-- One round of the scan of rule R111 on a prefix byte: "remember the byte", or refuse a second byte of
its group (rule R157). `pc` stays "the offset of its first prefix byte" (rule R159). -/
def rememberPrefix (x : PrefixByte) (s : State) : Result State :=
  match s.pending.add x with
  | some p => .ok (s.setPending p)
  | none => refuse .duplicatePrefixGroup

/-- The prefix bytes no instruction of this spec may carry: F3H and F2H before an instruction that is no
string instruction (rules R150, R151), F0H before any (rule R156). -/
def checkG1 (p : PrefixSet) : Result Unit :=
  match p.g1 with
  | some .lock => refuse .lockNotInSource
  | some .rep => refuse .repNotInSource
  | some .repne => refuse .repNotInSource
  | none => .ok ()

end Sys2Proof.Machine
end

