-- ==== Sys2Proof/Machine/Flags.lean ====
section
/-! DEFINITION. Flags: the one flag computation the spec gives (the complement of CF) and the conventions
of a page's "Flags Affected" section (rules R28, R29). -/

namespace Sys2Proof.Machine

/-- `CF <- 1 - CF` (rule R210). -/
def complementCarry (s : State) : State := s.setCf (!s.cf)

/-- What a "Flags Affected" section says of one flag (rules R28, R29). -/
inductive FlagEffect where
  /-- "always cleared": 0 stands after the flag name. -/
  | alwaysCleared
  /-- "always set": 1 stands after the flag name. -/
  | alwaysSet
  /-- Assigned as the "Operation" section describes. -/
  | assigned (v : Bool)
  /-- "undefined": "may be changed by the instruction in an indeterminate manner". -/
  | undefined
  /-- Not listed: "unchanged by the instruction". -/
  | notListed
  deriving DecidableEq, Repr

/-- The flag after the instruction, from its value before; an undefined flag receives `draw(1)`, "a fresh
free bit at each execution, never a fixed value, never unchanged" (rules R28, R29; log entry 14). -/
def applyFlagEffect (e : FlagEffect) (old : Bool) (s : State) : Bool × State :=
  match e with
  | .alwaysCleared => (false, s)
  | .alwaysSet => (true, s)
  | .assigned v => (v, s)
  | .undefined => ((draw s 1).1 == 1, (draw s 1).2)
  | .notListed => (old, s)

end Sys2Proof.Machine
end

