-- ==== Sys2Proof/Machine/Cmc.lean ====
section
/-! DEFINITION. The meaning of CMC (42_cmc.md). -/

namespace Sys2Proof.Machine

/-- The exceptions a page lists for CMC in each mode: none "as far as this spec knows" (rules R210,
R252; log entry 9). No step reads it; `Mode` selects a list and nothing else (rule R35). -/
def cmcExceptions : Mode → List ExcName
  | .protectedMode => []
  | .realAddress => []
  | .virtual8086 => []

/-- CMC carries no prefix byte: F3H, F2H and F0H are refused first, then any other (rules R160, R212; log
entry 9). -/
def checkCmcPrefixes (p : PrefixSet) : Result Unit := do
  checkG1 p
  if p = PrefixSet.empty then return () else refuse .prefixNotShown

/-- CMC (rule R210): the prefix rules, then "the test `pc + 1 < 2^32` is made before CF is written", then
`CF <- 1 - CF` and `pc <- pc + 1`. -/
def runCmc (s : State) : Result State := do
  checkCmcPrefixes s.pending
  let t ← endInstruction s 1
  return complementCarry t

/-- F5, "Complement carry flag" (rule R210). -/
def execCmc (s : State) : Host.Outcome State Fault Refusal := (runCmc s).outcome

end Sys2Proof.Machine
end

