-- ==== Sys2Proof/Machine/Prefixes.lean ====
section
/-! DEFINITION. The meanings of the prefix rows (40_prefixes.md): one round of the scan of rule R111. The
byte is remembered for the instruction it stands before, where its effect is (`overridden`,
`effectiveSeg`, `checkG1`, `checkCmcPrefixes`); a second byte of its group is refused (rule R157). Log
entry 1. -/

namespace Sys2Proof.Machine

/-- F3 as REP (rule R150). Repetition itself is not in the source: the instruction that follows is refused
by `checkG1`. -/
def execRep (s : State) : Host.Outcome State Fault Refusal :=
  (rememberPrefix (.g1 .rep) s).outcome

/-- F3 as REPE or REPZ (rule R150): the same byte. -/
def execRepeRepz (s : State) : Host.Outcome State Fault Refusal :=
  (rememberPrefix (.g1 .rep) s).outcome

/-- F2, REPNE or REPNZ (rule R151). -/
def execRepneRepnz (s : State) : Host.Outcome State Fault Refusal :=
  (rememberPrefix (.g1 .repne) s).outcome

/-- F0, LOCK (rules R152, R156). -/
def execLock (s : State) : Host.Outcome State Fault Refusal :=
  (rememberPrefix (.g1 .lock) s).outcome

/-- 2E: "The memory operand uses CS" (rules R153, R161). -/
def execSegCS (s : State) : Host.Outcome State Fault Refusal :=
  (rememberPrefix (.seg .cs) s).outcome

/-- 36: "The memory operand uses SS" (rules R153, R162). -/
def execSegSS (s : State) : Host.Outcome State Fault Refusal :=
  (rememberPrefix (.seg .ss) s).outcome

/-- 3E: "The memory operand uses DS" (rules R153, R163). -/
def execSegDS (s : State) : Host.Outcome State Fault Refusal :=
  (rememberPrefix (.seg .ds) s).outcome

/-- 26: "The memory operand uses ES" (rules R153, R164). -/
def execSegES (s : State) : Host.Outcome State Fault Refusal :=
  (rememberPrefix (.seg .es) s).outcome

/-- 64: "The memory operand uses FS" (rules R153, R165). -/
def execSegFS (s : State) : Host.Outcome State Fault Refusal :=
  (rememberPrefix (.seg .fs) s).outcome

/-- 65: "The memory operand uses GS" (rules R153, R166). -/
def execSegGS (s : State) : Host.Outcome State Fault Refusal :=
  (rememberPrefix (.seg .gs) s).outcome

/-- 66: the operand size of the instruction is the other value (rule R154). -/
def execOpsize (s : State) : Host.Outcome State Fault Refusal :=
  (rememberPrefix .opSize s).outcome

/-- 67: the address size of the instruction is the other value (rule R155). -/
def execAddrsize (s : State) : Host.Outcome State Fault Refusal :=
  (rememberPrefix .addrSize s).outcome

end Sys2Proof.Machine
end

