-- ==== Sys2Proof/Machine/Dispatch.lean ====
section
/-! DEFINITION. One arm per constructor of Instr. -/

namespace Sys2Proof.Machine

def exec (i : Instr) (s : State) : Host.Outcome State Fault Refusal :=
  match i with
  | .cmc => Sys2Proof.Machine.execCmc s
  | .rep => Sys2Proof.Machine.execRep s
  | .repeRepz => Sys2Proof.Machine.execRepeRepz s
  | .repneRepnz => Sys2Proof.Machine.execRepneRepnz s
  | .lock => Sys2Proof.Machine.execLock s
  | .segCS => Sys2Proof.Machine.execSegCS s
  | .segSS => Sys2Proof.Machine.execSegSS s
  | .segDS => Sys2Proof.Machine.execSegDS s
  | .segES => Sys2Proof.Machine.execSegES s
  | .segFS => Sys2Proof.Machine.execSegFS s
  | .segGS => Sys2Proof.Machine.execSegGS s
  | .opsize => Sys2Proof.Machine.execOpsize s
  | .addrsize => Sys2Proof.Machine.execAddrsize s

end Sys2Proof.Machine
end

