-- ==== Sys2Proof/Machine/Fetch.lean ====
section
/-! DEFINITION. Where the decoder's bytes come from in the machine, and placing an instruction where the
next step fetches. -/

namespace Sys2Proof.Machine

/-- A refusal of the decoder as a refusal of the machine (rule R259). -/
def refusalOf : DecodeRefusal → Refusal
  | .opcodeNotInSource => .opcodeNotInSource
  | .ambiguousTemplates => .ambiguousTemplates
  | .tooLong => .tooLong
  | .duplicatePrefixGroup => .duplicatePrefixGroup

/-- "All byte reads are `FetchByte(k)`" (rule R111). -/
def stateFetcher (s : State) : Fetcher Stop :=
  { fetch := fetchByte s, refuse := fun r => .refuse (refusalOf r) }

/-- The decoder's environment in a state: the spec's templates and the default sizes of the run. -/
def stateEnv (s : State) : DecodeEnv := specEnv s.params.opSize s.params.addrSize

/-- What the next step runs, and its bytes (rule R111, log entry 1). -/
def decodeNext (s : State) : Result (Instr × Nat) :=
  decodeUnit (stateFetcher s) (stateEnv s) s.pending

/-- `pc = EndPc`: the run is over once no mark is set (rules R213, R289). -/
def isOver (s : State) : Bool := s.pc == s.params.endPc

/-- The state with whatever would keep the next step from fetching out of the way: no mark, and `EndPc`
elsewhere. -/
def readyToFetch (s : State) : State :=
  let t := (s.setFaultMark none).setRefusedMark none
  if isOver t then t.setParams { t.params with endPc := t.pc + 1 } else t

/-- The state with one byte at the place where `FetchByte(k)` looks, fetchable. Where `Lin` raises there,
no byte can be placed. -/
def placeByte (s : State) (k : Nat) (b : Byte) : State :=
  match lin s .cs (s.pc + BitVec.ofNat 32 k) .fetch 1 with
  | .error _ => s
  | .ok a =>
    (s.setMem (Memory.write s.mem a.toNat b)).setWritten (s.written.filter fun x => x != a.toNat)

/-- The state with bytes at `FetchByte(k)`, `FetchByte(k+1)`, ... -/
def placeBytes (s : State) (k : Nat) : List Byte → State
  | [] => s
  | b :: bs => placeByte (placeBytes s (k + 1) bs) k b

/-- The state with an instruction's bytes where the next step fetches (log entry 26). -/
def placeInstruction (s : State) (bytes : List Byte) : State :=
  placeBytes (readyToFetch s) s.pending.count bytes

end Sys2Proof.Machine
end

