-- ==== Sys2Proof/Machine/Step.lean ====
section
/-! DEFINITION. One step of the machine, and an instruction placed where it fetches. -/

namespace Sys2Proof.Machine

/-- One step (rule R213, log entry 1). A marked state has no step: its mark is the outcome again. At
`EndPc` the run is over and the state stays (log entry 25); a prefix byte just below `EndPc` has the byte at
`EndPc` fetched after it (DESIGN CHOICE, log entry 45). Otherwise the row at the next byte runs. -/
def step (s : State) : Host.Outcome State Fault Refusal :=
  match s.faultMark, s.refusedMark with
  | some f, _ => .fault f
  | none, some r => .refused r
  | none, none =>
    if isOver s then .next s
    else
      match decodeNext s with
      | .error e => Result.outcome (.error e)
      | .ok (i, _) => exec i s

/-- The state with an instruction, given as the opcode table numbers its bits, where `step` fetches next
(log entry 26). -/
def State.withFetchWord (s : State) (nbits w : Nat) : State := placeInstruction s (tableBytes nbits w)

end Sys2Proof.Machine
end

