-- ==== Sys2Proof/Machine/Functions.lean ====
section
/-! DEFINITION. The predefined functions of the Operation language (43_operation_functions.md): Truncate,
ZeroExtend, SignExtend, Push, Pop, Bit and I-O-Permission. Instruction pages call them; the one page the
spec gives calls none, so no step reaches them. Switch-Tasks is not given (rule R245). -/

namespace Sys2Proof.Machine

/-! ## Widths -/

/-- "Truncate to 16 bits(value) ... by discarding the uppermost bits as needed" (rule R216). -/
def truncate16 {w : Nat} (v : BitVec w) : Word := v.setWidth 16

/-- ZeroExtend: to the operand size; a wider value is refused (rule R218). -/
def zeroExtend (os : Size) {w : Nat} (v : BitVec w) : Result (BitVec os.width) :=
  if os.width < w then refuse .extendOfWiderValue else .ok (v.setWidth os.width)

/-- SignExtend: to the operand size, "the sign being the top bit of `v` at its own width"; a wider value
is refused (rule R219). -/
def signExtend (os : Size) {w : Nat} (v : BitVec w) : Result (BitVec os.width) :=
  if os.width < w then refuse .extendOfWiderValue else .ok (v.signExtend os.width)

/-- An offset cut to an address size, as a doubleword: `zext_32(trunc_A(x))` (rules R175, R180). -/
def truncTo (a : Size) (x : DWord) : DWord :=
  match a with
  | .s16 => (x.setWidth 16).setWidth 32
  | .s32 => x

/-! ## The stack -/

/-- The stack pointer, SP or ESP by the stack address size (rules R16 `eSP`, R221). -/
def stackPointer (s : State) : DWord := truncTo s.params.stackAddrSize s.regs.esp

/-- The state with another stack pointer; with a 16-bit stack "bits 31..16 of ESP unchanged" (rule R226). -/
def setStackPointer (s : State) (v : DWord) : State :=
  match s.params.stackAddrSize with
  | .s16 => s.setRegs (s.regs.set16 .esp (v.setWidth 16))
  | .s32 => s.setRegs (s.regs.set32 .esp v)

/-- Whether an item of `n` bytes at stack offset `o` passes the top of the stack's offset range
(rule R226). -/
def stackItemWraps (s : State) (o : DWord) (n : Nat) : Bool :=
  decide (2 ^ s.params.stackAddrSize.width < o.toNat + n)

/-- The stack pointer a Push lowers to (rule R221). -/
def pushPointer (s : State) (os : Size) : DWord :=
  truncTo s.params.stackAddrSize (stackPointer s - BitVec.ofNat 32 os.bytes)

/-- The stack pointer a Pop raises to (rule R224). -/
def popPointer (s : State) (os : Size) : DWord :=
  truncTo s.params.stackAddrSize (stackPointer s + BitVec.ofNat 32 os.bytes)

/-- Push of a value of operand size (rules R220, R221, R226, R227). The pointer changes only if the store
succeeds. Log entry 18. -/
def push (os : Size) (v : BitVec os.width) (s : State) : Result State := do
  let p := pushPointer s os
  if stackItemWraps s p os.bytes then refuse .stackItemWrapsSegment
  else
    let a ← lin s .ss p .write os.bytes
    let t ← memWrite s a os.bytes v.toNat
    return setStackPointer t p

/-- Pop: the value of operand size and the state after (rules R223, R224, R226, R227). Log entry 18. -/
def pop (os : Size) (s : State) : Result (BitVec os.width × State) := do
  let p := stackPointer s
  if stackItemWraps s p os.bytes then refuse .stackItemWrapsSegment
  else
    let a ← lin s .ss p .read os.bytes
    let v ← memRead s a os.bytes
    return (BitVec.ofNat os.width v, setStackPointer s (popPointer s os))

/-! ## Bit addressing -/

/-- The address of a bit: in a register, or in the byte of memory at an offset of a segment (rule R230). -/
inductive BitAddr where
  | inRegister (r : RegOperand) (k : Nat)
  | inMemory (seg : SegReg) (byteAddr : DWord) (k : Nat)
  deriving DecidableEq, Repr

/-- `Bit[r, offset]` for a register: an offset outside the register is refused (rule R231, log entry 20). -/
def bitOfRegister (r : RegOperand) (offset : DWord) : Result BitAddr :=
  if 0 ≤ offset.toInt ∧ offset.toInt < r.bits then .ok (.inRegister r offset.toInt.toNat)
  else refuse .bitOffsetOutsideRegister

/-- `Bit[base, offset]` for a memory base, an offset of the address size `a` in segment `seg`, with a
signed 32-bit bit offset: "DIV is signed division with rounding towards negative infinity, and MOD
returns a positive number" (rule R234). -/
def bitOfMemory (a : Size) (seg : SegReg) (base : DWord) (offset : DWord) : BitAddr :=
  .inMemory seg (truncTo a (base + BitVec.ofInt 32 (offset.toInt / 8))) (offset.toInt % 8).toNat

/-- The value of the addressed bit, memory being accessed as `kind` (rules R231, R234). -/
def readBit (s : State) (kind : AccessKind) : BitAddr → Result Bool
  | .inRegister r k => .ok ((r.read s.regs).getLsbD k)
  | .inMemory seg byteAddr k => do
    let a ← lin s seg byteAddr kind 1
    let v ← memRead s a 1
    return v.testBit k

/-! ## I-O-Permission -/

/-- `IOMapBaseOffset`: the `66` of "Ptr <- [TSS + 66]", read as hexadecimal (rules R9, R240, decision D19;
log entry 19). -/
def ioMapBaseOffset : Nat := 102

/-- `nBitMask`: one bit per byte of the access (rule R240). -/
def ioBitMask : DataWidth → Nat
  | .byte => 1
  | .word => 3
  | .dword => 15

/-- `I-O-Permission(I-O-Address, width)` (rule R240, log entry 19): whether the bitmap of the current 386
TSS permits the access; never with a 286 TSS, and refused with a 386 TSS whose limit is not given. -/
def ioPermission (s : State) (a : Word) (w : DataWidth) : Result Bool :=
  match s.params.tssType, s.params.tssLimit with
  | .t286, _ => .ok false
  | .t386, none => refuse .ioBitmapLimitUnknown
  | .t386, some limit => do
    let ptr ← memRead s (s.params.tssBase + BitVec.ofNat 32 ioMapBaseOffset) 2
    let rel := ptr + a.toNat / 8
    if limit < rel + 1 then return false
    else
      let word ← memRead s (s.params.tssBase + BitVec.ofNat 32 rel) 2
      return (word &&& (ioBitMask w <<< (a.toNat % 8))) == 0

end Sys2Proof.Machine
end

