-- ==== Sys2Proof/Machine/Operands.lean ====
section
/-! DEFINITION. Where an operand is and what it holds: the addressing forms of 41_addressing_forms.md and
every operand symbol of 30_encoding.md section 7. Instruction pages name operands by these symbols; the
one page the spec gives has none, so no step reaches this file. -/

namespace Sys2Proof.Machine

/-- Where an operand is: `Reg(kind, code)` or `Mem(seg, EA)` (rule R170). -/
inductive Loc where
  | reg (r : RegOperand)
  | mem (seg : SegReg) (ea : DWord)
  deriving DecidableEq, Repr

/-! ## 16-bit addressing forms (Table 17-2) -/

/-- The displacement of a 16-bit form (rules R103, R171 to R173): an 8-bit one sign-extended. -/
def dispTerm16 (mod : BitVec 2) (rm : BitVec 3) (bytes : List Byte) : Word :=
  match mod.toNat with
  | 0 => if rm = 6 then BitVec.ofNat 16 (leValue bytes) else 0
  | 1 => (BitVec.ofNat 8 (leValue bytes)).signExtend 16
  | _ => BitVec.ofNat 16 (leValue bytes)

/-- The registers of a 16-bit form (rules R171 to R173): word registers only (rule R175). -/
def regTerm16 (f : GprFile) (mod : BitVec 2) (rm : BitVec 3) : Word :=
  match rm.toNat with
  | 0 => f.get16 .ebx + f.get16 .esi
  | 1 => f.get16 .ebx + f.get16 .edi
  | 2 => f.get16 .ebp + f.get16 .esi
  | 3 => f.get16 .ebp + f.get16 .edi
  | 4 => f.get16 .esi
  | 5 => f.get16 .edi
  | 6 => if mod = 0 then 0 else f.get16 .ebp
  | _ => f.get16 .ebx

/-- "SS for the effective addresses containing a BP index, DS for other effective addresses" (rules R73,
R176). -/
def defaultSeg16 (mod : BitVec 2) (rm : BitVec 3) : SegReg :=
  if rm = 2 ∨ rm = 3 ∨ (rm = 6 ∧ mod ≠ 0) then .ss else .ds

/-! ## 32-bit addressing forms (Tables 17-3 and 17-4) -/

/-- `BaseTerm(base, mod)`: nothing for base 101 under mod 00 (rules R193, R194); the same rule covers the
forms without a SIB byte, whose r/m field is the base (rules R177 to R179, R199). -/
def baseTerm (f : GprFile) (base : BitVec 3) (mod : BitVec 2) : DWord :=
  if base = 5 ∧ mod = 0 then 0 else f.get32 (Gpr.ofCode base)

/-- `IndexTerm(ss, index)`: nothing for index 100, whatever the scale (rules R191, R192). -/
def indexTerm (f : GprFile) (ss : BitVec 2) (index : BitVec 3) : DWord :=
  if index = 4 then 0 else f.get32 (Gpr.ofCode index) * BitVec.ofNat 32 (2 ^ ss.toNat)

/-- `DispTerm(mod, base)` (rules R103, R177 to R179, R195): an 8-bit one sign-extended. -/
def dispTerm32 (mod : BitVec 2) (base : BitVec 3) (bytes : List Byte) : DWord :=
  match mod.toNat with
  | 0 => if base = 5 then BitVec.ofNat 32 (leValue bytes) else 0
  | 1 => (BitVec.ofNat 8 (leValue bytes)).signExtend 32
  | _ => BitVec.ofNat 32 (leValue bytes)

/-- "SS if the base register is ESP or EBP, else DS; the index register never matters; a form with no
base register uses DS" (rules R74, R181; log entry 17). -/
def defaultSeg32 (base : BitVec 3) (mod : BitVec 2) : SegReg :=
  if base = 4 ∨ (base = 5 ∧ mod ≠ 0) then .ss else .ds

/-- The base code of a 32-bit form: of the SIB byte where there is one, else the r/m field (rules R177 to
R179, R190, R199). -/
def baseOf32 (a : AddrSpec) : BitVec 3 :=
  match a.sib with
  | none => rmField a.modrm
  | some s => baseField s

/-- The scaled index of a 32-bit form, nothing without a SIB byte (rules R190, R199). -/
def indexOf32 (f : GprFile) (a : AddrSpec) : DWord :=
  match a.sib with
  | none => 0
  | some s => indexTerm f (ssField s) (indexField s)

/-! ## The whole computation -/

/-- The effective address of a memory form, `Addr(operand)` (rules R171 to R173, R175, R177 to R180, R190,
R198): a 16-bit one zero-extended. -/
def effectiveAddress (f : GprFile) (size : Size) (a : AddrSpec) : DWord :=
  let mod := modField a.modrm
  match size with
  | .s16 =>
    (regTerm16 f mod (rmField a.modrm) + dispTerm16 mod (rmField a.modrm) a.disp).setWidth 32
  | .s32 => baseTerm f (baseOf32 a) mod + indexOf32 f a + dispTerm32 mod (baseOf32 a) a.disp

/-- The default segment of a memory form (rules R73, R74, R176, R181). -/
def defaultSeg (size : Size) (a : AddrSpec) : SegReg :=
  match size with
  | .s16 => defaultSeg16 (modField a.modrm) (rmField a.modrm)
  | .s32 => defaultSeg32 (baseOf32 a) (modField a.modrm)

/-- The segment of a memory operand: the override if one was given, else the default (rules R75, R153). -/
def effectiveSeg (override : Option SegReg) (default : SegReg) : SegReg := override.getD default

/-- `ResolveRM` (rules R170, R174, R199): the r/m operand of an address specifier that is well formed
under the address size. The reg field takes no part. -/
def resolveRM (f : GprFile) (size : Size) (a : AddrSpec) (w : DataWidth) (override : Option SegReg) :
    Loc :=
  if modField a.modrm = 3 then .reg (RegOperand.ofCode w (rmField a.modrm))
  else .mem (effectiveSeg override (defaultSeg size a)) (effectiveAddress f size a)

/-! ## Reading and writing at a location -/

/-- The bytes of a memory operand (rules R67, R72). -/
def readMemOperand (s : State) (seg : SegReg) (ea : DWord) (n : Nat) : Result (List Byte) := do
  let a ← lin s seg ea .read n
  memReadBytes s a n

/-- The contents of a location of a data width, zero-extended to a doubleword (rules R122 to R124). -/
def readLoc (s : State) (w : DataWidth) : Loc → Result DWord
  | .reg r => .ok (r.read s.regs)
  | .mem seg ea => do
    let bs ← readMemOperand s seg ea w.bytes
    return BitVec.ofNat 32 (leValue bs)

/-- Stores the low bits of a doubleword at a location of a data width. -/
def writeLoc (s : State) (w : DataWidth) (v : DWord) : Loc → Result State
  | .reg r => .ok (s.setRegs (r.write v s.regs))
  | .mem seg ea => do
    let a ← lin s seg ea .write w.bytes
    memWrite s a w.bytes v.toNat

/-! ## The operand symbols of the Instruction column -/

/-- What an operand holds or denotes. -/
inductive OperandVal where
  /-- A byte, word or doubleword, zero-extended. -/
  | num (w : DataWidth) (v : DWord)
  /-- The target offset of a relative address. -/
  | target (off : DWord)
  /-- A far pointer: selector and offset. -/
  | far (selector : Word) (off : DWord)
  /-- The two bounds of a BOUND operand, lower first. -/
  | bounds (w : DataWidth) (lower upper : DWord)
  /-- A word for a limit field and a doubleword for a base field. -/
  | limitBase (r : TableReg)
  /-- A segment register. -/
  | seg (r : SegReg)
  deriving DecidableEq, Repr

/-- "the end of the instruction" that a relative address is measured from: "that same offset `pc + L`", with
the same refusal when it is not below 2^32 (rules R25, R115, R116). -/
def endOfInstruction (s : State) (d : Decoded) : Result DWord := endOffset s d.length

/-- `rel8`: a signed byte from the end of the instruction (rule R115); a target outside 0 to 2^32 - 1 is taken
modulo 2^32, the model's choice (DESIGN CHOICE, log entry 42). -/
def rel8Target (fromOff : DWord) (d : Byte) : DWord := fromOff + d.signExtend 32

/-- `rel16`: the sum cut to 16 bits (rule R116, log entry 22). -/
def rel16Target (fromOff : DWord) (d : Word) : DWord := truncTo .s16 (fromOff + d.signExtend 32)

/-- `rel32` (rule R116, log entry 22); a target outside 0 to 2^32 - 1 is taken modulo 2^32, the model's choice
(DESIGN CHOICE, log entry 42). -/
def rel32Target (fromOff : DWord) (d : DWord) : DWord := fromOff + d

/-- A far pointer from its bytes: `n` bytes of offset, then the selector (rules R68, R117, R126; log entry
21). -/
def farOfBytes (n : Nat) (bytes : List Byte) : OperandVal :=
  .far (BitVec.ofNat 16 (leValue (bytes.drop n))) (BitVec.ofNat 32 (leValue (bytes.take n)))

/-- `imm8` "combined with a word or doubleword operand": sign-extended to it (rule R119). -/
def imm8Extended (os : Size) (b : Byte) : BitVec os.width := b.signExtend os.width

/-- The register code of an operand `r8`, `r16` or `r32`: of the opcode byte where it carries one, else
the reg field (rules R97, R118). In a row with both `+r` and a ModR/M marker, the opcode byte's code is the
model's choice (DESIGN CHOICE, log entry 44), and so is the reg field in a row with `/digit` and no `+r`,
where rules R97 and R105 make it part of the opcode (DESIGN CHOICE, log entry 47). -/
def registerCode (d : Decoded) : Option (BitVec 3) :=
  match d.regCode with
  | some c => some c
  | none => d.addr.map fun a => regField a.modrm

/-- The segment register of an `Sreg` operand; codes 6 and 7 are refused (rules R30, R129, R133). -/
def sregOfCode (c : BitVec 3) : Result SegReg :=
  match SegReg.ofCode? c with
  | some r => .ok r
  | none => refuse .sregCodeUndefined

/-- The location of a memory-only operand: mod = 11 is refused (rule R133). -/
def memOnly (loc : Loc) : Result Loc :=
  match loc with
  | .reg _ => refuse .registerFormOfMemoryOperand
  | .mem seg ea => .ok (.mem seg ea)

/-- A string index register under an address size: SI or DI, zero-extended, with a 16-bit one; which of
the word and doubleword register with a 32-bit one is free (rule R125, log entry 13). -/
def stringIndex (f : GprFile) (size : Size) (r : Gpr) : DWord :=
  match size with
  | .s16 => (f.get16 r).setWidth 32
  | .s32 => if Config.stringIndexWide then f.get32 r else (f.get16 r).setWidth 32

/-- A string operand: at DS:SI, where an override is obeyed, or at ES:DI, where none is (rules R75,
R125). -/
def stringLoc (f : GprFile) (d : Decoded) : StringSide → Loc
  | .source => .mem (effectiveSeg d.prefixes.seg .ds) (stringIndex f d.addrSize .esi)
  | .destination => .mem .es (stringIndex f d.addrSize .edi)

/-- A `moffs` operand: the offset in the instruction, as wide as the address size, in DS or the override
(rules R75, R128; log entry 23). -/
def moffsLoc (d : Decoded) : Loc :=
  .mem (effectiveSeg d.prefixes.seg .ds) (BitVec.ofNat 32 (leValue d.moffs))

/-- The r/m operand of a decoded instruction, if its template has a ModR/M byte. -/
def rmOperand (f : GprFile) (d : Decoded) (w : DataWidth) : Option Loc :=
  d.addr.map fun a => resolveRM f d.addrSize a w d.prefixes.seg

/-- Data width and location of an operand that is one byte, word or doubleword in a register or in
memory; `none` when the symbol is no such operand or the template has no field for it. -/
def operandLoc (f : GprFile) (d : Decoded) : OperandSym → Option (DataWidth × Loc)
  | .r8 => (registerCode d).map fun c => (.byte, .reg (RegOperand.ofCode .byte c))
  | .r16 => (registerCode d).map fun c => (.word, .reg (RegOperand.ofCode .word c))
  | .r32 => (registerCode d).map fun c => (.dword, .reg (RegOperand.ofCode .dword c))
  | .rm8 => (rmOperand f d .byte).map fun l => (.byte, l)
  | .rm16 => (rmOperand f d .word).map fun l => (.word, l)
  | .rm32 => (rmOperand f d .dword).map fun l => (.dword, l)
  | .m8 side => some (.byte, stringLoc f d side)
  | .m16 side => some (.word, stringLoc f d side)
  | .m32 side => some (.dword, stringLoc f d side)
  | .moffs8 => some (.byte, moffsLoc d)
  | .moffs16 => some (.word, moffsLoc d)
  | .moffs32 => some (.dword, moffsLoc d)
  | _ => none

/-- The bytes of a memory-only operand of several parts (rules R67, R126, R127, R133). -/
def readMulti (s : State) (d : Decoded) (n : Nat) : Option (Result (List Byte)) :=
  (rmOperand s.regs d .dword).map fun l =>
    match memOnly l with
    | .error e => .error e
    | .ok (.reg _) => refuse .registerFormOfMemoryOperand
    | .ok (.mem seg ea) => readMemOperand s seg ea n

/-- The first field of `n` bytes among an instruction's immediate fields (log entry 24). -/
def immediate (d : Decoded) (n : Nat) : Option Nat :=
  (d.imms.find? fun b => b.length == n).map leValue

/-- The code-offset field, where it has `n` bytes. -/
def codeOffset (d : Decoded) (n : Nat) : Option (List Byte) :=
  if d.code.length = n then some d.code else none

/-- A pair of bounds from its bytes, the lower bound first (rule R68, log entry 21). -/
def boundsOfBytes (w : DataWidth) (bytes : List Byte) : OperandVal :=
  .bounds w (BitVec.ofNat 32 (leValue (bytes.take w.bytes)))
    (BitVec.ofNat 32 (leValue (bytes.drop w.bytes)))

/-- A limit word and a base doubleword from their bytes, the limit first (rules R32, R68, R127; log entry
21). -/
def limitBaseOfBytes (bytes : List Byte) : OperandVal :=
  .limitBase
    { limit := BitVec.ofNat 16 (leValue (bytes.take 2)), base := BitVec.ofNat 32 (leValue (bytes.drop 2)) }

/-- The value of an operand of a decoded instruction by its symbol (rules R115 to R129); `none` when the
template has no field for the symbol. An Sreg operand's code is the reg field, in a row with `/digit` too
(DESIGN CHOICE, log entry 47). -/
def readOperand (s : State) (d : Decoded) : OperandSym → Option (Result OperandVal)
  | .rel8 => (codeOffset d 1).map fun b =>
      (endOfInstruction s d).map fun e => .target (rel8Target e (BitVec.ofNat 8 (leValue b)))
  | .rel16 => (codeOffset d 2).map fun b =>
      (endOfInstruction s d).map fun e => .target (rel16Target e (BitVec.ofNat 16 (leValue b)))
  | .rel32 => (codeOffset d 4).map fun b =>
      (endOfInstruction s d).map fun e => .target (rel32Target e (BitVec.ofNat 32 (leValue b)))
  | .ptr16x16 => (codeOffset d 4).map fun b => .ok (farOfBytes 2 b)
  | .ptr16x32 => (codeOffset d 6).map fun b => .ok (farOfBytes 4 b)
  | .imm8 => (immediate d 1).map fun v => .ok (.num .byte (BitVec.ofNat 32 v))
  | .imm16 => (immediate d 2).map fun v => .ok (.num .word (BitVec.ofNat 32 v))
  | .imm32 => (immediate d 4).map fun v => .ok (.num .dword (BitVec.ofNat 32 v))
  | .m16x16 => (readMulti s d 4).map fun r => r.map (farOfBytes 2)
  | .m16x32 => (readMulti s d 6).map fun r => r.map (farOfBytes 4)
  | .m16and16 => (readMulti s d 4).map fun r => r.map (boundsOfBytes .word)
  | .m32and32 => (readMulti s d 8).map fun r => r.map (boundsOfBytes .dword)
  | .m16and32 => (readMulti s d 6).map fun r => r.map limitBaseOfBytes
  | .sreg => d.addr.map fun a => (sregOfCode (regField a.modrm)).map OperandVal.seg
  | sym => (operandLoc s.regs d sym).map fun wl => (readLoc s wl.1 wl.2).map (OperandVal.num wl.1)

/-- Stores into an operand that is one byte, word or doubleword in a register or in memory; `none` when
the symbol is no such operand. -/
def writeOperand (s : State) (d : Decoded) (sym : OperandSym) (v : DWord) : Option (Result State) :=
  (operandLoc s.regs d sym).map fun wl => writeLoc s wl.1 v wl.2

end Sys2Proof.Machine
end

