-- ==== Sys2Proof/Machine/Timing.lean ====
section
/-! DEFINITION. The conventions of the "Clocks" column (rules R284 to R287) as data about an instruction.
"Timing in the model. None." (rule R288): no step reads anything here (log entry 28). -/

namespace Sys2Proof.Machine

/-- One clock count, "separated by a slash" for an r/m operand: the left one for a register operand, the
right one for a memory operand (rule R285). -/
structure Clocks where
  register : Nat
  memory : Nat
  deriving DecidableEq, Repr

/-- An entry of the Clocks column: the count and, where "pm=" gives one, the count in Protected Mode
(rule R285). -/
structure ClockEntry where
  count : Clocks
  protectedMode : Option Clocks
  deriving DecidableEq, Repr

/-- Which of a pair applies: the right one when the r/m operand is in memory (rule R285). -/
def Clocks.pick (c : Clocks) (addr : Option AddrSpec) : Nat :=
  match addr with
  | none => c.register
  | some a => if modField a.modrm = 3 then c.register else c.memory

/-- The count an entry gives an instruction in a mode, under the assumptions of rule R284. In Virtual 8086
Mode the count beside a "pm=" is the model's choice (DESIGN CHOICE, log entry 46). -/
def ClockEntry.clocks (e : ClockEntry) (mode : Mode) (addr : Option AddrSpec) : Nat :=
  match mode, e.protectedMode with
  | .protectedMode, some c => c.pick addr
  | _, _ => e.count.pick addr

/-- The Clocks entry of the row "F5 CMC 2 Complement carry flag" (rule R287). -/
def cmcClocks : ClockEntry := { count := { register := 2, memory := 2 }, protectedMode := none }

/-- The symbol `m` of the Clocks column: the components of an instruction, "where the entire displacement
(if any) counts as one component, the entire immediate data (if any) counts as one component, and every
other byte of the instruction and prefix(es) each counts as" one (rule R285, log entry 28). -/
def components (d : Decoded) : Nat :=
  let disp := match d.addr with
    | none => 0
    | some a => a.disp.length
  let imm := (d.imms.map List.length).sum
  (d.length - disp - imm) + (if disp = 0 then 0 else 1) + (if imm = 0 then 0 else 1)

end Sys2Proof.Machine
end

