-- ==== Sys2Proof/Machine/Run.lean ====
section
/-! DEFINITION. Runs: the step as a function on states that sets the marks (rules R258, R259), and the
spec's own step over a whole instruction (rule R213). -/

namespace Sys2Proof.Machine

/-- A state marked with a fault or a refusal (rules R258, R259): "none of its writes performed", so the
prefix bytes remembered for the stopped instruction are forgotten. -/
def markFault (s : State) (f : Fault) : State :=
  (s.setFaultMark (some f)).setPending PrefixSet.empty

/-- As `markFault`, with a refusal. -/
def markRefused (s : State) (r : Refusal) : State :=
  (s.setRefusedMark (some r)).setPending PrefixSet.empty

/-- Whether a mark is set; "once set [they] are never cleared" (rule R40). -/
def isMarked (s : State) : Bool := s.faultMark.isSome || s.refusedMark.isSome

/-- One step as a function on states: a marked state "takes no further step" (rules R213, R258, R259). -/
def advance (s : State) : State :=
  if isMarked s then s
  else
    match step s with
    | .next t => t
    | .fault f => markFault s f
    | .refused r => markRefused s r

/-- The state after `n` steps. -/
def advanceN : Nat → State → State
  | 0, s => s
  | n + 1, s => advanceN n (advance s)

/-- Rule R213 as it is written: one whole instruction, prefix bytes included, decoded by rule R111 and
executed under its prefix bytes. From a state with no prefix byte remembered, `step` reaches the same
outcome in as many steps as the instruction has prefix bytes and one more. -/
def instructionStep (s : State) : Host.Outcome State Fault Refusal :=
  match s.faultMark, s.refusedMark with
  | some f, _ => .fault f
  | none, some r => .refused r
  | none, none =>
    if isOver s then .next s
    else
      match decodeInstruction (stateFetcher s) (stateEnv s) with
      | .error e => Result.outcome (.error e)
      | .ok d => exec d.template.row (s.setPending d.prefixes)

end Sys2Proof.Machine
end

