-- ==== Sys2Proof/Safety.lean ====
section
/-! DEFINITION. What a launch, a final state and a good ending are, and the invariant of a state that
every step keeps. -/

namespace Sys2Proof

open Machine

/-- A launch state (rule R282): `Written` empty, no mark, no prefix byte remembered. Everything else is
"any value". -/
def isLaunch (s : State) : Bool :=
  s.written.isEmpty && !isMarked s && s.pending == PrefixSet.empty

/-- A final state (rule R289): `pc = EndPc` and no mark set. A faulted or refused state is never final
(rules R258, R259). -/
def isFinal (s : State) : Bool := isOver s && !isMarked s

/-- A run from `s` that reaches a final state within `n` steps. -/
def reachesFinal (n : Nat) (s : State) : Bool := isFinal (advanceN n s)

/-- The invariant of a state: memory and `Written` in canonical form, and no prefix byte remembered where
the run is over or stopped. -/
def stateInv (s : State) : Bool :=
  Memory.wf s.mem && Written.wf s.written &&
    (s.pending == PrefixSet.empty || (!isOver s && !isMarked s))

end Sys2Proof
end

