-- ==== Sys2Proof/WellFormed.lean ====
section
/-! DEFINITION. Which rows, templates and decoded instructions are well formed. Each check is a Bool. -/

namespace Sys2Proof

/-- A row under the name the decoder gives its byte. F3H stands in two rows of the table and decodes to
the first, so the second name is no decoder's answer (rule R150, log entry 2). -/
def Instr.wellFormed : Instr → Bool
  | .repeRepz => false
  | _ => true

/-- Whether a byte value can be an opcode of one byte: no prefix byte value (rule R92), and not 0FH, which
"is followed by a second opcode byte" (rule R93, decision D29; log entry 33). -/
def isOneByteOpcode (b : Byte) : Bool := (PrefixByte.ofByte b).isNone && b != 0x0F

/-- Fixed bytes: one, which with every register code added (rule R109) is an opcode of one byte, or two of
which the first is 0FH (rules R13, R91, R93; log entry 33). -/
def Template.opcodeFormed (t : Template) : Bool :=
  match t.opcode with
  | [b] =>
    if t.plus.isSome then
      decide (b.toNat ≤ 248) &&
        (List.range 8).all fun c => isOneByteOpcode (b + BitVec.ofNat 8 c)
    else isOneByteOpcode b
  | [b, c] => b == 0x0F && (t.plus.isNone || decide (c.toNat ≤ 248))
  | _ => false

/-- A template as rule R110 reads one: `opcodeFormed`, and no ModR/M marker beside a `moffs` marker ("No
ModR/M byte is used in the instruction"). -/
def Template.wellFormed (t : Template) : Bool :=
  t.opcodeFormed && !(t.moffs && t.modrm.isSome)

/-- An address specifier whose SIB byte and displacement are those its ModR/M byte calls for under an
address size (rules R100, R102). -/
def AddrSpec.wellFormed (a : Size) (s : AddrSpec) : Bool :=
  s.sib.isSome == needsSib a s.modrm && s.disp.length == dispSize a s.modrm s.sib

/-- Whether an instruction's address specifier fits its template's ModR/M marker (rules R105, R106). -/
def addrFits (m : Option ModRMMark) (a : Size) : Option AddrSpec → Bool
  | none => m.isNone
  | some s =>
    s.wellFormed a &&
      match m with
      | none => false
      | some .slashR => true
      | some (.slashDigit d) => regField s.modrm == d

/-- A decoded instruction whose fields are those its template, its prefix bytes and the default sizes
call for, no longer than the longest instruction (rules R90, R102, R107 to R112, R128). -/
def Decoded.wellFormed (opSize addrSize : Size) (d : Decoded) : Bool :=
  d.template.wellFormed &&
  d.opSize == overridden opSize d.prefixes.opSize &&
  d.addrSize == overridden addrSize d.prefixes.addrSize &&
  (d.template.cond == none || d.template.cond == some d.opSize) &&
  d.regCode.isSome == d.template.plus.isSome &&
  addrFits d.template.modrm d.addrSize d.addr &&
  d.moffs.length == moffsSize d.addrSize d.template.moffs &&
  d.code.length == codeSize d.template.codeField &&
  d.imms.map List.length == d.template.imms.map ImmField.size &&
  decide (d.length ≤ maxInstrLen)

end Sys2Proof
end

