-- ==== Sys2Proof/Certificates/Slice0/Obligations.lean ====
section
/-! DEFINITION. The statements for the provers. Each docstring names the rules of spec/ the statement is
about, and says where a clause is the spec's own decision or the model's choice. -/

open Sys2Proof Sys2Proof.Machine

/-! ## The decoder and the encoders -/

/-- A few words of the opcode table, written out from the spec's encodings (rules R210, R150, R152, R154,
R165), decode to their rows; a first byte the source does not assign decodes to none (rule R131). -/
def Obligations.TableWordsDecode : Prop :=
  decodeTableWord 8 0xF5 = some .cmc ∧ decodeTableWord 8 0xF3 = some .rep ∧
    decodeTableWord 8 0xF0 = some .lock ∧ decodeTableWord 8 0x66 = some .opsize ∧
    decodeTableWord 8 0x64 = some .segFS ∧ decodeTableWord 8 0x90 = none

/-- Every well-formed row is read back from its byte, under every default size and whatever follows. The
second name of F3H is not well formed (log entry 2). -/
def Obligations.EncodedRowDecodes : Prop :=
  ∀ (i : Instr) (os as : Size) (rest : List Byte), i.wellFormed = true →
    decode (specEnv os as) (encode i ++ rest) = .ok (i, rest)

/-- What is read from the front of a byte list is the byte of the row that is answered, and no row that is
not well formed is ever answered. -/
def Obligations.DecodedRowIsItsByte : Prop :=
  ∀ (os as : Size) (bytes rest : List Byte) (i : Instr),
    decode (specEnv os as) bytes = .ok (i, rest) → bytes = encode i ++ rest ∧ i.wellFormed = true

/-- Rule R131: "Of the 256 values of the first instruction byte the source assigns twelve". Each of the
twelve is one row, whole, with nothing read after it; that a prefix byte is decoded as a row by itself is
the model's choice (log entry 1). Every other value is refused, whatever follows, by the name rule R111
gives; the refusal is the spec's decision (rule R132, decisions D2 and D34, log entry 32). -/
def Obligations.TwelveFirstBytesAssigned : Prop :=
  ∀ (os as : Size) (b : Byte) (rest : List Byte),
    (b ∈ [(0xF5 : Byte), 0xF0, 0xF2, 0xF3, 0x26, 0x2E, 0x36, 0x3E, 0x64, 0x65, 0x66, 0x67] →
      ∃ i, encode i = [b] ∧ decode (specEnv os as) (b :: rest) = .ok (i, rest) ∧ (i = .cmc ↔ b = 0xF5)) ∧
    (b ∉ [(0xF5 : Byte), 0xF0, 0xF2, 0xF3, 0x26, 0x2E, 0x36, 0x3E, 0x64, 0x65, 0x66, 0x67] →
      (∀ i : Instr, encode i ≠ [b]) ∧
        decode (specEnv os as) (b :: rest) = .error (.refused .opcodeNotInSource))

/-- Decode and encode agree on whole instructions of any one template: prefix bytes, opcode bytes with or
without a register code, ModR/M, SIB, displacement, moffs, code-offset and immediate fields (rules R90,
R102, R107 to R112, R157, R158), every field at every value, under every default size, whatever follows. -/
def Obligations.InstructionRoundTrip : Prop :=
  ∀ (os as : Size) (d : Decoded) (rest : List Byte), d.wellFormed os as = true →
    decodeInstruction (listFetcher (encodeInstruction d ++ rest))
      { templates := [d.template], opSize := os, addrSize := as } = .ok d

/-- The other direction, for any template table: what rule R111 decodes is the bytes it stands for. The
prefix bytes come first, in any order (rule R158); the body follows in the order of rule R90; the length
is within `MaxInstrLen`; and the template is one of the table's. -/
def Obligations.DecodedInstructionIsItsBytes : Prop :=
  ∀ (env : DecodeEnv) (bytes : List Byte) (d : Decoded),
    decodeInstruction (listFetcher bytes) env = .ok d →
      (bytes.take d.prefixes.count).Perm d.prefixes.bytes ∧
        (∃ rest, bytes.drop d.prefixes.count = encodeBody d ++ rest) ∧
        d.length ≤ maxInstrLen ∧ d.template ∈ env.templates

/-- With one template, decoding "fetches no byte beyond the instruction's last" (rule R66): a supply of
bytes that agrees on the instruction's own bytes, whatever it does elsewhere (stopping included), decodes
to the same. The instruction's own bytes are those of its length (rule R112). With several templates, rule
R111's comparisons may fetch a byte more (log entry 48). -/
def Obligations.DecoderFetchesOwnBytesOnly : Prop :=
  ∀ (f g : Fetcher Stop) (t : Template) (os as : Size) (d : Decoded),
    decodeInstruction f { templates := [t], opSize := os, addrSize := as } = .ok d →
      (∀ k, k < d.length → g.fetch k = f.fetch k) →
      decodeInstruction g { templates := [t], opSize := os, addrSize := as } = .ok d

/-- Rule R111's choice among templates: the one taken matches, and every other candidate of the table has
strictly fewer fixed bytes or is the same template. -/
def Obligations.LongestCandidateIsTaken : Prop :=
  ∀ (f : Fetcher Stop) (k : Nat) (os : Size) (ts : List Template) (t : Template),
    selectTemplate f k os ts = .ok t →
      t ∈ ts ∧ matchTemplate f k os t = .ok true ∧
        ∀ u, u ∈ ts → matchTemplate f k os u = .ok true →
          u.opcode.length < t.opcode.length ∨ u = t

/-- Two-byte opcodes (rule R93, decision D29, general knowledge there; log entry 33): the spec's templates
are well formed, and over any table of well-formed templates a first opcode byte 0FH is followed by a
second opcode byte, and an opcode of two bytes starts with 0FH. -/
def Obligations.TwoByteOpcodesStartWith0F : Prop :=
  (∀ t, t ∈ templates → t.wellFormed = true) ∧
    ∀ (env : DecodeEnv) (bytes : List Byte) (d : Decoded),
      (∀ t, t ∈ env.templates → t.wellFormed = true) →
      decodeInstruction (listFetcher bytes) env = .ok d →
      ∃ b, bytes[d.prefixes.count]? = some b ∧ (b = 0x0F ↔ d.template.opcode.length = 2) ∧
        (b ≠ 0x0F ↔ d.template.opcode.length = 1)

/-- Rules R95 and R101: the three fields of a ModR/M byte make up the byte, and so do those of a SIB byte. -/
def Obligations.ModRMAndSibBytesAreTheirFields : Prop :=
  (∀ m : Byte, m.toNat = (modField m).toNat * 64 + (regField m).toNat * 8 + (rmField m).toNat) ∧
    ∀ s : Byte, s.toNat = (ssField s).toNat * 64 + (indexField s).toNat * 8 + (baseField s).toNat

/-- Rules R100 and R102: when a SIB byte follows the ModR/M byte, how many displacement bytes there are, and
that they stand after the SIB byte where there is one and after the ModR/M byte otherwise. -/
def Obligations.SibAndDisplacementSizes : Prop :=
  (∀ (a : Size) (reg rm : BitVec 3) (mod : BitVec 2),
      needsSib a (modrmByte mod reg rm) = true ↔ a = .s32 ∧ mod ≠ 3 ∧ rm = 4) ∧
    (∀ (reg rm : BitVec 3) (sib : Option Byte),
      dispSize .s16 (modrmByte 0 reg rm) sib = (if rm = 6 then 2 else 0) ∧
      dispSize .s16 (modrmByte 1 reg rm) sib = 1 ∧ dispSize .s16 (modrmByte 2 reg rm) sib = 2 ∧
      dispSize .s16 (modrmByte 3 reg rm) sib = 0 ∧
      dispSize .s32 (modrmByte 1 reg rm) sib = 1 ∧ dispSize .s32 (modrmByte 2 reg rm) sib = 4 ∧
      dispSize .s32 (modrmByte 3 reg rm) sib = 0) ∧
    (∀ (reg rm : BitVec 3), rm ≠ 4 →
      dispSize .s32 (modrmByte 0 reg rm) none = (if rm = 5 then 4 else 0)) ∧
    (∀ (reg : BitVec 3) (ss : BitVec 2) (index base : BitVec 3),
      dispSize .s32 (modrmByte 0 reg 4) (some (sibByte ss index base)) = (if base = 5 then 4 else 0)) ∧
    (∀ (a : Size) (m : Byte) (disp rest : List Byte), needsSib a m = false →
      disp.length = dispSize a m none →
      takeAddr (listFetcher (m :: (disp ++ rest))) a 0 =
        .ok { modrm := m, sib := none, disp := disp }) ∧
    (∀ (a : Size) (m s : Byte) (disp rest : List Byte), needsSib a m = true →
      disp.length = dispSize a m (some s) →
      takeAddr (listFetcher (m :: s :: (disp ++ rest))) a 0 =
        .ok { modrm := m, sib := some s, disp := disp })

/-! ## Registers -/

/-- The overlap of rule R22 (marked there as general knowledge; log entry 15), bit by bit: a narrower
register is its bits of the doubleword register, and "a write to a narrower register changes only its own
bits of the wider one"; a doubleword write changes that register only. The byte registers with codes 0 to
3 are in the doubleword registers with those codes; those with codes 4 to 7 are the high bytes of the same
four. -/
def Obligations.NarrowRegistersAreViews : Prop :=
  (∀ c : BitVec 3,
    (Reg8.gpr (Reg8.ofCode c) = if c.toNat < 4 then Gpr.ofCode c else Gpr.ofCode (c - 4)) ∧
      (Reg8.isHigh (Reg8.ofCode c) = true ↔ 4 ≤ c.toNat)) ∧
  (∀ (f : GprFile) (r : Gpr) (i : Nat), i < 16 → (f.get16 r).getLsbD i = (f.get32 r).getLsbD i) ∧
    (∀ (f : GprFile) (r : Reg8) (i : Nat), i < 8 →
      (f.get8 r).getLsbD i =
        (f.get32 (Reg8.gpr r)).getLsbD (if Reg8.isHigh r then i + 8 else i)) ∧
    (∀ (f : GprFile) (r q : Gpr) (v : DWord),
      (f.set32 r v).get32 q = if q = r then v else f.get32 q) ∧
    (∀ (f : GprFile) (r q : Gpr) (v : Word) (i : Nat),
      ((f.set16 r v).get32 q).getLsbD i =
        if q = r ∧ i < 16 then v.getLsbD i else (f.get32 q).getLsbD i) ∧
    (∀ (f : GprFile) (r : Reg8) (q : Gpr) (v : Byte) (i : Nat),
      ((f.set8 r v).get32 q).getLsbD i =
        let low := if Reg8.isHigh r then 8 else 0
        if q = Reg8.gpr r ∧ low ≤ i ∧ i < low + 8 then v.getLsbD (i - low)
        else (f.get32 q).getLsbD i)

/-! ## Flags -/

/-- The conventions of a "Flags Affected" section (rules R28, R29): 0, 1, the assigned value, "unchanged",
and for "undefined" the next free value, whatever it is, with the count of draws one higher and nothing
else of the state changed (log entry 14). -/
def Obligations.FlagConventions : Prop :=
  ∀ (old v : Bool) (s : State),
    applyFlagEffect .alwaysCleared old s = (false, s) ∧
    applyFlagEffect .alwaysSet old s = (true, s) ∧
    applyFlagEffect (.assigned v) old s = (v, s) ∧
    applyFlagEffect .notListed old s = (old, s) ∧
    applyFlagEffect .undefined old s =
      (Config.freeBits s.draws 1 == 1, { s with draws := s.draws + 1 })

/-! ## Memory -/

/-- Rule R60: a word is stored and read with its low-order byte at the lower address. -/
def Obligations.WordLowByteFirst : Prop :=
  (∀ (s : State) (a : DWord), a.toNat + 2 ≤ 2 ^ 32 →
      memRead s a 2 = .ok ((Memory.read s.mem (a.toNat + 1) ++ Memory.read s.mem a.toNat).toNat)) ∧
    (∀ (s : State) (a : DWord) (v : Word), Memory.wf s.mem = true → a.toNat + 2 ≤ 2 ^ 32 →
      ∃ t, memWrite s a 2 v.toNat = .ok t ∧
        Memory.read t.mem a.toNat = v.extractLsb' 0 8 ∧
        Memory.read t.mem (a.toNat + 1) = v.extractLsb' 8 8)

/-- A value stored at any byte address, aligned or not, is read back there, cut to the bytes stored (rules
R62, R63, R65, R70; R63 and R65 are decisions D10 and D11 of the spec). -/
def Obligations.StoreThenLoad : Prop :=
  ∀ (s : State) (a : DWord) (n v : Nat), Memory.wf s.mem = true → a.toNat + n ≤ 2 ^ 32 →
    ∃ t, memWrite s a n v = .ok t ∧ memRead t a n = .ok (v % 256 ^ n)

/-- A store changes memory and `Written` only: every byte outside the stored ones reads as before, and
`Written` gains exactly the stored addresses (rules R12, R62, R80). An access past the end of the linear
space is refused, reading and writing (rule R62, decision D9). -/
def Obligations.StoreFrame : Prop :=
  (∀ (s t : State) (a : DWord) (n v : Nat), memWrite s a n v = .ok t →
      (∀ x, x < a.toNat ∨ a.toNat + n ≤ x → Memory.read t.mem x = Memory.read s.mem x) ∧
        (∀ x, x ∈ t.written ↔ x ∈ s.written ∨ (a.toNat ≤ x ∧ x < a.toNat + n)) ∧
        t = { s with mem := t.mem, written := t.written }) ∧
    (∀ (s : State) (a : DWord) (n v : Nat), 2 ^ 32 < a.toNat + n →
      memWrite s a n v = .error (.refuse .linearWrap) ∧ memRead s a n = .error (.refuse .linearWrap))

/-- `FetchByte(k)` (rule R12): the byte of memory at `Lin(CS, pc + k)`, unless the run has stored to that
address, when it is refused (rule R80, decision D24), or `Lin` raises, when it faults with the `pc` of the
instruction (rules R256, R258). -/
def Obligations.FetchByteCases : Prop :=
  ∀ (s : State) (k : Nat),
    (∀ a, linAnswer s.params.lin .cs (s.pc + BitVec.ofNat 32 k) .fetch 1 = .linear a →
      (a.toNat ∈ s.written → fetchByte s k = .error (.refuse .fetchOfWrittenByte)) ∧
      (a.toNat ∉ s.written → fetchByte s k = .ok (Memory.read s.mem a.toNat))) ∧
    (∀ x c, linAnswer s.params.lin .cs (s.pc + BitVec.ofNat 32 k) .fetch 1 = .raise x c →
      fetchByte s k = .error (.fault (.exception x (excNumber x) c s.pc)))

/-! ## The oracle Lin -/

/-- No oracle is shut out (rule R14: nothing is assumed of `Lin` "except that it is a function of its
arguments"; log entry 6): every function of segment, offset, kind and size, for all sizes below any bound,
is some table's. -/
def Obligations.EveryOracleIsATable : Prop :=
  ∀ (g : SegReg → DWord → AccessKind → Nat → LinResult) (bound : Nat), ∃ o : LinOracle,
    ∀ (seg : SegReg) (off : DWord) (kind : AccessKind) (n : Nat), n < bound →
      linAnswer o seg off kind n = g seg off kind n

/-- Rule R14: with no check that fails, `Lin(s, off, kind, n)` is the base of the segment plus the offset,
modulo 2^32 (rule R62). -/
def Obligations.LinAddsSegmentBase : Prop :=
  ∀ (s : State) (seg : SegReg) (off : DWord) (kind : AccessKind) (n : Nat), s.params.lin.entries = [] →
    ∃ a, lin s seg off kind n = .ok a ∧
      a.toNat = ((s.params.lin.bases.get seg).toNat + off.toNat) % 2 ^ 32

/-! ## The predefined functions -/

/-- Rule R216: Truncate to 16 bits keeps the low 16 bits. -/
def Obligations.TruncateKeepsLowBits : Prop :=
  ∀ (w : Nat) (v : BitVec w), (truncate16 v).toNat = v.toNat % 65536

/-- Rules R218 and R219: ZeroExtend keeps the unsigned value and SignExtend the signed one, at equal width
too; both refuse a wider value. -/
def Obligations.ExtendKeepsValue : Prop :=
  ∀ (os : Size) (w : Nat) (v : BitVec w),
    (w ≤ os.width → (∃ r, zeroExtend os v = .ok r ∧ r.toNat = v.toNat) ∧
      ∃ r, signExtend os v = .ok r ∧ r.toInt = v.toInt) ∧
    (os.width < w → zeroExtend os v = .error (.refuse .extendOfWiderValue) ∧
      signExtend os v = .error (.refuse .extendOfWiderValue))

/-- Push (rules R220, R221, R226; the pointer's adjustment is restored there from general knowledge, log
entry 18): the stack pointer goes down by the size of the item modulo the stack address size, the item
stands at it low-order byte first, `Written` gains exactly the item's addresses (rule R80), and nothing
else changes: with a 16-bit stack the upper half of ESP stays, and every byte outside the item reads as
before. -/
def Obligations.PushStoresItem : Prop :=
  ∀ (os : Size) (v : BitVec os.width) (s : State) (p a : DWord),
    Memory.wf s.mem = true →
    p.toNat = ((stackPointer s).toNat + 2 ^ s.params.stackAddrSize.width - os.bytes) %
      2 ^ s.params.stackAddrSize.width →
    p.toNat + os.bytes ≤ 2 ^ s.params.stackAddrSize.width →
    lin s .ss p .write os.bytes = .ok a → a.toNat + os.bytes ≤ 2 ^ 32 →
    ∃ t, push os v s = .ok t ∧ stackPointer t = p ∧
      Memory.readAll t.mem a.toNat os.bytes = leBytes os.bytes v.toNat ∧
      (∀ x, x < a.toNat ∨ a.toNat + os.bytes ≤ x → Memory.read t.mem x = Memory.read s.mem x) ∧
      (∀ x, x ∈ t.written ↔ x ∈ s.written ∨ (a.toNat ≤ x ∧ x < a.toNat + os.bytes)) ∧
      (∀ q, q ≠ .esp → t.regs.get32 q = s.regs.get32 q) ∧
      (s.params.stackAddrSize = .s16 → t.regs.esp.extractLsb' 16 16 = s.regs.esp.extractLsb' 16 16) ∧
      t = { s with regs := t.regs, mem := t.mem, written := t.written }

/-- Pop (rules R223, R224, R226; log entry 18): the item at the stack pointer is returned, the pointer goes
up by its size modulo the stack address size, and nothing else changes. -/
def Obligations.PopReturnsItem : Prop :=
  ∀ (os : Size) (s : State) (a : DWord),
    (stackPointer s).toNat + os.bytes ≤ 2 ^ s.params.stackAddrSize.width →
    lin s .ss (stackPointer s) .read os.bytes = .ok a → a.toNat + os.bytes ≤ 2 ^ 32 →
    ∃ v t, pop os s = .ok (v, t) ∧
      v.toNat = leValue (Memory.readAll s.mem a.toNat os.bytes) ∧
      (stackPointer t).toNat =
        ((stackPointer s).toNat + os.bytes) % 2 ^ s.params.stackAddrSize.width ∧
      (∀ q, q ≠ .esp → t.regs.get32 q = s.regs.get32 q) ∧
      (s.params.stackAddrSize = .s16 → t.regs.esp.extractLsb' 16 16 = s.regs.esp.extractLsb' 16 16) ∧
      t = { s with regs := t.regs }

/-- "Pop is the inverse of Push" (rule R224, derived there): where `Lin` answers a read of the item as it
answered the write, Pop returns what Push was given and every register is as before. -/
def Obligations.PopUndoesPush : Prop :=
  ∀ (os : Size) (v : BitVec os.width) (s t : State),
    Memory.wf s.mem = true → push os v s = .ok t →
    lin s .ss (pushPointer s os) .read os.bytes = lin s .ss (pushPointer s os) .write os.bytes →
    ∃ u, pop os t = .ok (v, u) ∧ u.regs = s.regs ∧ u.mem = t.mem

/-- Rule R226 (decision D26): a Push or a Pop whose item would pass the top of the stack's offset range is
refused, whatever `Lin` would say. -/
def Obligations.StackItemPastTopRefused : Prop :=
  ∀ (os : Size) (v : BitVec os.width) (s : State),
    (2 ^ s.params.stackAddrSize.width < (pushPointer s os).toNat + os.bytes →
      push os v s = .error (.refuse .stackItemWrapsSegment)) ∧
    (2 ^ s.params.stackAddrSize.width < (stackPointer s).toNat + os.bytes →
      pop os s = .error (.refuse .stackItemWrapsSegment))

/-- Rule R234: the bit of a memory base. The byte is `q` bytes from the base, where `offset = 8*q + r` with
`r` from 0 to 7, and the bit is bit `r` of the byte `Lin` gives there. -/
def Obligations.BitOfMemoryBase : Prop :=
  ∀ (s : State) (a : Size) (seg : SegReg) (base offset : DWord), ∃ (q : Int) (r : Nat),
    offset.toInt = 8 * q + r ∧ r < 8 ∧
      bitOfMemory a seg base offset = .inMemory seg (truncTo a (base + BitVec.ofInt 32 q)) r ∧
      ∀ (kind : AccessKind) (x : DWord),
        lin s seg (truncTo a (base + BitVec.ofInt 32 q)) kind 1 = .ok x →
        readBit s kind (bitOfMemory a seg base offset) = .ok ((Memory.read s.mem x.toNat).getLsbD r)

/-- Rule R231 (the refusal is decision D33): the bit of a register base, or the refusal of an offset outside
the register; a negative offset is outside. -/
def Obligations.BitOfRegisterBase : Prop :=
  ∀ (s : State) (r : RegOperand) (offset : DWord) (kind : AccessKind),
    (∀ k : Nat, offset.toInt = k → k < r.bits →
      bitOfRegister r offset = .ok (.inRegister r k) ∧
        readBit s kind (.inRegister r k) = .ok ((r.read s.regs).getLsbD k)) ∧
    (offset.toInt < 0 ∨ (r.bits : Int) ≤ offset.toInt →
      bitOfRegister r offset = .error (.refuse .bitOffsetOutsideRegister))

/-- I-O-Permission (rule R240; its restored lines and open points are decision D19, log entry 19): never
with a 286 TSS; refused with a 386 TSS and no limit; denied past the limit; otherwise permitted exactly
when each of the 1, 2 or 4 bits from bit `address mod 8` on of the two bytes read is 0. -/
def Obligations.IOPermissionCases : Prop :=
  ∀ (s : State) (port : Word) (w : DataWidth),
    (s.params.tssType = .t286 → ioPermission s port w = .ok false) ∧
    (s.params.tssType = .t386 → s.params.tssLimit = none →
      ioPermission s port w = .error (.refuse .ioBitmapLimitUnknown)) ∧
    (∀ limit ptr, s.params.tssType = .t386 → s.params.tssLimit = some limit →
      memRead s (s.params.tssBase + 102) 2 = .ok ptr →
      (limit < ptr + port.toNat / 8 + 1 → ioPermission s port w = .ok false) ∧
      (∀ word, ptr + port.toNat / 8 + 1 ≤ limit →
        memRead s (s.params.tssBase + BitVec.ofNat 32 (ptr + port.toNat / 8)) 2 = .ok word →
        ∃ b, ioPermission s port w = .ok b ∧
          (b = true ↔ ∀ j, j < w.bytes → word.testBit (port.toNat % 8 + j) = false)))

/-! ## Addressing forms -/

/-- Table 17-2, mod = 00 (rules R171, R73; the sum modulo 2^16 is rule R175, decision D7). -/
def Obligations.Table172NoDisplacement : Prop :=
  ∀ (f : GprFile) (reg : BitVec 3) (w : DataWidth) (ov : Option SegReg) (d : Word),
    let at0 := fun rm bytes =>
      resolveRM f .s16 { modrm := modrmByte 0 reg rm, sib := none, disp := bytes } w ov
    let loc := fun seg (ea : Word) => Loc.mem (ov.getD seg) (ea.setWidth 32)
    at0 0 [] = loc .ds (f.get16 .ebx + f.get16 .esi) ∧
    at0 1 [] = loc .ds (f.get16 .ebx + f.get16 .edi) ∧
    at0 2 [] = loc .ss (f.get16 .ebp + f.get16 .esi) ∧
    at0 3 [] = loc .ss (f.get16 .ebp + f.get16 .edi) ∧
    at0 4 [] = loc .ds (f.get16 .esi) ∧
    at0 5 [] = loc .ds (f.get16 .edi) ∧
    at0 6 (leBytes 2 d.toNat) = loc .ds d ∧
    at0 7 [] = loc .ds (f.get16 .ebx)

/-- Table 17-2, mod = 01 and mod = 10 (rules R172, R173, R73, R103; the sum modulo 2^16 is rule R175,
decision D7): the same registers with an 8-bit displacement sign-extended, or a 16-bit one. -/
def Obligations.Table172Displacement : Prop :=
  ∀ (f : GprFile) (reg : BitVec 3) (w : DataWidth) (ov : Option SegReg) (mod : BitVec 2)
    (bytes : List Byte) (x : Word),
    ((mod = 1 ∧ ∃ d : Byte, bytes = [d] ∧ x = d.signExtend 16) ∨
      (mod = 2 ∧ bytes = leBytes 2 x.toNat)) →
    let at0 := fun rm =>
      resolveRM f .s16 { modrm := modrmByte mod reg rm, sib := none, disp := bytes } w ov
    let loc := fun seg (ea : Word) => Loc.mem (ov.getD seg) (ea.setWidth 32)
    at0 0 = loc .ds (f.get16 .ebx + f.get16 .esi + x) ∧
    at0 1 = loc .ds (f.get16 .ebx + f.get16 .edi + x) ∧
    at0 2 = loc .ss (f.get16 .ebp + f.get16 .esi + x) ∧
    at0 3 = loc .ss (f.get16 .ebp + f.get16 .edi + x) ∧
    at0 4 = loc .ds (f.get16 .esi + x) ∧
    at0 5 = loc .ds (f.get16 .edi + x) ∧
    at0 6 = loc .ss (f.get16 .ebp + x) ∧
    at0 7 = loc .ds (f.get16 .ebx + x)

/-- Table 17-3 without the SIB rows (rules R177 to R179, R103; segments by rule R74, decision D8, log entry
17; sums modulo 2^32 by rule R180, decision D7). -/
def Obligations.Table173Forms : Prop :=
  ∀ (f : GprFile) (reg rm : BitVec 3) (w : DataWidth) (ov : Option SegReg) (d8 : Byte) (d32 : DWord),
    rm ≠ 4 →
    let at0 := fun mod bytes =>
      resolveRM f .s32 { modrm := modrmByte mod reg rm, sib := none, disp := bytes } w ov
    let r := f.get32 (Gpr.ofCode rm)
    let seg := ov.getD (if rm = 5 then .ss else .ds)
    (rm ≠ 5 → at0 0 [] = .mem (ov.getD .ds) r) ∧
    (rm = 5 → at0 0 (leBytes 4 d32.toNat) = .mem (ov.getD .ds) d32) ∧
    at0 1 [d8] = .mem seg (r + d8.signExtend 32) ∧
    at0 2 (leBytes 4 d32.toNat) = .mem seg (r + d32)

/-- Table 17-4, every SIB form (rules R190 to R196; segments by rule R74, decision D8, log entry 17; sums
modulo 2^32 by rule R180, decision D7): index 100 is no index whatever the scale (rule R192, decision D23),
base 101 is no base under mod 00 (rule R194). -/
def Obligations.Table174Forms : Prop :=
  ∀ (f : GprFile) (reg : BitVec 3) (ss : BitVec 2) (index base : BitVec 3) (w : DataWidth)
    (ov : Option SegReg) (d8 : Byte) (d32 : DWord),
    let at0 := fun mod bytes =>
      resolveRM f .s32
        { modrm := modrmByte mod reg 4, sib := some (sibByte ss index base), disp := bytes } w ov
    let b := f.get32 (Gpr.ofCode base)
    let i := if index = 4 then 0 else f.get32 (Gpr.ofCode index) <<< ss.toNat
    let seg := ov.getD (if base = 4 ∨ base = 5 then .ss else .ds)
    (base ≠ 5 → at0 0 [] = .mem (ov.getD (if base = 4 then .ss else .ds)) (b + i)) ∧
    (base = 5 → at0 0 (leBytes 4 d32.toNat) = .mem (ov.getD .ds) (d32 + i)) ∧
    at0 1 [d8] = .mem seg (b + i + d8.signExtend 32) ∧
    at0 2 (leBytes 4 d32.toNat) = .mem seg (b + i + d32)

/-- Rule R174: with mod = 11, under either address size, the operand is the register whose code is r/m, of
the kind asked for (the codes are rule R21's); no displacement, no SIB byte, no segment, and reading it
reads no memory. -/
def Obligations.RegisterForms : Prop :=
  (List.range 8).map (fun c => (RegOperand.ofCode .dword (BitVec.ofNat 3 c),
      RegOperand.ofCode .word (BitVec.ofNat 3 c), RegOperand.ofCode .byte (BitVec.ofNat 3 c))) =
    [(.r32 .eax, .r16 .eax, .r8 .al), (.r32 .ecx, .r16 .ecx, .r8 .cl), (.r32 .edx, .r16 .edx, .r8 .dl),
      (.r32 .ebx, .r16 .ebx, .r8 .bl), (.r32 .esp, .r16 .esp, .r8 .ah), (.r32 .ebp, .r16 .ebp, .r8 .ch),
      (.r32 .esi, .r16 .esi, .r8 .dh), (.r32 .edi, .r16 .edi, .r8 .bh)] ∧
    ∀ (s : State) (a : Size) (spec : AddrSpec) (w : DataWidth) (ov : Option SegReg),
      modField spec.modrm = 3 →
        resolveRM s.regs a spec w ov = .reg (RegOperand.ofCode w (rmField spec.modrm)) ∧
          needsSib a spec.modrm = false ∧ dispSize a spec.modrm spec.sib = 0 ∧
          readLoc s w (resolveRM s.regs a spec w ov) =
            .ok ((RegOperand.ofCode w (rmField spec.modrm)).read s.regs)

/-- Rule R73: the default segment of a 16-bit memory form is SS when the address contains BP, else DS. -/
def Obligations.DefaultSegmentSixteenBit : Prop :=
  ∀ (f : GprFile) (spec : AddrSpec) (w : DataWidth), modField spec.modrm ≠ 3 →
    ∃ ea, resolveRM f .s16 spec w none =
      .mem (if rmField spec.modrm = 2 ∨ rmField spec.modrm = 3 ∨
          (rmField spec.modrm = 6 ∧ (modField spec.modrm = 1 ∨ modField spec.modrm = 2))
        then .ss else .ds) ea

/-- "the high halves of those registers take no part" in a 16-bit address (rule R175): register files that
agree on the word registers BX, BP, SI and DI give the same operand, whatever else they hold. -/
def Obligations.HighHalvesPlayNoPart : Prop :=
  ∀ (f g : GprFile) (spec : AddrSpec) (w : DataWidth) (ov : Option SegReg),
    (∀ r, r ∈ [Gpr.ebx, Gpr.ebp, Gpr.esi, Gpr.edi] → f.get16 r = g.get16 r) →
    resolveRM f .s16 spec w ov = resolveRM g .s16 spec w ov

/-- Rules R153, R161 to R166: after a segment-override byte the memory operand of the instruction uses the
named segment register, at the same effective address; DS "changes something only for a form whose default
is SS". -/
def Obligations.OverrideSelectsSegment : Prop :=
  ∀ (s : State) (f : GprFile) (a : Size) (spec : AddrSpec) (w : DataWidth),
    s.pending.seg = none → modField spec.modrm ≠ 3 →
    ∃ seg ea, resolveRM f a spec w none = .mem seg ea ∧ (seg = .ss ∨ seg = .ds) ∧
      (∃ t, exec .segCS s = .next t ∧ resolveRM f a spec w t.pending.seg = .mem .cs ea) ∧
      (∃ t, exec .segSS s = .next t ∧ resolveRM f a spec w t.pending.seg = .mem .ss ea) ∧
      (∃ t, exec .segDS s = .next t ∧ resolveRM f a spec w t.pending.seg = .mem .ds ea) ∧
      (∃ t, exec .segES s = .next t ∧ resolveRM f a spec w t.pending.seg = .mem .es ea) ∧
      (∃ t, exec .segFS s = .next t ∧ resolveRM f a spec w t.pending.seg = .mem .fs ea) ∧
      (∃ t, exec .segGS s = .next t ∧ resolveRM f a spec w t.pending.seg = .mem .gs ea)

/-! ## Operands -/

/-- Relative addresses (rules R115, R116; the base point of rel16 and rel32 and the 16-bit cut of rel16 are
decision D35, log entry 22): measured from the end of the instruction, the field signed. An end of the
instruction that is not below 2^32 is refused as `PcWrap` (rule R25, decision D16, log entry 8); a target
outside 0 to 2^32 - 1 is taken modulo 2^32, which is the model's choice (log entry 42). -/
def Obligations.RelativeTargets : Prop :=
  ∀ (s : State) (d : Decoded),
    (s.pc.toNat + d.length < 2 ^ 32 →
      (∀ b : Byte, d.code = [b] →
        ∃ x, readOperand s d .rel8 = some (.ok (.target x)) ∧
          x = BitVec.ofInt 32 (s.pc.toNat + d.length + b.toInt)) ∧
      (∀ v : Word, d.code = leBytes 2 v.toNat →
        ∃ x, readOperand s d .rel16 = some (.ok (.target x)) ∧
          (x.toNat : Int) = (s.pc.toNat + d.length + v.toInt) % 2 ^ 16) ∧
      (∀ v : DWord, d.code = leBytes 4 v.toNat →
        ∃ x, readOperand s d .rel32 = some (.ok (.target x)) ∧
          x = BitVec.ofInt 32 (s.pc.toNat + d.length + v.toInt))) ∧
    (2 ^ 32 ≤ s.pc.toNat + d.length →
      (d.code.length = 1 → readOperand s d .rel8 = some (.error (.refuse .pcWrap))) ∧
      (d.code.length = 2 → readOperand s d .rel16 = some (.error (.refuse .pcWrap))) ∧
      (d.code.length = 4 → readOperand s d .rel32 = some (.error (.refuse .pcWrap))))

/-- Parts of a multi-part operand (rule R68, general knowledge there, log entry 21): in the instruction
stream and in memory the offset of a far pointer lies below its selector; the lower bound lies below the
upper one; the limit word of `m16 & 32` lies below its base. Every part is low-order byte first. -/
def Obligations.MultiPartLayout : Prop :=
  (∀ (s : State) (d : Decoded) (sel off : Word),
      d.code = leBytes 2 off.toNat ++ leBytes 2 sel.toNat →
      readOperand s d .ptr16x16 = some (.ok (.far sel (off.setWidth 32)))) ∧
    (∀ (s : State) (d : Decoded) (sel : Word) (off : DWord),
      d.code = leBytes 4 off.toNat ++ leBytes 2 sel.toNat →
      readOperand s d .ptr16x32 = some (.ok (.far sel off))) ∧
    ∀ (s : State) (d : Decoded) (spec : AddrSpec) (seg : SegReg) (ea : DWord),
      d.addr = some spec →
      resolveRM s.regs d.addrSize spec .dword d.prefixes.seg = .mem seg ea →
      let holds := fun (bytes : List Byte) =>
        ∃ a, lin s seg ea .read bytes.length = .ok a ∧ a.toNat + bytes.length ≤ 2 ^ 32 ∧
          Memory.readAll s.mem a.toNat bytes.length = bytes
      (∀ sel off : Word, holds (leBytes 2 off.toNat ++ leBytes 2 sel.toNat) →
        readOperand s d .m16x16 = some (.ok (.far sel (off.setWidth 32)))) ∧
      (∀ (sel : Word) (off : DWord), holds (leBytes 4 off.toNat ++ leBytes 2 sel.toNat) →
        readOperand s d .m16x32 = some (.ok (.far sel off))) ∧
      (∀ lower upper : Word, holds (leBytes 2 lower.toNat ++ leBytes 2 upper.toNat) →
        readOperand s d .m16and16 =
          some (.ok (.bounds .word (lower.setWidth 32) (upper.setWidth 32)))) ∧
      (∀ lower upper : DWord, holds (leBytes 4 lower.toNat ++ leBytes 4 upper.toNat) →
        readOperand s d .m32and32 = some (.ok (.bounds .dword lower upper))) ∧
      (∀ (limit : Word) (base : DWord), holds (leBytes 2 limit.toNat ++ leBytes 4 base.toNat) →
        readOperand s d .m16and32 = some (.ok (.limitBase { limit := limit, base := base })))

/-- Where the operand of each symbol is. r8, r16 and r32 are the register of that kind whose code the opcode
byte carries, or else the reg field of the ModR/M byte (rules R97, R118; which of the two in a row that has
both is the model's choice, log entry 44, and so is the reg field in a row with `/digit`, for Sreg too, log
entry 47). r/m8, r/m16 and r/m32 are the r/m operand of that width under the
instruction's address size and override (rules R98, R122 to R124). Sreg is the segment register whose code
is in the reg field (rule R129). An immediate is the first field of its width (log entry 24), low-order
byte first, and imm8 "combined with a word or doubleword operand" keeps its signed value (rules R119 to
R121). A moffs operand is at the offset in the instruction, as wide as the address size, in DS or the
override (rule R128, log entry 23). A string operand is at SI in DS or the override, or at DI in ES
whatever the override (rules R75, R125, log entry 38); under a 32-bit address size the whole doubleword
registers or their low words are used, and which of the two is free (log entry 13). No override reaches
Push, Pop or the fetch (rule R75, log entry 38). -/
def Obligations.OperandSymbolsDenoteTheirOperands : Prop :=
  (∀ (f : GprFile) (d : Decoded),
    (∀ c, d.regCode = some c →
      operandLoc f d .r8 = some (.byte, .reg (RegOperand.ofCode .byte c)) ∧
      operandLoc f d .r16 = some (.word, .reg (RegOperand.ofCode .word c)) ∧
      operandLoc f d .r32 = some (.dword, .reg (RegOperand.ofCode .dword c))) ∧
    (∀ a, d.regCode = none → d.addr = some a →
      operandLoc f d .r8 = some (.byte, .reg (RegOperand.ofCode .byte (regField a.modrm))) ∧
      operandLoc f d .r16 = some (.word, .reg (RegOperand.ofCode .word (regField a.modrm))) ∧
      operandLoc f d .r32 = some (.dword, .reg (RegOperand.ofCode .dword (regField a.modrm)))) ∧
    (∀ a, d.addr = some a →
      operandLoc f d .rm8 = some (.byte, resolveRM f d.addrSize a .byte d.prefixes.seg) ∧
      operandLoc f d .rm16 = some (.word, resolveRM f d.addrSize a .word d.prefixes.seg) ∧
      operandLoc f d .rm32 = some (.dword, resolveRM f d.addrSize a .dword d.prefixes.seg))) ∧
  (∀ (s : State) (d : Decoded) (a : AddrSpec), d.addr = some a →
    (∀ r, SegReg.ofCode? (regField a.modrm) = some r →
      readOperand s d .sreg = some (.ok (.seg r))) ∧
    (SegReg.ofCode? (regField a.modrm) = none →
      readOperand s d .sreg = some (.error (.refuse .sregCodeUndefined)))) ∧
  (∀ (s : State) (d : Decoded) (first rest : List (List Byte)),
    (∀ b : Byte, (∀ x, x ∈ first → x.length ≠ 1) → d.imms = first ++ [b] :: rest →
      readOperand s d .imm8 = some (.ok (.num .byte (b.setWidth 32)))) ∧
    (∀ v : Word, (∀ x, x ∈ first → x.length ≠ 2) → d.imms = first ++ leBytes 2 v.toNat :: rest →
      readOperand s d .imm16 = some (.ok (.num .word (v.setWidth 32)))) ∧
    (∀ v : DWord, (∀ x, x ∈ first → x.length ≠ 4) → d.imms = first ++ leBytes 4 v.toNat :: rest →
      readOperand s d .imm32 = some (.ok (.num .dword v)))) ∧
  (∀ (os : Size) (b : Byte), (imm8Extended os b).toInt = b.toInt) ∧
  (∀ (s : State) (d : Decoded) (sym : OperandSym) (w : DataWidth) (loc : Loc),
    operandLoc s.regs d sym = some (w, loc) →
      readOperand s d sym = some ((readLoc s w loc).map (OperandVal.num w)) ∧
        ∀ v, writeOperand s d sym v = some (writeLoc s w v loc)) ∧
  (moffsSize .s16 true = 2 ∧ moffsSize .s32 true = 4) ∧
  (∀ (f : GprFile) (d : Decoded) (sym : OperandSym) (w : DataWidth),
    (sym, w) ∈ [(OperandSym.moffs8, DataWidth.byte), (.moffs16, .word), (.moffs32, .dword)] →
      (∀ o : Word, d.moffs = leBytes 2 o.toNat →
        operandLoc f d sym = some (w, .mem (d.prefixes.seg.getD .ds) (o.setWidth 32))) ∧
      ∀ o : DWord, d.moffs = leBytes 4 o.toNat →
        operandLoc f d sym = some (w, .mem (d.prefixes.seg.getD .ds) o)) ∧
  (∃ wide : Bool, ∀ (f : GprFile) (d : Decoded) (sym : StringSide → OperandSym) (w : DataWidth),
    (sym, w) ∈ [(OperandSym.m8, DataWidth.byte), (.m16, .word), (.m32, .dword)] →
      let index := fun r =>
        if d.addrSize = .s32 ∧ wide = true then f.get32 r else (f.get16 r).setWidth 32
      operandLoc f d (sym .source) = some (w, .mem (d.prefixes.seg.getD .ds) (index .esi)) ∧
        operandLoc f d (sym .destination) = some (w, .mem .es (index .edi))) ∧
  ∀ (s : State) (p : PrefixSet),
    (∀ k, fetchByte (s.setPending p) k = fetchByte s k) ∧
    (∀ (os : Size) (v : BitVec os.width),
      push os v (s.setPending p) = (push os v s).map fun t => t.setPending p) ∧
    ∀ os : Size, pop os (s.setPending p) = (pop os s).map fun r => (r.1, r.2.setPending p)

/-- Rule R133 (decisions D22, D34): a memory-only operand met with mod = 11 is refused; segment-register
codes 6 and 7 are refused, and codes 0 to 5 are ES, CS, SS, DS, FS, GS (rule R30). -/
def Obligations.UndefinedOperandFormsRefused : Prop :=
  (∀ (s : State) (d : Decoded) (spec : AddrSpec) (sym : OperandSym), d.addr = some spec →
      modField spec.modrm = 3 →
      sym ∈ [OperandSym.m16x16, .m16x32, .m16and16, .m32and32, .m16and32] →
      readOperand s d sym = some (.error (.refuse .registerFormOfMemoryOperand))) ∧
    (List.range 8).map (fun c => sregOfCode (BitVec.ofNat 3 c)) =
      [.ok .es, .ok .cs, .ok .ss, .ok .ds, .ok .fs, .ok .gs,
        .error (.refuse .sregCodeUndefined), .error (.refuse .sregCodeUndefined)]

/-- Reading and writing an operand in a register or in memory (rules R22, R60, R63, R98, R122 to R124; the
overlap of registers is log entry 15). A register is read and written by its kind, and a write of it
changes the registers alone. A memory operand is the bytes at the address `Lin` gives, low-order byte
first; a write of it stores its own bytes, changes no other byte, adds exactly their addresses to `Written`
(rule R80) and changes nothing else. What is written reads back, cut to the operand's width, where `Lin`
answers the read as it does the write. -/
def Obligations.OperandReadAfterWrite : Prop :=
  (∀ (s : State) (w : DataWidth) (v : DWord),
    (∀ r, readLoc s w (.reg (.r8 r)) = .ok ((s.regs.get8 r).setWidth 32) ∧
      writeLoc s w v (.reg (.r8 r)) = .ok { s with regs := s.regs.set8 r (v.setWidth 8) }) ∧
    (∀ r, readLoc s w (.reg (.r16 r)) = .ok ((s.regs.get16 r).setWidth 32) ∧
      writeLoc s w v (.reg (.r16 r)) = .ok { s with regs := s.regs.set16 r (v.setWidth 16) }) ∧
    ∀ r, readLoc s w (.reg (.r32 r)) = .ok (s.regs.get32 r) ∧
      writeLoc s w v (.reg (.r32 r)) = .ok { s with regs := s.regs.set32 r v }) ∧
  (∀ (s : State) (w : DataWidth) (seg : SegReg) (ea a : DWord), a.toNat + w.bytes ≤ 2 ^ 32 →
    (lin s seg ea .read w.bytes = .ok a →
      readLoc s w (.mem seg ea) =
        .ok (BitVec.ofNat 32 (leValue (Memory.readAll s.mem a.toNat w.bytes)))) ∧
    (Memory.wf s.mem = true → lin s seg ea .write w.bytes = .ok a →
      ∀ v, ∃ t, writeLoc s w v (.mem seg ea) = .ok t ∧
        Memory.readAll t.mem a.toNat w.bytes = leBytes w.bytes v.toNat ∧
        (∀ x, x < a.toNat ∨ a.toNat + w.bytes ≤ x → Memory.read t.mem x = Memory.read s.mem x) ∧
        (∀ x, x ∈ t.written ↔ x ∈ s.written ∨ (a.toNat ≤ x ∧ x < a.toNat + w.bytes)) ∧
        t = { s with mem := t.mem, written := t.written })) ∧
  ∀ (s t : State) (w : DataWidth) (loc : Loc) (v : DWord), Memory.wf s.mem = true →
    (∀ c, loc = .reg c → ∃ code, c = RegOperand.ofCode w code) →
    (∀ seg ea, loc = .mem seg ea → lin s seg ea .read w.bytes = lin s seg ea .write w.bytes) →
    writeLoc s w v loc = .ok t →
    ∃ r, readLoc t w loc = .ok r ∧ r.toNat = v.toNat % 2 ^ w.bits

/-! ## The instructions -/

/-- CMC completes (rule R210; that every other flag stays is decision D17, log entry 9): with no prefix
byte before it and room for `pc + 1`, CF becomes its complement, `pc` goes up by one, and the state is
otherwise the same: every register, every other flag, every segment and table register, every byte of
memory, `Written`, the marks and the parameters. -/
def Obligations.CmcComplementsCarry : Prop :=
  ∀ s : State, s.pending = PrefixSet.empty → s.pc.toNat + 1 < 2 ^ 32 →
    exec .cmc s = .next { s with cf := !s.cf, pc := s.pc + 1 }

/-- Where CMC does not complete (rules R25, R150, R151, R156, R160, R210; decisions D15, D16, D18): F0H, F3H
or F2H before it are refused by their own names first, any other prefix byte as `PrefixNotShown`, and at
`pc = FFFFFFFFH` CMC alone is refused as `PcWrap`. -/
def Obligations.CmcRefusals : Prop :=
  ∀ s : State,
    (s.pending.g1 = some .lock → exec .cmc s = .refused .lockNotInSource) ∧
    (s.pending.g1 = some .rep ∨ s.pending.g1 = some .repne → exec .cmc s = .refused .repNotInSource) ∧
    (s.pending.g1 = none → s.pending ≠ PrefixSet.empty → exec .cmc s = .refused .prefixNotShown) ∧
    (s.pending = PrefixSet.empty → s.pc = 0xFFFFFFFF → exec .cmc s = .refused .pcWrap)

/-- "two CMC in a row restore CF" (rule R210): the state differs in `pc` alone. -/
def Obligations.TwoCmcRestoreCarry : Prop :=
  ∀ s t u : State, exec .cmc s = .next t → exec .cmc t = .next u → u = { s with pc := s.pc + 2 }

/-- "CMC does not depend on OperandSize, AddressSize or `Mode`" (rule R210), nor on any other parameter:
with other parameters the outcome is the same, with those parameters in the next state. -/
def Obligations.CmcIgnoresParameters : Prop :=
  ∀ (s : State) (p : Params),
    (∀ t, exec .cmc s = .next t → exec .cmc { s with params := p } = .next { t with params := p }) ∧
    (∀ r, exec .cmc s = .refused r → exec .cmc { s with params := p } = .refused r) ∧
    (∀ x, exec .cmc s ≠ .fault x)

/-- The rows of group G1 complete (rules R111, R150 to R152, R157): with no byte of the group seen, the byte
is remembered and the state is otherwise the same, every byte of memory included; both names of F3H alike.
Executing a prefix byte as a step of its own is the model's choice (log entry 1). -/
def Obligations.GroupOneRowsRemember : Prop :=
  ∀ s : State, s.pending.g1 = none →
    exec .rep s = .next { s with pending := { s.pending with g1 := some .rep } } ∧
    exec .repeRepz s = .next { s with pending := { s.pending with g1 := some .rep } } ∧
    exec .repneRepnz s = .next { s with pending := { s.pending with g1 := some .repne } } ∧
    exec .lock s = .next { s with pending := { s.pending with g1 := some .lock } }

/-- The segment-override rows complete (rules R111, R153, R157, R161 to R166): with no override seen, the
register is remembered and the state is otherwise the same, every byte of memory included (log entry 1). -/
def Obligations.SegmentRowsRemember : Prop :=
  ∀ s : State, s.pending.seg = none →
    exec .segCS s = .next { s with pending := { s.pending with seg := some .cs } } ∧
    exec .segSS s = .next { s with pending := { s.pending with seg := some .ss } } ∧
    exec .segDS s = .next { s with pending := { s.pending with seg := some .ds } } ∧
    exec .segES s = .next { s with pending := { s.pending with seg := some .es } } ∧
    exec .segFS s = .next { s with pending := { s.pending with seg := some .fs } } ∧
    exec .segGS s = .next { s with pending := { s.pending with seg := some .gs } }

/-- The size-override rows complete (rules R111, R154, R155, R157; decision D4): the byte is remembered, the
state is otherwise the same, every byte of memory included (log entry 1), and the attribute the decoder
takes is then "the value of {16, 32} that is not" the default, where it was the default before. -/
def Obligations.SizeRowsRemember : Prop :=
  (∀ s : State, s.pending.opSize = false →
      exec .opsize s = .next { s with pending := { s.pending with opSize := true } }) ∧
    (∀ s : State, s.pending.addrSize = false →
      exec .addrsize s = .next { s with pending := { s.pending with addrSize := true } }) ∧
    (overridden .s16 true = .s32 ∧ overridden .s32 true = .s16) ∧
    ∀ d : Size, overridden d false = d

/-- A second byte of a group is refused (rule R157, decision D5, log entry 27), for every prefix row. -/
def Obligations.SecondByteOfGroupRefused : Prop :=
  ∀ s : State,
    (s.pending.g1 ≠ none → ∀ i ∈ [Instr.rep, .repeRepz, .repneRepnz, .lock],
      exec i s = .refused .duplicatePrefixGroup) ∧
    (s.pending.seg ≠ none → ∀ i ∈ [Instr.segCS, .segSS, .segDS, .segES, .segFS, .segGS],
      exec i s = .refused .duplicatePrefixGroup) ∧
    (s.pending.opSize = true → exec .opsize s = .refused .duplicatePrefixGroup) ∧
    (s.pending.addrSize = true → exec .addrsize s = .refused .duplicatePrefixGroup)

/-! ## The machine -/

/-- A step runs the decoded row: with no mark and the run not over, a step is `exec` of the row at the next
byte, with nothing added around it, and it stops as the decoding stops. That a step runs one row, a prefix
byte being a step of its own, is the model's choice (log entry 1): rule R213's step is a whole
instruction, `instructionStep`. -/
def Obligations.StepRunsDecodedRow : Prop :=
  ∀ s : State, s.faultMark = none → s.refusedMark = none → s.pc ≠ s.params.endPc →
    (∀ i n, decodeNext s = .ok (i, n) → step s = exec i s) ∧
    (∀ f, decodeNext s = .error (.fault f) → step s = .fault f) ∧
    (∀ r, decodeNext s = .error (.refuse r) → step s = .refused r)

/-- The row at the next byte, from memory (rules R12, R111, R131): with the byte readable, it is the row of
that byte, and a byte of no row stops the step as `OpcodeNotInSource` (log entry 1). -/
def Obligations.NextRowIsTheByteInMemory : Prop :=
  ∀ (s : State) (b : Byte), fetchByte s s.pending.count = .ok b →
    (∀ i, i.wellFormed = true → encode i = [b] → decodeNext s = .ok (i, 1)) ∧
    ((∀ i : Instr, encode i ≠ [b]) → decodeNext s = .error (.refuse .opcodeNotInSource))

/-- At `EndPc` the run is over: the state stays (rule R289, decision D21; that the step answers the same
state is the model's choice, log entry 25). -/
def Obligations.FinalStateStays : Prop :=
  ∀ s : State, isFinal s = true → step s = .next s ∧ ∀ n, advanceN n s = s

/-- "once set [they] are never cleared" (rules R40, R213, R258, R259): a marked state takes no further step
and is never final, and a step that stops sets its mark and writes nothing else that the spec gives the
machine. -/
def Obligations.MarksEndTheRun : Prop :=
  (∀ (s : State) (n : Nat), isMarked s = true → advanceN n s = s ∧ isFinal s = false) ∧
    (∀ (s : State) (f : Fault), isMarked s = false → step s = .fault f →
      advance s = { s with faultMark := some f, pending := PrefixSet.empty }) ∧
    (∀ (s : State) (r : Refusal), isMarked s = false → step s = .refused r →
      advance s = { s with refusedMark := some r, pending := PrefixSet.empty })

/-- "Every exception enters through the oracle `Lin`" (rule R256). A step of an unmarked state faults only
with an exception `Lin` raises on the fetch of its one byte, the byte after the prefix bytes remembered
(log entry 1), with the interrupt number of its name (rule R251) and the `pc` of the instruction (rule
R255). A whole instruction faults only on "a byte the instruction owns" (rule R66): every byte before it
was fetched and is a prefix byte, so there are at most four. -/
def Obligations.FaultsComeFromLin : Prop :=
  ∀ (s : State) (f : Fault), isMarked s = false →
    (step s = .fault f →
      ∃ x c, linAnswer s.params.lin .cs (s.pc + BitVec.ofNat 32 s.pending.count) .fetch 1 = .raise x c ∧
        f = .exception x (excNumber x) c s.pc) ∧
    (instructionStep s = .fault f →
      ∃ k x c, k ≤ 4 ∧
        linAnswer s.params.lin .cs (s.pc + BitVec.ofNat 32 k) .fetch 1 = .raise x c ∧
        f = .exception x (excNumber x) c s.pc ∧
        ∀ j, j < k → ∃ b, fetchByte s j = .ok b ∧ (PrefixByte.ofByte b).isSome = true)

/-- What a step can change (rules R40, R289, R290): CF, `pc` and the prefix bytes remembered, and nothing
else. Either the state stays at `EndPc`; or one prefix byte is remembered, with CF and `pc` as they were;
or CMC completes, with CF complemented, `pc` one higher and no prefix byte before or after. -/
def Obligations.StepChangesCarryAndPcOnly : Prop :=
  ∀ s t : State, step s = .next t →
    t = { s with cf := t.cf, pc := t.pc, pending := t.pending } ∧
      ((t = s ∧ s.pc = s.params.endPc) ∨
        (t.cf = s.cf ∧ t.pc = s.pc ∧ t.pending.count = s.pending.count + 1) ∨
        (t.cf = !s.cf ∧ t.pc.toNat = s.pc.toNat + 1 ∧ s.pending = PrefixSet.empty ∧
          t.pending = PrefixSet.empty))

/-- Every step keeps the invariant of a state: memory and `Written` in canonical form, no prefix byte
remembered in a state that is over or marked; also when the step stops and its mark is set. -/
def Obligations.StepKeepsInvariant : Prop :=
  (∀ s t : State, stateInv s = true → step s = .next t → stateInv t = true) ∧
    (∀ s : State, stateInv s = true → stateInv (advance s) = true)

/-- The state after reset meets the invariant, is a launch state (rule R282: `Written` empty, no mark set)
and is not final. Its other values are the model's choice (log entries 3 to 5). -/
def Obligations.ResetIsALaunch : Prop :=
  stateInv State.reset = true ∧ isLaunch State.reset = true ∧ isFinal State.reset = false

/-- The steps over single rows refine rule R213's step over a whole instruction (log entry 1): from any
state with no prefix byte remembered, one to five steps end exactly as `instructionStep` does, with the
same next state, the same fault or the same refusal. -/
def Obligations.StepsRefineInstructionStep : Prop :=
  ∀ s : State, s.pending = PrefixSet.empty →
    ∃ n, 1 ≤ n ∧ n ≤ 5 ∧ Host.Core.run Sys2Proof.core n s = instructionStep s

/-- "A run that never reaches `EndPc` and never sets a mark does not exist for the admitted instruction set"
(rule R289): from every state, within 5 times 2^32 steps, the run is over or a mark is set. The count is of
the model's own steps, in which a prefix byte is a step (log entry 1) and a stop sets its mark in one step
(log entry 35): it is the model's choice. -/
def Obligations.EveryRunEnds : Prop :=
  ∀ s : State, ∃ n, n ≤ 5 * 2 ^ 32 ∧ (isFinal (advanceN n s) = true ∨ isMarked (advanceN n s) = true)

/-- A step depends on no register, and on memory only through the one byte it fetches, the byte after the
prefix bytes remembered (rules R66, R77; that a step fetches one byte is the model's choice, log entry 1):
a state with other registers and other memory that answers the same fetch takes the same step, its own
registers and memory unchanged, or stops with the same fault or the same refusal. -/
def Obligations.StepIgnoresRegistersAndOtherMemory : Prop :=
  ∀ (s : State) (regs : GprFile) (mem : List Host.Cell),
    fetchByte { s with regs := regs, mem := mem } s.pending.count = fetchByte s s.pending.count →
    (∀ t, step s = .next t →
      step { s with regs := regs, mem := mem } = .next { t with regs := regs, mem := mem }) ∧
    (∀ f, step s = .fault f → step { s with regs := regs, mem := mem } = .fault f) ∧
    (∀ r, step s = .refused r → step { s with regs := regs, mem := mem } = .refused r)
end

