-- ==== Sys2Proof/Laws/Decode.lean ====
section
/-! SUPPORT. Small lemmas of the decoder and the encoders. -/

namespace Sys2Proof

@[simp] theorem leBytes_length (n v : Nat) : (leBytes n v).length = n := by
  induction n generalizing v with
  | zero => rfl
  | succ n ih => simp [leBytes, ih]

/-- Assembling the bytes of a value gives it back, cut to their number. -/
theorem leValue_leBytes (n v : Nat) : leValue (leBytes n v) = v % 256 ^ n := by
  induction n generalizing v with
  | zero => simp [leBytes, leValue, Nat.mod_one]
  | succ n ih =>
    simp only [leBytes, leValue, ih, BitVec.toNat_ofNat]
    rw [show (2 : Nat) ^ 8 = 256 from rfl, Nat.pow_succ, Nat.mul_comm (256 ^ n), Nat.mod_mul]

theorem leValue_lt (bs : List Byte) : leValue bs < 256 ^ bs.length := by
  induction bs with
  | nil => simp [leValue]
  | cons b bs ih =>
    simp only [leValue, List.length_cons, Nat.pow_succ]
    have := b.isLt
    omega

/-- The eleven prefix bytes read back as themselves. -/
theorem PrefixByte.ofByte_toByte (x : PrefixByte) : PrefixByte.ofByte x.toByte = some x := by
  rcases x with b | _ | _ | r
  · cases b <;> rfl
  · rfl
  · rfl
  · cases r <;> rfl

@[simp] theorem PrefixSet.bytes_length (p : PrefixSet) : p.bytes.length = p.count := by
  rcases p with ⟨_ | _, _ | _, _ | _, _ | _⟩ <;> rfl

theorem AddrSpec.bytes_length (a : AddrSpec) : a.bytes.length = a.length := by
  rcases a with ⟨m, _ | s, d⟩ <;> simp [AddrSpec.bytes, AddrSpec.length] <;> omega

@[simp] theorem addrBytes_length (a : Option AddrSpec) : (addrBytes a).length = addrLength a := by
  cases a with
  | none => rfl
  | some a => exact a.bytes_length

end Sys2Proof
end

