-- ==== Sys2Proof/Laws/Memory.lean ====
section
/-! SUPPORT. Memory and the set `Written`: read after write, frames, and the canonical forms kept by every
operation. -/

namespace Sys2Proof.Machine

/-! ## One byte -/

theorem Memory.read_eq_of_lt {lo : Nat} {m : List Host.Cell} (h : Memory.wfFrom lo m = true) {a : Nat}
    (ha : a < lo) : Memory.read m a = unlistedByte := by
  induction m generalizing lo with
  | nil => rfl
  | cons c m ih =>
    obtain ⟨b, v⟩ := c
    simp only [Memory.wfFrom, Bool.and_eq_true, decide_eq_true_eq] at h
    obtain ⟨⟨⟨hb, -⟩, -⟩, hm⟩ := h
    have : a ≠ b := by omega
    simp only [Memory.read, this, if_false]
    exact ih hm (by omega)

theorem Memory.read_write_of_wfFrom {lo : Nat} {m : List Host.Cell} (h : Memory.wfFrom lo m = true)
    (a : Nat) (v : Byte) : Memory.read (Memory.write m a v) a = v := by
  induction m generalizing lo with
  | nil => unfold Memory.write; split <;> simp_all [Memory.read]
  | cons c m ih =>
    obtain ⟨b, w⟩ := c
    simp only [Memory.wfFrom, Bool.and_eq_true, decide_eq_true_eq] at h
    obtain ⟨-, hm⟩ := h
    unfold Memory.write
    split
    · rename_i hab
      split
      · rename_i hv
        have : a ≠ b := by omega
        simp only [Memory.read, this, if_false, hv]
        exact Memory.read_eq_of_lt hm (by omega)
      · simp [Memory.read]
    · split
      · rename_i hab
        subst hab
        split
        · rename_i hv
          rw [hv]
          exact Memory.read_eq_of_lt hm (by omega)
        · simp [Memory.read]
      · rename_i hab
        simp only [Memory.read, hab, if_false]
        exact ih hm

/-- Reading a byte after storing it, in canonical memory. -/
theorem Memory.read_write_same {m : List Host.Cell} (h : Memory.wf m = true) (a : Nat) (v : Byte) :
    Memory.read (Memory.write m a v) a = v :=
  Memory.read_write_of_wfFrom h a v

/-- A store leaves every other byte alone. -/
theorem Memory.read_write_other (m : List Host.Cell) {a x : Nat} (v : Byte) (h : x ≠ a) :
    Memory.read (Memory.write m a v) x = Memory.read m x := by
  induction m with
  | nil => unfold Memory.write; split <;> simp [Memory.read, h]
  | cons c m ih =>
    obtain ⟨b, w⟩ := c
    unfold Memory.write
    split
    · split <;> simp [Memory.read, h]
    · split
      · rename_i hab
        subst hab
        split <;> simp [Memory.read, h]
      · simp only [Memory.read, ih]

/-! ## The canonical form of memory -/

theorem Memory.wfFrom_mono {lo lo' : Nat} {m : List Host.Cell} (h : Memory.wfFrom lo m = true)
    (hl : lo' ≤ lo) : Memory.wfFrom lo' m = true := by
  cases m with
  | nil => rfl
  | cons c m =>
    simp only [Memory.wfFrom, Bool.and_eq_true, decide_eq_true_eq] at h ⊢
    obtain ⟨⟨⟨h1, h2⟩, h3⟩, h4⟩ := h
    exact ⟨⟨⟨by omega, h2⟩, h3⟩, h4⟩

theorem Memory.wfFrom_write {lo : Nat} {m : List Host.Cell} (h : Memory.wfFrom lo m = true) {a : Nat}
    (v : Byte) (hlo : lo ≤ a) (ha : a < linearSize) : Memory.wfFrom lo (Memory.write m a v) = true := by
  induction m generalizing lo with
  | nil =>
    unfold Memory.write
    split
    · rfl
    · rename_i hv
      simp [Memory.wfFrom, hlo, ha, hv]
  | cons c m ih =>
    obtain ⟨b, w⟩ := c
    have h' := h
    simp only [Memory.wfFrom, Bool.and_eq_true, decide_eq_true_eq] at h
    obtain ⟨⟨⟨h1, h2⟩, h3⟩, h4⟩ := h
    unfold Memory.write
    split
    · split
      · exact h'
      · rename_i hab hv
        simp only [Memory.wfFrom, Bool.and_eq_true, decide_eq_true_eq]
        exact ⟨⟨⟨hlo, ha⟩, hv⟩, ⟨⟨by omega, h2⟩, h3⟩, h4⟩
    · split
      · rename_i hab
        subst hab
        split
        · exact Memory.wfFrom_mono h4 (by omega)
        · rename_i hv
          simp only [Memory.wfFrom, Bool.and_eq_true, decide_eq_true_eq]
          exact ⟨⟨⟨hlo, ha⟩, hv⟩, h4⟩
      · rename_i hab hne
        simp only [Memory.wfFrom, Bool.and_eq_true, decide_eq_true_eq]
        exact ⟨⟨⟨h1, h2⟩, h3⟩, ih h4 (by omega)⟩

/-- A store inside the linear space keeps the canonical form. -/
theorem Memory.wf_write {m : List Host.Cell} (h : Memory.wf m = true) {a : Nat} (v : Byte)
    (ha : a < linearSize) : Memory.wf (Memory.write m a v) = true :=
  Memory.wfFrom_write h v (Nat.zero_le a) ha

/-- Stores inside the linear space keep the canonical form. -/
theorem Memory.wf_writeAll {m : List Host.Cell} (h : Memory.wf m = true) {a : Nat} (bs : List Byte)
    (ha : a + bs.length ≤ linearSize) : Memory.wf (Memory.writeAll m a bs) = true := by
  induction bs generalizing m a with
  | nil => exact h
  | cons b bs ih =>
    simp only [List.length_cons] at ha
    exact ih (Memory.wf_write h b (by omega)) (by omega)

/-! ## Several bytes -/

/-- Stores of several bytes leave every byte outside them alone. -/
theorem Memory.read_writeAll_outside (m : List Host.Cell) {a x : Nat} (bs : List Byte)
    (h : x < a ∨ a + bs.length ≤ x) : Memory.read (Memory.writeAll m a bs) x = Memory.read m x := by
  induction bs generalizing m a with
  | nil => rfl
  | cons b bs ih =>
    simp only [List.length_cons] at h
    unfold Memory.writeAll
    rw [ih _ (by omega)]
    exact Memory.read_write_other m b (by omega)

/-- Reading several bytes depends on those bytes only. -/
theorem Memory.readAll_congr {m m' : List Host.Cell} {a n : Nat}
    (h : ∀ x, a ≤ x → x < a + n → Memory.read m x = Memory.read m' x) :
    Memory.readAll m a n = Memory.readAll m' a n := by
  induction n generalizing a with
  | zero => rfl
  | succ n ih =>
    simp only [Memory.readAll]
    rw [h a (by omega) (by omega), ih fun x h1 h2 => h x (by omega) (by omega)]

@[simp] theorem Memory.readAll_length (m : List Host.Cell) (a n : Nat) :
    (Memory.readAll m a n).length = n := by
  induction n generalizing a with
  | zero => rfl
  | succ n ih => simp [Memory.readAll, ih]

/-- Reading several bytes after storing them, in canonical memory. -/
theorem Memory.readAll_writeAll {m : List Host.Cell} (h : Memory.wf m = true) {a : Nat} (bs : List Byte)
    (ha : a + bs.length ≤ linearSize) : Memory.readAll (Memory.writeAll m a bs) a bs.length = bs := by
  induction bs generalizing m a with
  | nil => rfl
  | cons b bs ih =>
    simp only [List.length_cons] at ha
    simp only [Memory.writeAll, List.length_cons, Memory.readAll]
    rw [Memory.read_writeAll_outside _ _ (Or.inl (Nat.lt_succ_self a)), Memory.read_write_same h,
      ih (Memory.wf_write h b (by omega)) (by omega)]

/-! ## The set `Written` -/

/-- Membership after one insertion. -/
theorem Written.mem_insert (w : List Nat) (a x : Nat) :
    x ∈ Written.insert w a ↔ x ∈ w ∨ x = a := by
  induction w with
  | nil => simp [Written.insert]
  | cons b w ih =>
    unfold Written.insert
    split
    · simp only [List.mem_cons]; tauto
    · split
      · rename_i hab
        subst hab
        simp only [List.mem_cons]; tauto
      · simp only [List.mem_cons, ih]; tauto

/-- Membership after the insertion of a range. -/
theorem Written.mem_insertAll (w : List Nat) (a n x : Nat) :
    x ∈ Written.insertAll w a n ↔ x ∈ w ∨ (a ≤ x ∧ x < a + n) := by
  induction n generalizing w a with
  | zero =>
    have h : ¬(a ≤ x ∧ x < a + 0) := by omega
    simp only [Written.insertAll, h, or_false]
  | succ n ih =>
    have h : (a ≤ x ∧ x < a + (n + 1)) ↔ x = a ∨ (a + 1 ≤ x ∧ x < a + 1 + n) := by omega
    rw [Written.insertAll, ih, Written.mem_insert, h, or_assoc]

theorem Written.wfFrom_insert {lo : Nat} {w : List Nat} (h : Written.wfFrom lo w = true) {a : Nat}
    (hlo : lo ≤ a) (ha : a < linearSize) : Written.wfFrom lo (Written.insert w a) = true := by
  induction w generalizing lo with
  | nil => simp [Written.insert, Written.wfFrom, hlo, ha]
  | cons b w ih =>
    have h' := h
    simp only [Written.wfFrom, Bool.and_eq_true, decide_eq_true_eq] at h
    obtain ⟨⟨h1, h2⟩, h3⟩ := h
    unfold Written.insert
    split
    · simp only [Written.wfFrom, Bool.and_eq_true, decide_eq_true_eq]
      exact ⟨⟨hlo, ha⟩, ⟨by omega, h2⟩, h3⟩
    · split
      · exact h'
      · simp only [Written.wfFrom, Bool.and_eq_true, decide_eq_true_eq]
        exact ⟨⟨h1, h2⟩, ih h3 (by omega)⟩

/-- Inserting addresses of the linear space keeps the canonical form. -/
theorem Written.wf_insertAll {w : List Nat} (h : Written.wf w = true) {a n : Nat}
    (ha : a + n ≤ linearSize) : Written.wf (Written.insertAll w a n) = true := by
  induction n generalizing w a with
  | zero => exact h
  | succ n ih => exact ih (Written.wfFrom_insert h (Nat.zero_le a) (by omega)) (by omega)

end Sys2Proof.Machine
end

