-- ==== Sys2Proof/Laws/State.lean ====
section
/-! SUPPORT. One lemma per field per update of State, and updates with a field's own value. -/

namespace Sys2Proof.Machine

section
variable (s : State) (v : GprFile)

@[simp] theorem State.setRegs_regs : (s.setRegs v).regs = v := rfl
@[simp] theorem State.setRegs_pc : (s.setRegs v).pc = s.pc := rfl
@[simp] theorem State.setRegs_cf : (s.setRegs v).cf = s.cf := rfl
@[simp] theorem State.setRegs_otherFlags : (s.setRegs v).otherFlags = s.otherFlags := rfl
@[simp] theorem State.setRegs_sregs : (s.setRegs v).sregs = s.sregs := rfl
@[simp] theorem State.setRegs_gdtr : (s.setRegs v).gdtr = s.gdtr := rfl
@[simp] theorem State.setRegs_idtr : (s.setRegs v).idtr = s.idtr := rfl
@[simp] theorem State.setRegs_mem : (s.setRegs v).mem = s.mem := rfl
@[simp] theorem State.setRegs_written : (s.setRegs v).written = s.written := rfl
@[simp] theorem State.setRegs_faultMark : (s.setRegs v).faultMark = s.faultMark := rfl
@[simp] theorem State.setRegs_refusedMark : (s.setRegs v).refusedMark = s.refusedMark := rfl
@[simp] theorem State.setRegs_pending : (s.setRegs v).pending = s.pending := rfl
@[simp] theorem State.setRegs_draws : (s.setRegs v).draws = s.draws := rfl
@[simp] theorem State.setRegs_params : (s.setRegs v).params = s.params := rfl
@[simp] theorem State.setRegs_self : s.setRegs s.regs = s := rfl

end

section
variable (s : State) (v : DWord)

@[simp] theorem State.setPc_regs : (s.setPc v).regs = s.regs := rfl
@[simp] theorem State.setPc_pc : (s.setPc v).pc = v := rfl
@[simp] theorem State.setPc_cf : (s.setPc v).cf = s.cf := rfl
@[simp] theorem State.setPc_otherFlags : (s.setPc v).otherFlags = s.otherFlags := rfl
@[simp] theorem State.setPc_sregs : (s.setPc v).sregs = s.sregs := rfl
@[simp] theorem State.setPc_gdtr : (s.setPc v).gdtr = s.gdtr := rfl
@[simp] theorem State.setPc_idtr : (s.setPc v).idtr = s.idtr := rfl
@[simp] theorem State.setPc_mem : (s.setPc v).mem = s.mem := rfl
@[simp] theorem State.setPc_written : (s.setPc v).written = s.written := rfl
@[simp] theorem State.setPc_faultMark : (s.setPc v).faultMark = s.faultMark := rfl
@[simp] theorem State.setPc_refusedMark : (s.setPc v).refusedMark = s.refusedMark := rfl
@[simp] theorem State.setPc_pending : (s.setPc v).pending = s.pending := rfl
@[simp] theorem State.setPc_draws : (s.setPc v).draws = s.draws := rfl
@[simp] theorem State.setPc_params : (s.setPc v).params = s.params := rfl
@[simp] theorem State.setPc_self : s.setPc s.pc = s := rfl

end

section
variable (s : State) (v : Bool)

@[simp] theorem State.setCf_regs : (s.setCf v).regs = s.regs := rfl
@[simp] theorem State.setCf_pc : (s.setCf v).pc = s.pc := rfl
@[simp] theorem State.setCf_cf : (s.setCf v).cf = v := rfl
@[simp] theorem State.setCf_otherFlags : (s.setCf v).otherFlags = s.otherFlags := rfl
@[simp] theorem State.setCf_sregs : (s.setCf v).sregs = s.sregs := rfl
@[simp] theorem State.setCf_gdtr : (s.setCf v).gdtr = s.gdtr := rfl
@[simp] theorem State.setCf_idtr : (s.setCf v).idtr = s.idtr := rfl
@[simp] theorem State.setCf_mem : (s.setCf v).mem = s.mem := rfl
@[simp] theorem State.setCf_written : (s.setCf v).written = s.written := rfl
@[simp] theorem State.setCf_faultMark : (s.setCf v).faultMark = s.faultMark := rfl
@[simp] theorem State.setCf_refusedMark : (s.setCf v).refusedMark = s.refusedMark := rfl
@[simp] theorem State.setCf_pending : (s.setCf v).pending = s.pending := rfl
@[simp] theorem State.setCf_draws : (s.setCf v).draws = s.draws := rfl
@[simp] theorem State.setCf_params : (s.setCf v).params = s.params := rfl
@[simp] theorem State.setCf_self : s.setCf s.cf = s := rfl

end

section
variable (s : State) (v : List Host.Cell)

@[simp] theorem State.setMem_regs : (s.setMem v).regs = s.regs := rfl
@[simp] theorem State.setMem_pc : (s.setMem v).pc = s.pc := rfl
@[simp] theorem State.setMem_cf : (s.setMem v).cf = s.cf := rfl
@[simp] theorem State.setMem_otherFlags : (s.setMem v).otherFlags = s.otherFlags := rfl
@[simp] theorem State.setMem_sregs : (s.setMem v).sregs = s.sregs := rfl
@[simp] theorem State.setMem_gdtr : (s.setMem v).gdtr = s.gdtr := rfl
@[simp] theorem State.setMem_idtr : (s.setMem v).idtr = s.idtr := rfl
@[simp] theorem State.setMem_mem : (s.setMem v).mem = v := rfl
@[simp] theorem State.setMem_written : (s.setMem v).written = s.written := rfl
@[simp] theorem State.setMem_faultMark : (s.setMem v).faultMark = s.faultMark := rfl
@[simp] theorem State.setMem_refusedMark : (s.setMem v).refusedMark = s.refusedMark := rfl
@[simp] theorem State.setMem_pending : (s.setMem v).pending = s.pending := rfl
@[simp] theorem State.setMem_draws : (s.setMem v).draws = s.draws := rfl
@[simp] theorem State.setMem_params : (s.setMem v).params = s.params := rfl
@[simp] theorem State.setMem_self : s.setMem s.mem = s := rfl

end

section
variable (s : State) (v : List Nat)

@[simp] theorem State.setWritten_regs : (s.setWritten v).regs = s.regs := rfl
@[simp] theorem State.setWritten_pc : (s.setWritten v).pc = s.pc := rfl
@[simp] theorem State.setWritten_cf : (s.setWritten v).cf = s.cf := rfl
@[simp] theorem State.setWritten_otherFlags : (s.setWritten v).otherFlags = s.otherFlags := rfl
@[simp] theorem State.setWritten_sregs : (s.setWritten v).sregs = s.sregs := rfl
@[simp] theorem State.setWritten_gdtr : (s.setWritten v).gdtr = s.gdtr := rfl
@[simp] theorem State.setWritten_idtr : (s.setWritten v).idtr = s.idtr := rfl
@[simp] theorem State.setWritten_mem : (s.setWritten v).mem = s.mem := rfl
@[simp] theorem State.setWritten_written : (s.setWritten v).written = v := rfl
@[simp] theorem State.setWritten_faultMark : (s.setWritten v).faultMark = s.faultMark := rfl
@[simp] theorem State.setWritten_refusedMark : (s.setWritten v).refusedMark = s.refusedMark := rfl
@[simp] theorem State.setWritten_pending : (s.setWritten v).pending = s.pending := rfl
@[simp] theorem State.setWritten_draws : (s.setWritten v).draws = s.draws := rfl
@[simp] theorem State.setWritten_params : (s.setWritten v).params = s.params := rfl
@[simp] theorem State.setWritten_self : s.setWritten s.written = s := rfl

end

section
variable (s : State) (v : PrefixSet)

@[simp] theorem State.setPending_regs : (s.setPending v).regs = s.regs := rfl
@[simp] theorem State.setPending_pc : (s.setPending v).pc = s.pc := rfl
@[simp] theorem State.setPending_cf : (s.setPending v).cf = s.cf := rfl
@[simp] theorem State.setPending_otherFlags : (s.setPending v).otherFlags = s.otherFlags := rfl
@[simp] theorem State.setPending_sregs : (s.setPending v).sregs = s.sregs := rfl
@[simp] theorem State.setPending_gdtr : (s.setPending v).gdtr = s.gdtr := rfl
@[simp] theorem State.setPending_idtr : (s.setPending v).idtr = s.idtr := rfl
@[simp] theorem State.setPending_mem : (s.setPending v).mem = s.mem := rfl
@[simp] theorem State.setPending_written : (s.setPending v).written = s.written := rfl
@[simp] theorem State.setPending_faultMark : (s.setPending v).faultMark = s.faultMark := rfl
@[simp] theorem State.setPending_refusedMark : (s.setPending v).refusedMark = s.refusedMark := rfl
@[simp] theorem State.setPending_pending : (s.setPending v).pending = v := rfl
@[simp] theorem State.setPending_draws : (s.setPending v).draws = s.draws := rfl
@[simp] theorem State.setPending_params : (s.setPending v).params = s.params := rfl
@[simp] theorem State.setPending_self : s.setPending s.pending = s := rfl

end

section
variable (s : State) (v : Nat)

@[simp] theorem State.setDraws_regs : (s.setDraws v).regs = s.regs := rfl
@[simp] theorem State.setDraws_pc : (s.setDraws v).pc = s.pc := rfl
@[simp] theorem State.setDraws_cf : (s.setDraws v).cf = s.cf := rfl
@[simp] theorem State.setDraws_otherFlags : (s.setDraws v).otherFlags = s.otherFlags := rfl
@[simp] theorem State.setDraws_sregs : (s.setDraws v).sregs = s.sregs := rfl
@[simp] theorem State.setDraws_gdtr : (s.setDraws v).gdtr = s.gdtr := rfl
@[simp] theorem State.setDraws_idtr : (s.setDraws v).idtr = s.idtr := rfl
@[simp] theorem State.setDraws_mem : (s.setDraws v).mem = s.mem := rfl
@[simp] theorem State.setDraws_written : (s.setDraws v).written = s.written := rfl
@[simp] theorem State.setDraws_faultMark : (s.setDraws v).faultMark = s.faultMark := rfl
@[simp] theorem State.setDraws_refusedMark : (s.setDraws v).refusedMark = s.refusedMark := rfl
@[simp] theorem State.setDraws_pending : (s.setDraws v).pending = s.pending := rfl
@[simp] theorem State.setDraws_draws : (s.setDraws v).draws = v := rfl
@[simp] theorem State.setDraws_params : (s.setDraws v).params = s.params := rfl
@[simp] theorem State.setDraws_self : s.setDraws s.draws = s := rfl

end

section
variable (s : State) (v : Option Fault)

@[simp] theorem State.setFaultMark_regs : (s.setFaultMark v).regs = s.regs := rfl
@[simp] theorem State.setFaultMark_pc : (s.setFaultMark v).pc = s.pc := rfl
@[simp] theorem State.setFaultMark_cf : (s.setFaultMark v).cf = s.cf := rfl
@[simp] theorem State.setFaultMark_otherFlags : (s.setFaultMark v).otherFlags = s.otherFlags := rfl
@[simp] theorem State.setFaultMark_sregs : (s.setFaultMark v).sregs = s.sregs := rfl
@[simp] theorem State.setFaultMark_gdtr : (s.setFaultMark v).gdtr = s.gdtr := rfl
@[simp] theorem State.setFaultMark_idtr : (s.setFaultMark v).idtr = s.idtr := rfl
@[simp] theorem State.setFaultMark_mem : (s.setFaultMark v).mem = s.mem := rfl
@[simp] theorem State.setFaultMark_written : (s.setFaultMark v).written = s.written := rfl
@[simp] theorem State.setFaultMark_faultMark : (s.setFaultMark v).faultMark = v := rfl
@[simp] theorem State.setFaultMark_refusedMark : (s.setFaultMark v).refusedMark = s.refusedMark := rfl
@[simp] theorem State.setFaultMark_pending : (s.setFaultMark v).pending = s.pending := rfl
@[simp] theorem State.setFaultMark_draws : (s.setFaultMark v).draws = s.draws := rfl
@[simp] theorem State.setFaultMark_params : (s.setFaultMark v).params = s.params := rfl
@[simp] theorem State.setFaultMark_self : s.setFaultMark s.faultMark = s := rfl

end

section
variable (s : State) (v : Option Refusal)

@[simp] theorem State.setRefusedMark_regs : (s.setRefusedMark v).regs = s.regs := rfl
@[simp] theorem State.setRefusedMark_pc : (s.setRefusedMark v).pc = s.pc := rfl
@[simp] theorem State.setRefusedMark_cf : (s.setRefusedMark v).cf = s.cf := rfl
@[simp] theorem State.setRefusedMark_otherFlags : (s.setRefusedMark v).otherFlags = s.otherFlags := rfl
@[simp] theorem State.setRefusedMark_sregs : (s.setRefusedMark v).sregs = s.sregs := rfl
@[simp] theorem State.setRefusedMark_gdtr : (s.setRefusedMark v).gdtr = s.gdtr := rfl
@[simp] theorem State.setRefusedMark_idtr : (s.setRefusedMark v).idtr = s.idtr := rfl
@[simp] theorem State.setRefusedMark_mem : (s.setRefusedMark v).mem = s.mem := rfl
@[simp] theorem State.setRefusedMark_written : (s.setRefusedMark v).written = s.written := rfl
@[simp] theorem State.setRefusedMark_faultMark : (s.setRefusedMark v).faultMark = s.faultMark := rfl
@[simp] theorem State.setRefusedMark_refusedMark : (s.setRefusedMark v).refusedMark = v := rfl
@[simp] theorem State.setRefusedMark_pending : (s.setRefusedMark v).pending = s.pending := rfl
@[simp] theorem State.setRefusedMark_draws : (s.setRefusedMark v).draws = s.draws := rfl
@[simp] theorem State.setRefusedMark_params : (s.setRefusedMark v).params = s.params := rfl
@[simp] theorem State.setRefusedMark_self : s.setRefusedMark s.refusedMark = s := rfl

end

section
variable (s : State) (v : Params)

@[simp] theorem State.setParams_regs : (s.setParams v).regs = s.regs := rfl
@[simp] theorem State.setParams_pc : (s.setParams v).pc = s.pc := rfl
@[simp] theorem State.setParams_cf : (s.setParams v).cf = s.cf := rfl
@[simp] theorem State.setParams_otherFlags : (s.setParams v).otherFlags = s.otherFlags := rfl
@[simp] theorem State.setParams_sregs : (s.setParams v).sregs = s.sregs := rfl
@[simp] theorem State.setParams_gdtr : (s.setParams v).gdtr = s.gdtr := rfl
@[simp] theorem State.setParams_idtr : (s.setParams v).idtr = s.idtr := rfl
@[simp] theorem State.setParams_mem : (s.setParams v).mem = s.mem := rfl
@[simp] theorem State.setParams_written : (s.setParams v).written = s.written := rfl
@[simp] theorem State.setParams_faultMark : (s.setParams v).faultMark = s.faultMark := rfl
@[simp] theorem State.setParams_refusedMark : (s.setParams v).refusedMark = s.refusedMark := rfl
@[simp] theorem State.setParams_pending : (s.setParams v).pending = s.pending := rfl
@[simp] theorem State.setParams_draws : (s.setParams v).draws = s.draws := rfl
@[simp] theorem State.setParams_params : (s.setParams v).params = v := rfl
@[simp] theorem State.setParams_self : s.setParams s.params = s := rfl

end

end Sys2Proof.Machine
end

