-- ==== Sys2Proof/Laws/Ops.lean ====
section
/-! SUPPORT. One lemma per shared operation that says once everything it can do. -/

namespace Sys2Proof.Machine

/-! ## Computations that may stop -/

/-- A sequence succeeds exactly when both parts do. -/
theorem bind_eq_ok {ε α β : Type} {x : Except ε α} {f : α → Except ε β} {b : β} :
    (x >>= f) = .ok b ↔ ∃ a, x = .ok a ∧ f a = .ok b := by
  cases x <;> simp [bind, Except.bind]

/-- A sequence stops exactly when its first part does, or its second part after it. -/
theorem bind_eq_error {ε α β : Type} {x : Except ε α} {f : α → Except ε β} {e : ε} :
    (x >>= f) = .error e ↔ x = .error e ∨ ∃ a, x = .ok a ∧ f a = .error e := by
  cases x <;> simp [bind, Except.bind]

@[simp] theorem pure_eq_ok {ε α : Type} (a : α) : (pure a : Except ε α) = .ok a := rfl

@[simp] theorem outcome_eq_next {r : Result State} {t : State} : r.outcome = .next t ↔ r = .ok t := by
  unfold Result.outcome
  split <;> simp

@[simp] theorem outcome_eq_fault {r : Result State} {f : Fault} :
    r.outcome = .fault f ↔ r = .error (.fault f) := by
  unfold Result.outcome
  split <;> simp

@[simp] theorem outcome_eq_refused {r : Result State} {x : Refusal} :
    r.outcome = .refused x ↔ r = .error (.refuse x) := by
  unfold Result.outcome
  split <;> simp

@[simp] theorem refuse_ne_ok {α : Type} (r : Refusal) (a : α) : (refuse r : Result α) ≠ .ok a := by
  simp [refuse]

@[simp] theorem raise_ne_ok {α : Type} (s : State) (x : ExcName) (c : Option Nat) (a : α) :
    (raise s x c : Result α) ≠ .ok a := by
  simp [raise]

/-! ## Lin, memory and fetch -/

/-- `Lin` answers a linear address exactly when the oracle does. -/
theorem lin_eq_ok {s : State} {seg : SegReg} {off : DWord} {k : AccessKind} {n : Nat} {a : DWord} :
    lin s seg off k n = .ok a ↔ linAnswer s.params.lin seg off k n = .linear a := by
  unfold lin
  split <;> simp_all

/-- `Lin` stops only by the exception the oracle raises. -/
theorem lin_eq_error {s : State} {seg : SegReg} {off : DWord} {k : AccessKind} {n : Nat} {e : Stop} :
    lin s seg off k n = .error e ↔
      ∃ x c, linAnswer s.params.lin seg off k n = .raise x c ∧
        e = .fault (.exception x (excNumber x) c s.pc) := by
  unfold lin
  split
  · simp_all
  · rename_i x c h
    simp only [raise, h, Except.error.injEq, LinResult.raise.injEq]
    constructor
    · rintro rfl; exact ⟨x, c, ⟨rfl, rfl⟩, rfl⟩
    · rintro ⟨x', c', ⟨rfl, rfl⟩, rfl⟩; rfl

/-- `Lin` reads only the oracle. -/
theorem lin_ok_congr {s t : State} (h : t.params = s.params) {seg : SegReg} {off : DWord}
    {k : AccessKind} {n : Nat} {a : DWord} :
    lin t seg off k n = .ok a ↔ lin s seg off k n = .ok a := by
  simp only [lin_eq_ok, h]

theorem memReadBytes_eq_ok {s : State} {a : DWord} {n : Nat} {bs : List Byte} :
    memReadBytes s a n = .ok bs ↔ a.toNat + n ≤ linearSize ∧ bs = Memory.readAll s.mem a.toNat n := by
  unfold memReadBytes
  split
  · simp only [refuse_ne_ok, false_iff]; omega
  · rename_i h
    simp only [Except.ok.injEq]
    exact ⟨fun e => ⟨by omega, e.symm⟩, fun e => e.2.symm⟩

theorem memRead_eq_ok {s : State} {a : DWord} {n v : Nat} :
    memRead s a n = .ok v ↔
      a.toNat + n ≤ linearSize ∧ v = leValue (Memory.readAll s.mem a.toNat n) := by
  unfold memRead
  split
  · rename_i bs h
    rw [memReadBytes_eq_ok] at h
    simp only [Except.ok.injEq, h.2]
    exact ⟨fun e => ⟨h.1, e.symm⟩, fun e => e.2.symm⟩
  · rename_i e h
    refine ⟨fun h' => by simp at h', fun h' => ?_⟩
    have := (memReadBytes_eq_ok (s := s) (a := a) (n := n)).2 ⟨h'.1, rfl⟩
    simp [this] at h

/-- Everything `MemWrite` can do when it succeeds. -/
theorem memWrite_eq_ok {s t : State} {a : DWord} {n v : Nat} :
    memWrite s a n v = .ok t ↔
      a.toNat + n ≤ linearSize ∧
        t = (s.setMem (Memory.writeAll s.mem a.toNat (leBytes n v))).setWritten
          (Written.insertAll s.written a.toNat n) := by
  unfold memWrite
  split
  · simp only [refuse_ne_ok, false_iff]; omega
  · rename_i h
    simp only [Except.ok.injEq]
    exact ⟨fun e => ⟨by omega, e.symm⟩, fun e => e.2.symm⟩

theorem fetchByte_eq_ok {s : State} {k : Nat} {b : Byte} :
    fetchByte s k = .ok b ↔
      ∃ a, lin s .cs (s.pc + BitVec.ofNat 32 k) .fetch 1 = .ok a ∧ a.toNat ∉ s.written ∧
        b = Memory.read s.mem a.toNat := by
  unfold fetchByte
  split
  · rename_i e h
    simp [h]
  · rename_i a h
    split
    · rename_i hw
      simp only [List.contains_iff_mem] at hw
      simp [h, hw]
    · rename_i hw
      simp only [List.contains_iff_mem] at hw
      simp only [h, Except.ok.injEq]
      constructor
      · intro e; exact ⟨a, rfl, hw, e.symm⟩
      · rintro ⟨a', rfl, -, rfl⟩; rfl

/-- The fetch does not look at the remembered prefix bytes. -/
@[simp] theorem fetchByte_setPending (s : State) (p : PrefixSet) :
    fetchByte (s.setPending p) = fetchByte s := rfl

/-! ## The end of an instruction and the bytes before one -/

theorem endOffset_eq_ok {s : State} {n : Nat} {e : DWord} :
    endOffset s n = .ok e ↔ s.pc.toNat + n < 2 ^ 32 ∧ e = s.pc + BitVec.ofNat 32 n := by
  unfold endOffset
  split
  · simp only [refuse_ne_ok, false_iff]; omega
  · rename_i h
    simp only [Except.ok.injEq]
    exact ⟨fun h' => ⟨by omega, h'.symm⟩, fun h' => h'.2.symm⟩

/-- The end of an instruction stops in one way only. -/
theorem endOffset_eq_error {s : State} {n : Nat} {x : Stop} :
    endOffset s n = .error x ↔ 2 ^ 32 ≤ s.pc.toNat + n ∧ x = .refuse .pcWrap := by
  unfold endOffset
  split <;> simp_all [refuse, eq_comm]

theorem endInstruction_eq_ok {s t : State} {n : Nat} :
    endInstruction s n = .ok t ↔
      s.pc.toNat + n < 2 ^ 32 ∧
        t = (s.setPc (s.pc + BitVec.ofNat 32 n)).setPending PrefixSet.empty := by
  simp only [endInstruction, bind_eq_ok, endOffset_eq_ok, pure_eq_ok, Except.ok.injEq]
  constructor
  · rintro ⟨e, ⟨h, rfl⟩, rfl⟩
    exact ⟨h, rfl⟩
  · rintro ⟨h, rfl⟩
    exact ⟨_, ⟨h, rfl⟩, rfl⟩

theorem rememberPrefix_eq_ok {x : PrefixByte} {s t : State} :
    rememberPrefix x s = .ok t ↔ ∃ p, s.pending.add x = some p ∧ t = s.setPending p := by
  unfold rememberPrefix
  split
  · rename_i p h
    simp [h, eq_comm]
  · rename_i h
    simp [h]

theorem PrefixSet.count_le (p : PrefixSet) : p.count ≤ 4 := by
  rcases p with ⟨_ | _, _ | _, _ | _, _ | _⟩ <;> simp [PrefixSet.count]

/-- Remembering a byte adds one to the count. -/
theorem PrefixSet.count_add {p q : PrefixSet} {x : PrefixByte} (h : p.add x = some q) :
    q.count = p.count + 1 := by
  rcases p with ⟨a, b, c, d⟩
  cases x <;> simp only [PrefixSet.add, Option.ite_none_left_eq_some, Option.some.injEq] at h <;>
    obtain ⟨h, rfl⟩ := h <;> simp_all [PrefixSet.count] <;> omega

theorem PrefixSet.count_eq_zero {p : PrefixSet} : p.count = 0 ↔ p = PrefixSet.empty := by
  rcases p with ⟨_ | _, _ | _, _ | _, _ | _⟩ <;> simp [PrefixSet.count, PrefixSet.empty]

theorem checkCmcPrefixes_eq_ok {p : PrefixSet} {u : Unit} :
    checkCmcPrefixes p = .ok u ↔ p = PrefixSet.empty := by
  unfold checkCmcPrefixes
  rw [bind_eq_ok]
  constructor
  · rintro ⟨-, -, h⟩
    split at h
    · assumption
    · simp at h
  · rintro rfl
    exact ⟨(), rfl, by simp⟩

/-- Everything CMC can do when it completes. -/
theorem runCmc_eq_ok {s t : State} :
    runCmc s = .ok t ↔
      s.pending = PrefixSet.empty ∧ s.pc.toNat + 1 < 2 ^ 32 ∧ t = (s.setPc (s.pc + 1)).setCf (!s.cf) := by
  unfold runCmc
  simp only [bind_eq_ok, checkCmcPrefixes_eq_ok, endInstruction_eq_ok, pure_eq_ok, Except.ok.injEq]
  constructor
  · rintro ⟨-, hp, t', ⟨hpc, rfl⟩, rfl⟩
    refine ⟨hp, hpc, ?_⟩
    cases s
    simp_all [complementCarry, State.setPc, State.setPending, State.setCf]
  · rintro ⟨hp, hpc, rfl⟩
    refine ⟨(), hp, _, ⟨hpc, rfl⟩, ?_⟩
    cases s
    simp_all [complementCarry, State.setPc, State.setPending, State.setCf]

/-! ## The stack -/

/-- Everything Push can do when it succeeds. -/
theorem push_eq_ok {os : Size} {v : BitVec os.width} {s t : State} :
    push os v s = .ok t ↔
      stackItemWraps s (pushPointer s os) os.bytes = false ∧
        ∃ a u, lin s .ss (pushPointer s os) .write os.bytes = .ok a ∧
          memWrite s a os.bytes v.toNat = .ok u ∧ t = setStackPointer u (pushPointer s os) := by
  unfold push
  by_cases h : stackItemWraps s (pushPointer s os) os.bytes = true
  · simp [h]
  · simp only [h, Bool.false_eq_true, if_false, bind_eq_ok, pure_eq_ok, Except.ok.injEq]
    constructor
    · rintro ⟨a, ha, u, hu, rfl⟩; exact ⟨by simp, a, u, ha, hu, rfl⟩
    · rintro ⟨-, a, u, ha, hu, rfl⟩; exact ⟨a, ha, u, hu, rfl⟩

/-- Everything Pop can do when it succeeds. -/
theorem pop_eq_ok {os : Size} {v : BitVec os.width} {s t : State} :
    pop os s = .ok (v, t) ↔
      stackItemWraps s (stackPointer s) os.bytes = false ∧
        ∃ a x, lin s .ss (stackPointer s) .read os.bytes = .ok a ∧
          memRead s a os.bytes = .ok x ∧ v = BitVec.ofNat os.width x ∧
            t = setStackPointer s (popPointer s os) := by
  unfold pop
  by_cases h : stackItemWraps s (stackPointer s) os.bytes = true
  · simp [h]
  · simp only [h, Bool.false_eq_true, if_false, bind_eq_ok, pure_eq_ok, Except.ok.injEq, Prod.mk.injEq]
    constructor
    · rintro ⟨a, ha, x, hx, rfl, rfl⟩; exact ⟨by simp, a, x, ha, hx, rfl, rfl⟩
    · rintro ⟨-, a, x, ha, hx, rfl, rfl⟩; exact ⟨a, ha, x, hx, rfl, rfl⟩

/-- Setting the stack pointer touches the register file only. -/
theorem setStackPointer_eq (s : State) (v : DWord) :
    ∃ f, setStackPointer s v = s.setRegs f := by
  unfold setStackPointer
  split <;> exact ⟨_, rfl⟩

end Sys2Proof.Machine
end

