-- ==== Sys2Proof/Laws/Operands.lean ====
section
/-! SUPPORT. What reading and writing an operand, a bit and an I/O permission can do. -/

namespace Sys2Proof.Machine

theorem readMemOperand_eq_ok {s : State} {seg : SegReg} {ea : DWord} {n : Nat} {bs : List Byte} :
    readMemOperand s seg ea n = .ok bs ↔
      ∃ a, lin s seg ea .read n = .ok a ∧ a.toNat + n ≤ linearSize ∧
        bs = Memory.readAll s.mem a.toNat n := by
  simp only [readMemOperand, bind_eq_ok, memReadBytes_eq_ok]

@[simp] theorem readLoc_reg (s : State) (w : DataWidth) (r : RegOperand) :
    readLoc s w (.reg r) = .ok (r.read s.regs) := rfl

theorem readLoc_mem_eq_ok {s : State} {w : DataWidth} {seg : SegReg} {ea v : DWord} :
    readLoc s w (.mem seg ea) = .ok v ↔
      ∃ bs, readMemOperand s seg ea w.bytes = .ok bs ∧ v = BitVec.ofNat 32 (leValue bs) := by
  simp only [readLoc, bind_eq_ok, pure_eq_ok, Except.ok.injEq]
  exact exists_congr fun bs => and_congr_right fun _ => eq_comm

@[simp] theorem writeLoc_reg (s : State) (w : DataWidth) (v : DWord) (r : RegOperand) :
    writeLoc s w v (.reg r) = .ok (s.setRegs (r.write v s.regs)) := rfl

theorem writeLoc_mem_eq_ok {s t : State} {w : DataWidth} {seg : SegReg} {ea v : DWord} :
    writeLoc s w v (.mem seg ea) = .ok t ↔
      ∃ a, lin s seg ea .write w.bytes = .ok a ∧ memWrite s a w.bytes v.toNat = .ok t := by
  simp only [writeLoc, bind_eq_ok]

/-- An r/m operand is a register with mod = 11, and memory otherwise. -/
theorem resolveRM_eq_reg {f : GprFile} {size : Size} {a : AddrSpec} {w : DataWidth}
    {o : Option SegReg} (h : modField a.modrm = 3) :
    resolveRM f size a w o = .reg (RegOperand.ofCode w (rmField a.modrm)) := by
  simp [resolveRM, h]

theorem resolveRM_eq_mem {f : GprFile} {size : Size} {a : AddrSpec} {w : DataWidth}
    {o : Option SegReg} (h : modField a.modrm ≠ 3) :
    resolveRM f size a w o = .mem (o.getD (defaultSeg size a)) (effectiveAddress f size a) := by
  rw [resolveRM, if_neg h, effectiveSeg]

theorem bitOfRegister_eq_ok {r : RegOperand} {offset : DWord} {b : BitAddr} :
    bitOfRegister r offset = .ok b ↔
      0 ≤ offset.toInt ∧ offset.toInt < r.bits ∧ b = .inRegister r offset.toInt.toNat := by
  unfold bitOfRegister
  split
  · rename_i h
    simp only [Except.ok.injEq, h, true_and, eq_comm]
  · rename_i h
    simp only [refuse_ne_ok, false_iff]
    tauto

/-- I-O-Permission grants only with a 386 TSS, a limit that covers both bitmap bytes, and every checked bit
0. -/
theorem ioPermission_true {s : State} {a : Word} {w : DataWidth}
    (h : ioPermission s a w = .ok true) :
    s.params.tssType = .t386 ∧ ∃ limit ptr word, s.params.tssLimit = some limit ∧
      memRead s (s.params.tssBase + BitVec.ofNat 32 ioMapBaseOffset) 2 = .ok ptr ∧
      ptr + a.toNat / 8 + 1 ≤ limit ∧
      memRead s (s.params.tssBase + BitVec.ofNat 32 (ptr + a.toNat / 8)) 2 = .ok word ∧
      word &&& (ioBitMask w <<< (a.toNat % 8)) = 0 := by
  unfold ioPermission at h
  split at h
  · simp at h
  · simp at h
  · rename_i limit ht hl
    rw [bind_eq_ok] at h
    obtain ⟨ptr, hp, h⟩ := h
    dsimp only at h
    split at h
    · simp at h
    · rename_i hlim
      rw [bind_eq_ok] at h
      obtain ⟨word, hw, h⟩ := h
      exact ⟨ht, limit, ptr, word, hl, hp, by omega, hw, by simpa using h⟩

end Sys2Proof.Machine
end

