-- ==== Sys2Proof/Laws/PerInstr.lean ====
section
/-! SUPPORT. Per-instruction families: a statement about every row, one lemma per constructor. -/

namespace Sys2Proof.Laws

/-- The encoding of a row is one byte, and it is a prefix byte value exactly when the row is not CMC
(rules R92, R131). -/
def OneByte.Statement (i : Instr) : Prop :=
  ∃ b, encode i = [b] ∧ ((PrefixByte.ofByte b).isSome = true ↔ i ≠ .cmc)

theorem OneByte.cmc : OneByte.Statement .cmc := ⟨0xF5, rfl, by decide⟩
theorem OneByte.rep : OneByte.Statement .rep := ⟨0xF3, rfl, by decide⟩
theorem OneByte.repeRepz : OneByte.Statement .repeRepz := ⟨0xF3, rfl, by decide⟩
theorem OneByte.repneRepnz : OneByte.Statement .repneRepnz := ⟨0xF2, rfl, by decide⟩
theorem OneByte.lock : OneByte.Statement .lock := ⟨0xF0, rfl, by decide⟩
theorem OneByte.segCS : OneByte.Statement .segCS := ⟨0x2E, rfl, by decide⟩
theorem OneByte.segSS : OneByte.Statement .segSS := ⟨0x36, rfl, by decide⟩
theorem OneByte.segDS : OneByte.Statement .segDS := ⟨0x3E, rfl, by decide⟩
theorem OneByte.segES : OneByte.Statement .segES := ⟨0x26, rfl, by decide⟩
theorem OneByte.segFS : OneByte.Statement .segFS := ⟨0x64, rfl, by decide⟩
theorem OneByte.segGS : OneByte.Statement .segGS := ⟨0x65, rfl, by decide⟩
theorem OneByte.opsize : OneByte.Statement .opsize := ⟨0x66, rfl, by decide⟩
theorem OneByte.addrsize : OneByte.Statement .addrsize := ⟨0x67, rfl, by decide⟩

end Sys2Proof.Laws
end

