-- ==== Sys2Proof/Laws/Step.lean ====
section
/-! SUPPORT. What a meaning and a step can do when they answer a next state. -/

namespace Sys2Proof.Machine

/-- Everything a meaning can do when it answers a next state: CMC completes, or a prefix byte is
remembered. -/
theorem exec_eq_next {i : Instr} {s t : State} (h : exec i s = .next t) :
    (i = .cmc ∧ s.pending = PrefixSet.empty ∧ s.pc.toNat + 1 < 2 ^ 32 ∧
        t = (s.setPc (s.pc + 1)).setCf (!s.cf)) ∨
      (i ≠ .cmc ∧ ∃ x p, s.pending.add x = some p ∧ t = s.setPending p) := by
  cases i
  case cmc =>
    left
    simp only [exec, execCmc, outcome_eq_next, runCmc_eq_ok] at h
    exact ⟨rfl, h⟩
  all_goals
    right
    refine ⟨by simp, ?_⟩
    simp only [exec, execRep, execRepeRepz, execRepneRepnz, execLock, execSegCS, execSegSS, execSegDS,
      execSegES, execSegFS, execSegGS, execOpsize, execAddrsize, outcome_eq_next,
      rememberPrefix_eq_ok] at h
    obtain ⟨p, hp, rfl⟩ := h
    exact ⟨_, p, hp, rfl⟩

/-- Everything a step can do when it answers a next state: stay where the run is over, or run the row
that is decoded. -/
theorem step_eq_next {s t : State} (h : step s = .next t) :
    s.faultMark = none ∧ s.refusedMark = none ∧
      ((isOver s = true ∧ t = s) ∨
        (isOver s = false ∧ ∃ i n, decodeNext s = .ok (i, n) ∧ exec i s = .next t)) := by
  unfold step at h
  split at h
  · simp at h
  · simp at h
  · rename_i hf hr
    refine ⟨hf, hr, ?_⟩
    split at h
    · rename_i ho
      left
      simp only [Host.Outcome.next.injEq] at h
      exact ⟨ho, h.symm⟩
    · rename_i ho
      right
      split at h
      · simp at h
      · rename_i i n hd
        exact ⟨by simpa using ho, i, n, hd, h⟩

/-- The one template of the spec, field by field. -/
theorem cmcTemplate_eq :
    cmcTemplate =
      { opcode := [0xF5], plus := none, modrm := none, codeField := none, imms := [], moffs := false,
        cond := none, row := .cmc } := rfl

end Sys2Proof.Machine
end

