-- ==== Sys2Proof/Tests/Slice0.lean ====
section
/-! SUPPORT. The model's own tests: bytes written out from the spec's encodings, an ill-formed term for
each check, small steps and functions on the vectors of 95_test_vectors.md, and for every obligation with
hypotheses a concrete case that meets them. -/

namespace Sys2Proof.Tests

open Sys2Proof.Machine

/-! ## Helpers -/

/-- The launch of section 3.2 of 95_test_vectors.md: flat segments, all sizes 32, protected mode, and the
registers of that section, at `pc` = 100H. -/
def launch : State :=
  { State.reset with
    pc := 0x100,
    regs :=
      { eax := 0x1000, ecx := 3, edx := 0x80000000, ebx := 0x12348000, esp := 0xFFF0, ebp := 0x12000,
        esi := 0xFFFF0010, edi := 0xFFFF },
    params :=
      { Params.reset with
        opSize := .s32, addrSize := .s32, stackAddrSize := .s32, mode := .protectedMode,
        endPc := 0x200 } }

/-- The launch with bytes at `pc`. -/
def codeAt (bytes : List Byte) : State := launch.setMem (Memory.writeAll [] 0x100 bytes)

/-- The launch with a stack address size, ESP and memory. -/
def stackAt (a : Size) (esp : DWord) (m : List Host.Cell) : State :=
  { launch with
    regs := { launch.regs with esp := esp }, params := { launch.params with stackAddrSize := a },
    mem := m }

/-- The launch with a 386 task state segment at 100000H whose bitmap starts at 68H with the bytes 80 00 FF
(section 3.8 of 95_test_vectors.md). -/
def tssAt (limit : Option Nat) : State :=
  { launch with
    params := { launch.params with tssBase := 0x100000, tssLimit := limit },
    mem := Memory.writeAll [] 0x100066 [0x68, 0, 0x80, 0, 0xFF] }

/-- The launch with an oracle that raises #PF on every code fetch from an offset on (rule R256). -/
def raisingFrom (off : DWord) (s : State) : State :=
  let e : LinEntry :=
    { seg := .cs, kind := .fetch, size := none, first := off, last := 0xFFFFFFFF,
      result := .raise .pf (some 4) }
  { s with params := { s.params with lin := { s.params.lin with entries := [e] } } }

/-- A template made up for a test, read from an Opcode column (rule R110). -/
def madeUp (column : List OpcodeItem) (operands : List OperandSym) : Template :=
  templateOfRow column operands .cmc

/-- The effective address, or the register, of address-specifier bytes, with the bytes consumed. -/
def resolved (a : Size) (bytes : List Byte) : Option (Loc × Nat) :=
  match takeAddr (listFetcher bytes) a 0 with
  | .ok spec => some (resolveRM launch.regs a spec .dword none, spec.length)
  | .error _ => none

/-- The length of the instruction decoded with made-up templates, where one is. -/
def lengthOf (ts : List Template) (s : Size) (bytes : List Byte) : Option Nat :=
  match decodeInstruction (listFetcher bytes) { templates := ts, opSize := s, addrSize := s } with
  | .ok d => some d.length
  | .error _ => none

/-- The refusal met when decoding with made-up templates, where there is one. -/
def refusalIn (ts : List Template) (s : Size) (bytes : List Byte) : Option DecodeRefusal :=
  match decodeInstruction (listFetcher bytes) { templates := ts, opSize := s, addrSize := s } with
  | .error (.refused r) => some r
  | _ => none

/-- An instruction of no use but to be written down: template `88 /r`, address specifier as given. -/
def slashR (a : Size) (spec : AddrSpec) (seg : Option SegReg) : Decoded :=
  { prefixes := { PrefixSet.empty with seg := seg }, opSize := .s32, addrSize := a,
    template := madeUp [.hex 0x88, .modrm .slashR] [], regCode := none, addr := some spec, moffs := [],
    code := [], imms := [] }

/-- An instruction with a code-offset field and nothing else after its opcode byte. -/
def withCode (c : CodeField) (bytes : List Byte) : Decoded :=
  { prefixes := PrefixSet.empty, opSize := .s32, addrSize := .s32,
    template := madeUp [.hex 0xE8, .code c] [], regCode := none, addr := none, moffs := [],
    code := bytes, imms := [] }

/-! ## Decoding: each constructor's byte, from the rule that gives its encoding -/

/-- R210: F5. -/
theorem test_decode_cmc : decodeTableWord 8 0xF5 = some .cmc := by decide
/-- R150: F3. -/
theorem test_decode_rep : decodeTableWord 8 0xF3 = some .rep := by decide
/-- R150: the second name of F3 is the same byte; the decoder answers the first name (log entry 2). -/
theorem test_decode_repeRepz : encode .repeRepz = [0xF3] ∧ encode .rep = [0xF3] := by decide
/-- R151: F2. -/
theorem test_decode_repneRepnz : decodeTableWord 8 0xF2 = some .repneRepnz := by decide
/-- R152: F0. -/
theorem test_decode_lock : decodeTableWord 8 0xF0 = some .lock := by decide
/-- R161: 2E. -/
theorem test_decode_segCS : decodeTableWord 8 0x2E = some .segCS := by decide
/-- R162: 36. -/
theorem test_decode_segSS : decodeTableWord 8 0x36 = some .segSS := by decide
/-- R163: 3E. -/
theorem test_decode_segDS : decodeTableWord 8 0x3E = some .segDS := by decide
/-- R164: 26. -/
theorem test_decode_segES : decodeTableWord 8 0x26 = some .segES := by decide
/-- R165: 64. -/
theorem test_decode_segFS : decodeTableWord 8 0x64 = some .segFS := by decide
/-- R166: 65. -/
theorem test_decode_segGS : decodeTableWord 8 0x65 = some .segGS := by decide
/-- R154: 66. -/
theorem test_decode_opsize : decodeTableWord 8 0x66 = some .opsize := by decide
/-- R155: 67. -/
theorem test_decode_addrsize : decodeTableWord 8 0x67 = some .addrsize := by decide

/-- Section 3.3: 90, F4 and 0F 05 match no template. -/
theorem test_decode_unassigned :
    [0x90, 0xF4, 0x0F].map (decodeTableWord 8) = [none, none, none] ∧
      decodeTableWord 16 0x050F = none := by decide

/-- Every row is the first instruction after reset that the step runs, as `exec` of it. -/
theorem test_first_instruction_runs :
    step (State.reset.withFetchWord 8 0xF5) = exec .cmc (State.reset.withFetchWord 8 0xF5) ∧
      step (State.reset.withFetchWord 8 0xF0) = exec .lock (State.reset.withFetchWord 8 0xF0) ∧
      step (State.reset.withFetchWord 8 0x66) = exec .opsize (State.reset.withFetchWord 8 0x66) :=
  ⟨rfl, rfl, rfl⟩

/-! ## The decoder with templates a reader adds (section 3.4 of 95_test_vectors.md) -/

theorem test_lengths_with_modrm :
    let t := [madeUp [.hex 0x88, .modrm .slashR] []]
    lengthOf t .s32 [0x88, 0xC3] = some 2 ∧ lengthOf t .s32 [0x88, 0x04, 0x24] = some 3 ∧
      lengthOf t .s32 [0x88, 0x05, 1, 2, 3, 4] = some 6 ∧
      lengthOf t .s32 [0x88, 0x04, 0x25, 1, 2, 3, 4] = some 7 ∧
      lengthOf t .s32 [0x67, 0x88, 0x06, 1, 2] = some 5 ∧ lengthOf t .s32 [0x67, 0x88, 0x04] = some 3 ∧
      lengthOf t .s16 [0x88, 0x04] = some 2 ∧ lengthOf t .s16 [0x67, 0x88, 0x04, 0x24] = some 4 := by
  decide

theorem test_template_conditions :
    let t16 := madeUp [.hex 0x81, .modrm (.slashDigit 0), .imm .iw] [.rm16, .imm16]
    let t32 := madeUp [.hex 0x81, .modrm (.slashDigit 0), .imm .id] [.rm32, .imm32]
    lengthOf [t16] .s32 [0x66, 0x81, 0x46, 1, 2, 3] = some 6 ∧
      refusalIn [t16] .s32 [0x81, 0x46, 1, 2, 3] = some .opcodeNotInSource ∧
      refusalIn [t16] .s32 [0x66, 0x81, 0x4E, 1, 2, 3] = some .opcodeNotInSource ∧
      lengthOf [t16, t32] .s32 [0x81, 0x46, 1, 2, 3, 4, 5] = some 7 := by decide

theorem test_template_choice :
    let cb := madeUp [.hex 0x88, .code .cb] []
    let two := madeUp [.hex 0x88, .hex 0x11] []
    let ib := madeUp [.hex 0x88, .imm .ib] []
    lengthOf [cb, two] .s32 [0x88, 0x11, 0] = some 2 ∧ lengthOf [cb, two] .s32 [0x88, 0x12] = some 2 ∧
      refusalIn [ib, cb] .s32 [0x88, 0x12] = some .ambiguousTemplates := by decide

theorem test_longest_instruction :
    let t := [madeUp [.hex 0x0F, .hex 0x11, .modrm (.slashDigit 0), .imm .id] [.imm32]]
    lengthOf t .s16 [0x2E, 0x66, 0x67, 0x0F, 0x11, 0x84, 0x24, 1, 2, 3, 4, 5, 6, 7, 8] = some 15 ∧
      refusalIn t .s16 [0xF0, 0x2E, 0x66, 0x67, 0x0F, 0x11, 0x84, 0x24, 1, 2, 3, 4, 5, 6, 7, 8] =
        some .tooLong := by decide

/-! ## Well-formedness: a term each check refuses -/

theorem test_illformed_second_name : Instr.wellFormed .repeRepz = false := by decide

theorem test_illformed_opcodes :
    (madeUp [] []).wellFormed = false ∧ (madeUp [.hex 0x66] []).wellFormed = false ∧
      (madeUp [.hex 0xF9, .plus .word] []).wellFormed = false ∧
      (madeUp [.hex 0x0F] []).wellFormed = false ∧
      (madeUp [.hex 0x08, .plus .word] []).wellFormed = false ∧
      (madeUp [.hex 0x07, .plus .word] []).wellFormed = true ∧
      (madeUp [.hex 0x60, .plus .word] []).wellFormed = false ∧
      (madeUp [.hex 0x10, .hex 0x11] []).wellFormed = false ∧
      (madeUp [.hex 0x0F, .hex 0xFF, .plus .word] []).wellFormed = false ∧
      (madeUp [.hex 0x0F, .hex 0x11, .hex 0x12] []).wellFormed = false := by decide

theorem test_illformed_moffs_with_modrm :
    (madeUp [.hex 0xA0, .modrm .slashR] [.moffs8]).wellFormed = false ∧
      (madeUp [.hex 0xA0] [.moffs8]).wellFormed = true := by decide

theorem test_illformed_address_specifiers :
    AddrSpec.wellFormed .s32 { modrm := 0x04, sib := none, disp := [] } = false ∧
      AddrSpec.wellFormed .s16 { modrm := 0x04, sib := some 0x24, disp := [] } = false ∧
      AddrSpec.wellFormed .s32 { modrm := 0x05, sib := none, disp := [1] } = false ∧
      AddrSpec.wellFormed .s32 { modrm := 0x04, sib := some 0x24, disp := [] } = true := by decide

theorem test_illformed_address_for_template :
    addrFits (some .slashR) .s32 none = false ∧
      addrFits none .s32 (some { modrm := 0xC0, sib := none, disp := [] }) = false ∧
      addrFits (some (.slashDigit 0)) .s32 (some { modrm := 0xC8, sib := none, disp := [] }) = false :=
  by decide

theorem test_illformed_decoded :
    let d := slashR .s32 { modrm := 0xC3, sib := none, disp := [] } none
    d.wellFormed .s32 .s32 = true ∧ d.wellFormed .s16 .s32 = false ∧ d.wellFormed .s32 .s16 = false ∧
      Decoded.wellFormed .s32 .s32 { d with template := madeUp [] [] } = false ∧
      Decoded.wellFormed .s32 .s32
        { d with template := madeUp [.hex 0x88, .modrm .slashR] [.rm16] } = false ∧
      Decoded.wellFormed .s32 .s32 { d with regCode := some 1 } = false ∧
      Decoded.wellFormed .s32 .s32 { d with addr := none } = false ∧
      Decoded.wellFormed .s32 .s32 { d with moffs := [1] } = false ∧
      Decoded.wellFormed .s32 .s32 { d with code := [1] } = false ∧
      Decoded.wellFormed .s32 .s32 { d with imms := [[1]] } = false := by decide

/-- A sixteen-byte instruction is not well formed: four prefix bytes before the fifteen-byte body's
fields of section 3.4. -/
theorem test_illformed_too_long :
    let d (p : PrefixSet) : Decoded :=
      { prefixes := p, opSize := .s32, addrSize := .s32,
        template := madeUp [.hex 0x0F, .hex 0x11, .modrm (.slashDigit 0), .imm .id] [.imm32],
        regCode := none, addr := some { modrm := 0x84, sib := some 0x24, disp := [1, 2, 3, 4] },
        moffs := [], code := [], imms := [[5, 6, 7, 8]] }
    Decoded.wellFormed .s16 .s16 (d { g1 := none, addrSize := true, opSize := true, seg := some .cs }) =
        true ∧
      Decoded.wellFormed .s16 .s16
        (d { g1 := some .lock, addrSize := true, opSize := true, seg := some .cs }) = false := by decide

/-- The canonical form of memory refuses an unsorted list, a repeated address, a listed zero byte and an
address past the linear space; that of `Written`, an unsorted list. -/
theorem test_illformed_memory :
    Memory.wf [(2, 1), (1, 1)] = false ∧ Memory.wf [(1, 1), (1, 2)] = false ∧
      Memory.wf [(1, 0)] = false ∧ Memory.wf [(2 ^ 32, 1)] = false ∧ Written.wf [2, 1] = false ∧
      Memory.wf [(1, 1), (2, 1)] = true := by decide

/-! ## The instructions -/

/-- The example of rule R210: CF = 0, pc = 100H, byte F5. After: CF = 1, pc = 101H, all else unchanged. -/
theorem test_cmc_example :
    step (codeAt [0xF5]) = .next { codeAt [0xF5] with cf := true, pc := 0x101 } := rfl

/-- Rule R210: with CF = 1 it becomes 0; at pc = FFFFFFFFH the instruction is refused. -/
theorem test_cmc_clears_and_wraps :
    exec .cmc { launch with cf := true } = .next { launch with cf := false, pc := 0x101 } ∧
      exec .cmc { launch with pc := 0xFFFFFFFF } = .refused .pcWrap := ⟨rfl, rfl⟩

/-- Rule R150: F3 is remembered, under either name; F3 F5 is refused (section 3.3). -/
theorem test_rep_remembered :
    exec .rep launch = .next { launch with pending := { PrefixSet.empty with g1 := some .rep } } ∧
      instructionStep (codeAt [0xF3, 0xF5]) = .refused .repNotInSource := ⟨rfl, rfl⟩

theorem test_repeRepz_remembered :
    exec .repeRepz launch = .next { launch with pending := { PrefixSet.empty with g1 := some .rep } } :=
  rfl

/-- Rule R151 and section 3.3: F2 F5. -/
theorem test_repneRepnz_remembered :
    exec .repneRepnz launch =
        .next { launch with pending := { PrefixSet.empty with g1 := some .repne } } ∧
      instructionStep (codeAt [0xF2, 0xF5]) = .refused .repNotInSource := ⟨rfl, rfl⟩

/-- Rules R152, R156 and section 3.3: F0 F5; F0 F3 F5 are two bytes of group G1. -/
theorem test_lock_remembered :
    exec .lock launch = .next { launch with pending := { PrefixSet.empty with g1 := some .lock } } ∧
      instructionStep (codeAt [0xF0, 0xF5]) = .refused .lockNotInSource ∧
      instructionStep (codeAt [0xF0, 0xF3, 0xF5]) = .refused .duplicatePrefixGroup := ⟨rfl, rfl, rfl⟩

/-- Rule R75 and section 3.2: 45 00 after 3E is at DS:00012000H, 00 after 36 at SS:00001000H. -/
theorem test_segment_overrides :
    resolveRM launch.regs .s32 { modrm := 0x45, sib := none, disp := [0] } .dword (some .ds) =
        .mem .ds 0x12000 ∧
      resolveRM launch.regs .s32 { modrm := 0x00, sib := none, disp := [] } .dword (some .ss) =
        .mem .ss 0x1000 := by decide

theorem test_segCS_remembered :
    exec .segCS launch = .next { launch with pending := { PrefixSet.empty with seg := some .cs } } := rfl
theorem test_segSS_remembered :
    exec .segSS launch = .next { launch with pending := { PrefixSet.empty with seg := some .ss } } := rfl
theorem test_segDS_remembered :
    exec .segDS launch = .next { launch with pending := { PrefixSet.empty with seg := some .ds } } := rfl
theorem test_segES_remembered :
    exec .segES launch = .next { launch with pending := { PrefixSet.empty with seg := some .es } } := rfl
theorem test_segFS_remembered :
    exec .segFS launch = .next { launch with pending := { PrefixSet.empty with seg := some .fs } } := rfl
theorem test_segGS_remembered :
    exec .segGS launch = .next { launch with pending := { PrefixSet.empty with seg := some .gs } } := rfl

/-- Rule R154: with default size 16 an instruction prefixed 66 has OperandSize = 32; 66 66 is refused. -/
theorem test_opsize_remembered :
    exec .opsize launch = .next { launch with pending := { PrefixSet.empty with opSize := true } } ∧
      overridden .s16 true = .s32 ∧
      instructionStep (codeAt [0x66, 0x66, 0xF5]) = .refused .duplicatePrefixGroup := ⟨rfl, rfl, rfl⟩

/-- Rule R155: with default size 32, ModR/M 06 after 67 has two displacement bytes, without it none. -/
theorem test_addrsize_remembered :
    exec .addrsize launch = .next { launch with pending := { PrefixSet.empty with addrSize := true } } ∧
      dispSize (overridden .s32 true) 0x06 none = 2 ∧ dispSize .s32 0x06 none = 0 := ⟨rfl, rfl, rfl⟩

/-- Section 3.3: any order of groups is accepted, then CMC is refused; the scan of single steps ends the
same way. -/
theorem test_prefixes_any_order :
    instructionStep (codeAt [0x67, 0x66, 0x2E, 0xF5]) = .refused .prefixNotShown ∧
      Host.Core.run Sys2Proof.core 4 (codeAt [0x67, 0x66, 0x2E, 0xF5]) = .refused .prefixNotShown ∧
      Host.Core.run Sys2Proof.core 3 (codeAt [0x66, 0xF3, 0x90]) = .refused .opcodeNotInSource :=
  ⟨rfl, rfl, rfl⟩

/-- Rule R258: an exception on a fetch is a fault with the name, number, code and the instruction's `pc`;
the state is otherwise as it was. -/
theorem test_fetch_fault :
    advance (raisingFrom 0x100 (codeAt [0xF5])) =
      { raisingFrom 0x100 (codeAt [0xF5]) with
        faultMark := some (.exception .pf 14 (some 4) 0x100) } := by decide

/-- Rule R80: a byte the run has stored to is not fetched. -/
theorem test_fetch_of_written_byte :
    step { codeAt [0xF5] with written := [0x100] } = .refused .fetchOfWrittenByte := rfl

/-! ## Addressing forms (section 3.2 of 95_test_vectors.md) -/

theorem test_addresses_16 :
    resolved .s16 [0x01] = some (.mem .ds 0x7FFF, 1) ∧
      resolved .s16 [0x06, 0x34, 0x12] = some (.mem .ds 0x1234, 3) ∧
      resolved .s16 [0x42, 0xFF] = some (.mem .ss 0x200F, 2) ∧
      resolved .s16 [0x86, 0x00, 0xE0] = some (.mem .ss 0, 3) ∧
      resolved .s16 [0xFC] = some (.reg (.r32 .esp), 1) := by decide

theorem test_addresses_32 :
    resolved .s32 [0x05, 0x78, 0x56, 0x34, 0x12] = some (.mem .ds 0x12345678, 5) ∧
      resolved .s32 [0x45, 0xF8] = some (.mem .ss 0x11FF8, 2) ∧
      resolved .s32 [0x04, 0xE4] = some (.mem .ss 0xFFF0, 2) ∧
      resolved .s32 [0x04, 0x8D, 0x00, 0x10, 0x00, 0x00] = some (.mem .ds 0x100C, 6) ∧
      resolved .s32 [0x44, 0xCD, 0x80] = some (.mem .ss 0x11F98, 3) ∧
      resolved .s32 [0x84, 0xF4, 0x10, 0, 0, 0] = some (.mem .ss 0xFFF90080, 6) := by decide

/-! ## The predefined functions (sections 3.1 and 3.5 to 3.8 of 95_test_vectors.md) -/

theorem test_width_functions :
    truncate16 (0x12345678 : DWord) = 0x5678 ∧ (zeroExtend .s32 (0xF6 : Byte)).toOption = some 0xF6 ∧
      (signExtend .s32 (0xF6 : Byte)).toOption = some 0xFFFFFFF6 ∧
      (signExtend .s16 (0x76 : Byte)).toOption = some 0x0076 ∧
      (signExtend .s16 (0x12345678 : DWord)).toOption = none := by decide

theorem test_push :
    ((push .s16 0xABCD (stackAt .s16 0x12340100 [])).toOption.map fun t => (t.regs.esp, t.mem)) =
        some (0x123400FE, [(0xFE, 0xCD), (0xFF, 0xAB)]) ∧
      ((push .s32 0xDEADBEEF (stackAt .s32 0x1000 [])).toOption.map fun t => (t.regs.esp, t.mem)) =
        some (0xFFC, [(0xFFC, 0xEF), (0xFFD, 0xBE), (0xFFE, 0xAD), (0xFFF, 0xDE)]) := by decide

theorem test_pop :
    (pop .s16 (stackAt .s16 0x123400FE [(0xFE, 0xCD), (0xFF, 0xAB)])).toOption.map
        (fun r => (r.1, r.2.regs.esp)) =
      some (0xABCD, 0x12340100) := by decide

/-- The examples of rule R234. -/
theorem test_bit_addresses :
    bitOfMemory .s32 .ds 0x1000 13 = .inMemory .ds 0x1001 5 ∧
      bitOfMemory .s32 .ds 0x1000 (-1) = .inMemory .ds 0xFFF 7 ∧
      bitOfMemory .s32 .ds 0x1000 (-8) = .inMemory .ds 0xFFF 0 ∧
      bitOfMemory .s32 .ds 0x1000 (-9) = .inMemory .ds 0xFFE 7 := by decide

theorem test_io_permission :
    (ioPermission (tssAt (some 0xFFFF)) 7 .byte).toOption = some false ∧
      (ioPermission (tssAt (some 0xFFFF)) 6 .byte).toOption = some true ∧
      (ioPermission (tssAt (some 0xFFFF)) 6 .word).toOption = some false := by decide

/-- Rule R287. -/
theorem test_cmc_clocks : cmcClocks.clocks .realAddress none = 2 := by decide

/-- Table 17-6 (rule R251). -/
theorem test_exception_numbers :
    [ExcName.ud, .nm, .df, .ts, .np, .ss, .gp, .pf, .mf].map (fun x => (excText x, excNumber x)) =
      [("#UD", 6), ("#NM", 7), ("#DF", 8), ("#TS", 10), ("#NP", 11), ("#SS", 12), ("#GP", 13),
        ("#PF", 14), ("#MF", 16)] := by decide

/-- Rule R285 on `66 81 46 d i i`: "m of the clock formula = 5" (section 3.4). -/
theorem test_components :
    let d : Decoded :=
      { prefixes := { PrefixSet.empty with opSize := true }, opSize := .s16, addrSize := .s32,
        template := madeUp [.hex 0x81, .modrm (.slashDigit 0), .imm .iw] [.rm16, .imm16],
        regCode := none, addr := some { modrm := 0x46, sib := none, disp := [1] }, moffs := [],
        code := [], imms := [[2, 3]] }
    d.length = 6 ∧ components d = 5 := by decide

/-! ## For each obligation with hypotheses, a case that meets them (all clauses, at boundary values) -/

theorem test_meets_EncodedRowDecodes :
    Instr.wellFormed .cmc = true ∧ Instr.wellFormed .addrsize = true := by decide

theorem test_meets_DecodedRowIsItsByte :
    decode (specEnv .s16 .s32) [0xF5, 0x66] = .ok (.cmc, [0x66]) := rfl

theorem test_meets_TwelveFirstBytesAssigned :
    (0x67 : Byte) ∈ [(0xF5 : Byte), 0xF0, 0xF2, 0xF3, 0x26, 0x2E, 0x36, 0x3E, 0x64, 0x65, 0x66, 0x67] ∧
      (0x68 : Byte) ∉ [(0xF5 : Byte), 0xF0, 0xF2, 0xF3, 0x26, 0x2E, 0x36, 0x3E, 0x64, 0x65, 0x66, 0x67] :=
  by decide

/-- A fifteen-byte instruction, and a register code added to the highest opcode byte there is room for. -/
theorem test_meets_InstructionRoundTrip :
    Decoded.wellFormed .s16 .s16
        { prefixes := { g1 := none, addrSize := true, opSize := true, seg := some .cs }, opSize := .s32,
          addrSize := .s32,
          template := madeUp [.hex 0x0F, .hex 0x11, .modrm (.slashDigit 0), .imm .id] [.imm32],
          regCode := none, addr := some { modrm := 0x84, sib := some 0x24, disp := [1, 2, 3, 4] },
          moffs := [], code := [], imms := [[5, 6, 7, 8]] } = true ∧
      Decoded.wellFormed .s16 .s16
        { prefixes := PrefixSet.empty, opSize := .s16, addrSize := .s16,
          template := madeUp [.hex 0xF8, .plus .word] [], regCode := some 7, addr := none, moffs := [],
          code := [], imms := [] } = true := by decide

theorem test_meets_DecodedInstructionIsItsBytes :
    decodeInstruction (listFetcher [0x67, 0xF0, 0xF5, 0x90]) (specEnv .s16 .s32) =
      .ok { prefixes := { g1 := some .lock, addrSize := true, opSize := false, seg := none },
            opSize := .s16, addrSize := .s16, template := cmcTemplate, regCode := none, addr := none,
            moffs := [], code := [], imms := [] } := rfl

/-- The second supply of bytes stops at once after the instruction's own byte. -/
theorem test_meets_DecoderFetchesOwnBytesOnly :
    let f : Fetcher Stop := { fetch := fun _ => .ok 0xF5, refuse := fun r => .refuse (refusalOf r) }
    let g : Fetcher Stop :=
      { fetch := fun k => if k = 0 then .ok 0xF5 else .error (.refuse .fetchOfWrittenByte)
        refuse := fun r => .refuse (refusalOf r) }
    let d : Decoded :=
      { prefixes := PrefixSet.empty, opSize := .s16, addrSize := .s16, template := cmcTemplate,
        regCode := none, addr := none, moffs := [], code := [], imms := [] }
    decodeInstruction f { templates := [cmcTemplate], opSize := .s16, addrSize := .s16 } = .ok d ∧
      d.length = 1 ∧ (∀ k, k < 1 → g.fetch k = f.fetch k) ∧ g.fetch 1 ≠ f.fetch 1 :=
  ⟨rfl, rfl, by intro k hk; simp [Nat.lt_one_iff.mp hk], by simp⟩

/-- Two candidates; the one with two fixed bytes is taken. -/
theorem test_meets_LongestCandidateIsTaken :
    let f : Fetcher Stop := { fetch := fun _ => .ok 0x0F, refuse := fun r => .refuse (refusalOf r) }
    let one := madeUp [.hex 0x0F] []
    let two := madeUp [.hex 0x0F, .hex 0x0F] []
    selectTemplate f 0 .s16 [one, two] = .ok two ∧ matchTemplate f 0 .s16 one = .ok true := ⟨rfl, rfl⟩

/-- A table with an opcode of one byte and one of two, and an instruction of each. -/
theorem test_meets_TwoByteOpcodesStartWith0F :
    let one := madeUp [.hex 0xF5] []
    let two := madeUp [.hex 0x0F, .hex 0x05] []
    one.wellFormed = true ∧ two.wellFormed = true ∧ lengthOf [one, two] .s16 [0xF5] = some 1 ∧
      lengthOf [one, two] .s16 [0x66, 0x0F, 0x05] = some 3 := by decide

theorem test_meets_SibAndDisplacementSizes :
    (5 : BitVec 3) ≠ 4 ∧ needsSib .s32 0x05 = false ∧ dispSize .s32 0x05 none = 4 ∧
      needsSib .s32 0x04 = true ∧ dispSize .s32 0x04 (some 0x25) = 4 := by decide

theorem test_meets_NarrowRegistersAreViews : (15 : Nat) < 16 ∧ (7 : Nat) < 8 := by decide

theorem test_meets_WordLowByteFirst :
    (0xFFFFFFFE : DWord).toNat + 2 ≤ 2 ^ 32 ∧ Memory.wf State.reset.mem = true := by decide

theorem test_meets_StoreThenLoad :
    (0xFFFFFFFC : DWord).toNat + 4 ≤ 2 ^ 32 ∧ Memory.wf [(0xFFFFFFFF, 1)] = true := by decide

theorem test_meets_StoreFrame :
    memWrite State.reset 0xFFFFFFFE 2 0x1234 =
        .ok { State.reset with
          mem := [(0xFFFFFFFE, 0x34), (0xFFFFFFFF, 0x12)], written := [0xFFFFFFFE, 0xFFFFFFFF] } ∧
      2 ^ 32 < (0xFFFFFFFF : DWord).toNat + 2 := ⟨rfl, by decide⟩

theorem test_meets_FetchByteCases :
    linAnswer launch.params.lin .cs (launch.pc + 3) .fetch 1 = .linear 0x103 ∧
      (0x103 ∉ launch.written) ∧ (0x103 ∈ { launch with written := [0x103] }.written) ∧
      linAnswer (raisingFrom 0x100 launch).params.lin .cs (launch.pc + 3) .fetch 1 =
        .raise .pf (some 4) := by decide

theorem test_meets_EveryOracleIsATable : (4 : Nat) < 5 := by decide

theorem test_meets_LinAddsSegmentBase : State.reset.params.lin.entries = [] := by decide

theorem test_meets_ExtendKeepsValue :
    8 ≤ Size.width .s16 ∧ 16 ≤ Size.width .s16 ∧ Size.width .s16 < 17 ∧ 32 ≤ Size.width .s32 ∧
      Size.width .s32 < 33 := by decide

/-- A word pushed to the top two bytes of a 16-bit stack, and a doubleword on a 32-bit one. -/
theorem test_meets_PushStoresItem :
    Memory.wf (stackAt .s16 0x12340000 []).mem = true ∧
      (0xFFFE : DWord).toNat =
        ((stackPointer (stackAt .s16 0x12340000 [])).toNat + 2 ^ 16 - 2) % 2 ^ 16 ∧
      (0xFFFE : DWord).toNat + 2 ≤ 2 ^ 16 ∧
      lin (stackAt .s16 0x12340000 []) .ss 0xFFFE .write 2 = .ok 0xFFFE ∧
      (0 : DWord).toNat = ((stackPointer (stackAt .s32 4 [])).toNat + 2 ^ 32 - 4) % 2 ^ 32 ∧
      lin (stackAt .s32 4 []) .ss 0 .write 4 = .ok 0 :=
  ⟨by decide, by decide, by decide, rfl, by decide, rfl⟩

theorem test_meets_PopReturnsItem :
    (stackPointer (stackAt .s16 0x1234FFFE [])).toNat + 2 ≤ 2 ^ 16 ∧
      lin (stackAt .s16 0x1234FFFE []) .ss 0xFFFE .read 2 = .ok 0xFFFE ∧
      (stackPointer (stackAt .s32 0xFFFFFFFC [])).toNat + 4 ≤ 2 ^ 32 ∧
      lin (stackAt .s32 0xFFFFFFFC []) .ss 0xFFFFFFFC .read 4 = .ok 0xFFFFFFFC :=
  ⟨by decide, rfl, by decide, rfl⟩

theorem test_meets_PopUndoesPush :
    let s := stackAt .s16 0x12340000 []
    push .s16 0xABCD s =
        .ok { s with
          regs := { s.regs with esp := 0x1234FFFE }, mem := [(0xFFFE, 0xCD), (0xFFFF, 0xAB)],
          written := [0xFFFE, 0xFFFF] } ∧
      lin s .ss (pushPointer s .s16) .read 2 = lin s .ss (pushPointer s .s16) .write 2 := ⟨rfl, rfl⟩

theorem test_meets_StackItemPastTopRefused :
    2 ^ 16 < (pushPointer (stackAt .s16 1 []) .s16).toNat + 2 ∧
      2 ^ 16 < (stackPointer (stackAt .s16 0xFFFF [])).toNat + 2 ∧
      2 ^ 32 < (pushPointer (stackAt .s32 1 []) .s32).toNat + 4 := by decide

theorem test_meets_BitOfMemoryBase :
    lin launch .ds (truncTo .s32 (0x1000 + BitVec.ofInt 32 (-1))) .read 1 = .ok 0xFFF := rfl

theorem test_meets_BitOfRegisterBase :
    (31 : DWord).toInt = (31 : Nat) ∧ 31 < (RegOperand.r32 .eax).bits ∧
      (0xFFFFFFFF : DWord).toInt < 0 ∧ ((RegOperand.r16 .eax).bits : Int) ≤ (16 : DWord).toInt := by
  decide

/-- The last byte of the bitmap that a limit lets be read, and one past it. -/
theorem test_meets_IOPermissionCases :
    { launch with params := { launch.params with tssType := .t286 } }.params.tssType = .t286 ∧
      (tssAt none).params.tssType = .t386 ∧ (tssAt none).params.tssLimit = none ∧
      memRead (tssAt (some 0x69)) ((tssAt (some 0x69)).params.tssBase + 102) 2 = .ok 0x68 ∧
      (0x69 < 0x68 + (16 : Word).toNat / 8 + 1) ∧ (0x68 + (7 : Word).toNat / 8 + 1 ≤ 0x69) ∧
      memRead (tssAt (some 0x69)) ((tssAt (some 0x69)).params.tssBase + BitVec.ofNat 32 0x68) 2 =
        .ok 0x80 := ⟨rfl, rfl, rfl, rfl, by decide, by decide, rfl⟩

theorem test_meets_Table172Displacement :
    (∃ d : Byte, ([0x80] : List Byte) = [d] ∧ (0xFF80 : Word) = d.signExtend 16) ∧
      ([0x00, 0x80] : List Byte) = leBytes 2 (0x8000 : Word).toNat := ⟨⟨0x80, rfl, rfl⟩, rfl⟩

theorem test_meets_Table173Forms : (5 : BitVec 3) ≠ 4 ∧ (6 : BitVec 3) ≠ 4 ∧ (6 : BitVec 3) ≠ 5 := by
  decide

theorem test_meets_Table174Forms : (4 : BitVec 3) ≠ 5 ∧ (5 : BitVec 3) = 5 := by decide

theorem test_meets_RegisterForms : modField 0xC0 = 3 ∧ modField 0xFF = 3 := by decide

theorem test_meets_DefaultSegmentSixteenBit : modField 0x00 ≠ 3 ∧ modField 0xBF ≠ 3 := by decide

theorem test_meets_HighHalvesPlayNoPart :
    ∀ r, r ∈ [Gpr.ebx, Gpr.ebp, Gpr.esi, Gpr.edi] →
      launch.regs.get16 r = { launch.regs with ebx := 0x8000, esi := 0x10 }.get16 r := by decide

theorem test_meets_OverrideSelectsSegment :
    launch.pending.seg = none ∧ modField 0xBF ≠ 3 := by decide

theorem test_meets_RelativeTargets :
    (withCode .cb [0x80]).code = [0x80] ∧
      (withCode .cw [0x00, 0x80]).code = leBytes 2 (0x8000 : Word).toNat ∧
      (withCode .cd [0xFF, 0xFF, 0xFF, 0xFF]).code = leBytes 4 (0xFFFFFFFF : DWord).toNat ∧
      (withCode .cb [0x80]).length = 2 ∧
      { launch with pc := 0xFFFFFFFD }.pc.toNat + 2 < 2 ^ 32 ∧
      2 ^ 32 ≤ { launch with pc := 0xFFFFFFFE }.pc.toNat + 2 := by decide

/-- Rule R115: from 128 bytes before the end of the instruction to 127 bytes after it; rule R25: an end at
2^32 is refused. -/
theorem test_rel8 :
    let target (pc : DWord) (b : Byte) :=
      (readOperand { launch with pc := pc } (withCode .cb [b]) .rel8).map Except.toOption
    target 0x100 0x80 = some (some (.target 0x82)) ∧ target 0x100 0x7F = some (some (.target 0x181)) ∧
      target 0xFFFFFFFE 0x00 = some none := by decide

/-- Every part in the instruction stream and in memory at the launch, whose memory reads 0 there, and the
last offset at which six bytes fit. -/
theorem test_meets_MultiPartLayout :
    (withCode .cd [1, 0x80, 2, 0]).code =
        leBytes 2 (0x8001 : Word).toNat ++ leBytes 2 (2 : Word).toNat ∧
      (withCode .cp [1, 0, 0, 0x80, 2, 0]).code =
        leBytes 4 (0x80000001 : DWord).toNat ++ leBytes 2 (2 : Word).toNat ∧
      resolveRM launch.regs .s32 { modrm := 0x00, sib := none, disp := [] } .dword none =
        .mem .ds 0x1000 ∧
      lin launch .ds 0x1000 .read 4 = .ok 0x1000 ∧ lin launch .ds 0x1000 .read 6 = .ok 0x1000 ∧
      lin launch .ds 0x1000 .read 8 = .ok 0x1000 ∧
      Memory.readAll launch.mem 0x1000 4 = leBytes 2 (0 : Word).toNat ++ leBytes 2 (0 : Word).toNat ∧
      Memory.readAll launch.mem 0x1000 6 = leBytes 2 (0 : Word).toNat ++ leBytes 4 (0 : DWord).toNat ∧
      Memory.readAll launch.mem 0x1000 8 = leBytes 4 (0 : DWord).toNat ++ leBytes 4 (0 : DWord).toNat ∧
      (0xFFFFFFFA : DWord).toNat + 6 ≤ 2 ^ 32 :=
  ⟨by decide, by decide, by decide, rfl, rfl, rfl, by decide, by decide, by decide, by decide⟩

/-- An instruction with a word and two byte immediates, moffs fields of both sizes, each string symbol's
index under each address size, and register codes in the opcode byte and in the reg field. -/
theorem test_meets_OperandSymbolsDenoteTheirOperands :
    let d : Decoded := { withCode .cb [] with imms := [[0x34, 0x12], [0x80], [0x7F]] }
    let m := slashR .s32 { modrm := 0x38, sib := none, disp := [] } none
    ({ d with regCode := some 7 }.regCode = some 7) ∧ m.regCode = none ∧
      m.addr = some { modrm := 0x38, sib := none, disp := [] } ∧
      SegReg.ofCode? (regField 0x28) = some .gs ∧ SegReg.ofCode? (regField 0x38) = none ∧
      d.imms = [[0x34, 0x12]] ++ [0x80] :: [[0x7F]] ∧ (∀ x, x ∈ [[(0x34 : Byte), 0x12]] → x.length ≠ 1) ∧
      d.imms = [] ++ leBytes 2 (0x1234 : Word).toNat :: [[0x80], [0x7F]] ∧
      ({ d with moffs := [0xFF, 0xFF] }.moffs = leBytes 2 (0xFFFF : Word).toNat) ∧
      ({ d with moffs := [0, 0, 0, 0x80] }.moffs = leBytes 4 (0x80000000 : DWord).toNat) ∧
      (operandLoc launch.regs d .moffs16).isSome = true ∧
      operandLoc launch.regs { d with addrSize := .s16 } (.m8 .destination) =
        some (.byte, .mem .es 0xFFFF) := by decide

/-- Rule R174's example, ModR/M D8: the r/m operand is EAX, AX or AL and the reg operand EBX, BX or BL; and
rule R75's, ModR/M 45 00 after 3E: DS:00012000H. -/
theorem test_register_and_rm_symbols :
    let d := slashR .s32 { modrm := 0xD8, sib := none, disp := [] } none
    let m := slashR .s32 { modrm := 0x45, sib := none, disp := [0] } (some .ds)
    operandLoc launch.regs d .rm32 = some (.dword, .reg (.r32 .eax)) ∧
      operandLoc launch.regs d .rm8 = some (.byte, .reg (.r8 .al)) ∧
      operandLoc launch.regs d .r32 = some (.dword, .reg (.r32 .ebx)) ∧
      operandLoc launch.regs d .r8 = some (.byte, .reg (.r8 .bl)) ∧
      operandLoc launch.regs { d with regCode := some 4 } .r8 = some (.byte, .reg (.r8 .ah)) ∧
      operandLoc launch.regs m .rm16 = some (.word, .mem .ds 0x12000) := by decide

/-- Rule R22: BH is bits 15..8 of EBX, and writing it leaves the other bits. -/
theorem test_high_byte_register :
    launch.regs.get8 .bh = 0x80 ∧ (launch.regs.set8 .bh 0x7F).ebx = 0x12347F00 ∧
      launch.regs.get8 .ch = 0 ∧ launch.regs.get8 .cl = 3 := by decide

/-- Rule R68: a far pointer in memory, its offset below its selector, and a pair of bounds. -/
theorem test_far_pointer_and_bounds :
    let s := launch.setMem (Memory.writeAll [] 0x1000 [0x34, 0x12, 0x78, 0x56])
    let d := slashR .s32 { modrm := 0x00, sib := none, disp := [] } none
    (readOperand s d .m16x16).map Except.toOption = some (some (.far 0x5678 0x1234)) ∧
      (readOperand s d .m16and16).map Except.toOption = some (some (.bounds .word 0x1234 0x5678)) := by
  decide

theorem test_meets_UndefinedOperandFormsRefused :
    let d := slashR .s32 { modrm := 0xC0, sib := none, disp := [] } none
    d.addr = some { modrm := 0xC0, sib := none, disp := [] } ∧ modField 0xC0 = 3 ∧
      OperandSym.m16and32 ∈ [OperandSym.m16x16, .m16x32, .m16and16, .m32and32, .m16and32] := by decide

theorem test_meets_OperandReadAfterWrite :
    Memory.wf launch.mem = true ∧
      lin launch .ds 0xFFFFFFFC .read 4 = .ok 0xFFFFFFFC ∧
      lin launch .ds 0xFFFFFFFC .write 4 = .ok 0xFFFFFFFC ∧ (0xFFFFFFFC : DWord).toNat + 4 ≤ 2 ^ 32 ∧
      (writeLoc launch .dword 0x11223344 (.mem .ds 0xFFFFFFFC)).toOption.isSome = true ∧
      (writeLoc launch .byte 0x1FF (.reg (RegOperand.ofCode .byte 4))).toOption.isSome = true :=
  ⟨by decide, rfl, rfl, by decide, by decide, by decide⟩

theorem test_meets_CmcComplementsCarry :
    { launch with pc := 0xFFFFFFFE }.pending = PrefixSet.empty ∧
      { launch with pc := 0xFFFFFFFE }.pc.toNat + 1 < 2 ^ 32 := by decide

theorem test_meets_CmcRefusals :
    ({ PrefixSet.empty with g1 := some .lock }.g1 = some .lock) ∧
      ({ PrefixSet.empty with g1 := some .rep }.g1 = some .rep) ∧
      ({ PrefixSet.empty with g1 := some .repne }.g1 = some .repne) ∧
      ({ PrefixSet.empty with opSize := true }.g1 = none ∧
        { PrefixSet.empty with opSize := true } ≠ PrefixSet.empty) ∧
      ({ launch with pc := 0xFFFFFFFF }.pending = PrefixSet.empty) := by decide

theorem test_meets_TwoCmcRestoreCarry :
    exec .cmc launch = .next { launch with cf := true, pc := 0x101 } ∧
      exec .cmc { launch with cf := true, pc := 0x101 } = .next { launch with pc := 0x102 } :=
  ⟨rfl, rfl⟩

theorem test_meets_CmcIgnoresParameters :
    exec .cmc launch = .next { launch with cf := true, pc := 0x101 } ∧
      exec .cmc { launch with pc := 0xFFFFFFFF } = .refused .pcWrap := ⟨rfl, rfl⟩

theorem test_meets_GroupOneRowsRemember : launch.pending.g1 = none := by decide

theorem test_meets_SegmentRowsRemember : launch.pending.seg = none := by decide

theorem test_meets_SizeRowsRemember :
    launch.pending.opSize = false ∧ launch.pending.addrSize = false := by decide

theorem test_meets_SecondByteOfGroupRefused :
    let s := { launch with
      pending := { g1 := some .rep, addrSize := true, opSize := true, seg := some .gs } }
    s.pending.g1 ≠ none ∧ s.pending.seg ≠ none ∧ s.pending.opSize = true ∧
      s.pending.addrSize = true := by decide

theorem test_meets_StepRunsDecodedRow :
    launch.faultMark = none ∧ launch.refusedMark = none ∧ launch.pc ≠ launch.params.endPc ∧
      decodeNext (codeAt [0xF5]) = .ok (.cmc, 1) ∧
      decodeNext (codeAt [0x90]) = .error (.refuse .opcodeNotInSource) ∧
      decodeNext (raisingFrom 0x100 launch) = .error (.fault (.exception .pf 14 (some 4) 0x100)) :=
  ⟨rfl, rfl, by decide, rfl, rfl, rfl⟩

theorem test_meets_NextRowIsTheByteInMemory :
    fetchByte (codeAt [0xF5]) 0 = .ok 0xF5 ∧ encode .cmc = [0xF5] ∧
      fetchByte (codeAt [0x90]) 0 = .ok 0x90 ∧
      (∀ i : Instr, encode i ≠ [0x90]) := ⟨rfl, rfl, rfl, by intro i; cases i <;> decide⟩

theorem test_meets_FinalStateStays : isFinal { launch with pc := 0x200 } = true := by decide

theorem test_meets_MarksEndTheRun :
    isMarked { launch with refusedMark := some .pcWrap } = true ∧ isMarked launch = false ∧
      step (raisingFrom 0x100 launch) = .fault (.exception .pf 14 (some 4) 0x100) ∧
      step (codeAt [0x90]) = .refused .opcodeNotInSource := ⟨rfl, rfl, rfl, rfl⟩

theorem test_meets_FaultsComeFromLin :
    isMarked (raisingFrom 0x101 (codeAt [0x66])) = false ∧
      step { raisingFrom 0x101 (codeAt [0x66]) with
          pending := { PrefixSet.empty with opSize := true } } =
        .fault (.exception .pf 14 (some 4) 0x100) ∧
      instructionStep (raisingFrom 0x101 (codeAt [0x66])) =
        .fault (.exception .pf 14 (some 4) 0x100) := ⟨rfl, rfl, rfl⟩

theorem test_meets_StepChangesCarryAndPcOnly :
    step { launch with pc := 0x200 } = .next { launch with pc := 0x200 } ∧
      step (codeAt [0x66]) =
        .next { codeAt [0x66] with pending := { PrefixSet.empty with opSize := true } } ∧
      step (codeAt [0xF5]) = .next { codeAt [0xF5] with cf := true, pc := 0x101 } := ⟨rfl, rfl, rfl⟩

theorem test_meets_StepKeepsInvariant :
    stateInv (codeAt [0xF5]) = true ∧
      step (codeAt [0xF5]) = .next { codeAt [0xF5] with cf := true, pc := 0x101 } :=
  ⟨by decide, rfl⟩

theorem test_meets_StepsRefineInstructionStep : (codeAt [0x66, 0xF5]).pending = PrefixSet.empty := by
  decide

theorem test_meets_StepIgnoresRegistersAndOtherMemory :
    fetchByte { codeAt [0xF5] with regs := State.reset.regs, mem := [(0, 1), (0x100, 0xF5)] } 0 =
        fetchByte (codeAt [0xF5]) 0 ∧
      step (codeAt [0xF5]) = .next { codeAt [0xF5] with cf := true, pc := 0x101 } ∧
      fetchByte { raisingFrom 0x100 launch with mem := [(0x100, 0xF5)] } 0 =
        fetchByte (raisingFrom 0x100 launch) 0 ∧
      step (raisingFrom 0x100 launch) = .fault (.exception .pf 14 (some 4) 0x100) ∧
      fetchByte { codeAt [0x90] with mem := [(0, 1), (0x100, 0x90)] } 0 = fetchByte (codeAt [0x90]) 0 ∧
      step (codeAt [0x90]) = .refused .opcodeNotInSource := ⟨rfl, rfl, rfl, rfl, rfl, rfl⟩

end Sys2Proof.Tests
end

/-! ## The oracle Lin as a table (rule R14) -/

namespace Sys2Proof.Machine

/-- When a table line speaks of an access, check by check. -/
theorem linApplies_iff {e : LinEntry} {seg : SegReg} {off : DWord} {kind : AccessKind} {n : Nat} :
    linApplies e seg off kind n = true ↔
      e.seg = seg ∧ e.kind = kind ∧ (e.size = none ∨ e.size = some n) ∧
        e.first.toNat ≤ off.toNat ∧ off.toNat ≤ e.last.toNat := by
  simp only [linApplies, Bool.and_eq_true, Bool.or_eq_true, beq_iff_eq, decide_eq_true_eq, and_assoc]

/-- Where some line speaks of an access, and all that do start at its offset and agree, that is the oracle's
answer. -/
theorem linAnswer_of_lines {o : LinOracle} {seg : SegReg} {off : DWord} {kind : AccessKind} {n : Nat}
    {a : LinResult} (hone : ∃ e ∈ o.entries, linApplies e seg off kind n = true)
    (hall : ∀ e ∈ o.entries, linApplies e seg off kind n = true → e.first = off ∧ e.result = a) :
    linAnswer o seg off kind n = a := by
  obtain ⟨e, he⟩ := Option.isSome_iff_exists.1 (List.find?_isSome.2 hone)
  have happ : linApplies e seg off kind n = true := (List.find?_eq_some_iff_append.1 he).1
  obtain ⟨rfl, rfl⟩ := hall e (List.mem_of_find?_eq_some he) happ
  rw [linAnswer, he]
  cases h : e.result <;> simp [h]

/-- With no table line, the oracle answers every access with the segment's base plus the offset. -/
theorem linAnswer_of_no_lines {o : LinOracle} (h : o.entries = []) (seg : SegReg) (off : DWord)
    (kind : AccessKind) (n : Nat) : linAnswer o seg off kind n = .linear (o.bases.get seg + off) := by
  rw [linAnswer, h]
  rfl

/-- The table line that speaks of one access alone and answers it as `g` does. -/
def exactLine (g : SegReg → DWord → AccessKind → Nat → LinResult) (seg : SegReg) (off : DWord)
    (kind : AccessKind) (n : Nat) : LinEntry :=
  { seg := seg, kind := kind, size := some n, first := off, last := off, result := g seg off kind n }

/-- The line of one access speaks of that access and of no other. -/
theorem linApplies_exactLine {g : SegReg → DWord → AccessKind → Nat → LinResult} {seg seg' : SegReg}
    {off off' : DWord} {kind kind' : AccessKind} {n n' : Nat} :
    linApplies (exactLine g seg off kind n) seg' off' kind' n' = true ↔
      seg = seg' ∧ off = off' ∧ kind = kind' ∧ n = n' := by
  have hoff : off = off' ↔ off.toNat ≤ off'.toNat ∧ off'.toNat ≤ off.toNat := by
    rw [← BitVec.toNat_inj]
    omega
  simp only [linApplies_iff, exactLine, hoff, Option.some.injEq, reduceCtorEq, false_or]
  tauto

/-- The six segment registers. -/
def allSegRegs : List SegReg := [.es, .cs, .ss, .ds, .fs, .gs]

theorem mem_allSegRegs (seg : SegReg) : seg ∈ allSegRegs := by
  cases seg <;> simp [allSegRegs]

/-- The three kinds of access. -/
def allAccessKinds : List AccessKind := [.read, .write, .fetch]

theorem mem_allAccessKinds (kind : AccessKind) : kind ∈ allAccessKinds := by
  cases kind <;> simp [allAccessKinds]

/-- The words of a width can be listed. -/
theorem exists_list_of_all_words (w : Nat) : ∃ words : List (BitVec w), ∀ v, v ∈ words :=
  ⟨(List.finRange (2 ^ w)).map BitVec.ofFin,
    fun v => List.mem_map.2 ⟨v.toFin, List.mem_finRange _, rfl⟩⟩

/-- One line for every access at the listed offsets, of a size below the bound. -/
def exactLines (g : SegReg → DWord → AccessKind → Nat → LinResult) (offs : List DWord) (bound : Nat) :
    List LinEntry :=
  allSegRegs.flatMap fun seg => offs.flatMap fun off => allAccessKinds.flatMap fun kind =>
    (List.range bound).map (exactLine g seg off kind)

theorem mem_exactLines {g : SegReg → DWord → AccessKind → Nat → LinResult} {offs : List DWord}
    {bound : Nat} {e : LinEntry} :
    e ∈ exactLines g offs bound ↔
      ∃ seg, ∃ off ∈ offs, ∃ kind, ∃ n < bound, exactLine g seg off kind n = e := by
  simp only [exactLines, List.mem_flatMap, List.mem_map, List.mem_range, mem_allSegRegs,
    mem_allAccessKinds, true_and]

/-- The table with one line per access answers as the function it was made from, whatever the bases. -/
theorem linAnswer_exactLines (bases : PerSeg DWord)
    {g : SegReg → DWord → AccessKind → Nat → LinResult} {offs : List DWord} {bound n : Nat}
    {off : DWord} (hoff : off ∈ offs) (hn : n < bound) (seg : SegReg) (kind : AccessKind) :
    linAnswer { bases := bases, entries := exactLines g offs bound } seg off kind n =
      g seg off kind n := by
  apply linAnswer_of_lines
  · exact ⟨exactLine g seg off kind n, mem_exactLines.2 ⟨seg, off, hoff, kind, n, hn, rfl⟩,
      linApplies_exactLine.2 ⟨rfl, rfl, rfl, rfl⟩⟩
  · intro e he happ
    obtain ⟨seg', off', -, kind', n', -, rfl⟩ := mem_exactLines.1 he
    obtain ⟨rfl, rfl, rfl, rfl⟩ := linApplies_exactLine.1 happ
    exact ⟨rfl, rfl⟩

/-- Settles O18: the table is one line per access of a size below the bound. -/
theorem everyOracleIsATable : Obligations.EveryOracleIsATable := by
  intro g bound
  obtain ⟨offs, hoffs⟩ := exists_list_of_all_words 32
  exact ⟨{ bases := { es := 0, cs := 0, ss := 0, ds := 0, fs := 0, gs := 0 },
           entries := exactLines g offs bound },
    fun seg off kind n hn => linAnswer_exactLines _ (hoffs off) hn seg kind⟩

/-- Settles O19. -/
theorem linAddsSegmentBase : Obligations.LinAddsSegmentBase := by
  intro s seg off kind n hnil
  exact ⟨_, lin_eq_ok.2 (linAnswer_of_no_lines hnil seg off kind n), BitVec.toNat_add _ _⟩

/-! ## FetchByte (rules R12, R80) -/

/-- Where `Lin` answers an address, the fetch is decided by whether the run has stored there. -/
theorem fetchByte_of_lin_ok {s : State} {k : Nat} {a : DWord}
    (h : lin s .cs (s.pc + BitVec.ofNat 32 k) .fetch 1 = .ok a) :
    fetchByte s k =
      if a.toNat ∈ s.written then refuse .fetchOfWrittenByte else .ok (Memory.read s.mem a.toNat) := by
  simp only [fetchByte, h, List.contains_iff_mem]

/-- The fetch stops as `Lin` stops. -/
theorem fetchByte_of_lin_error {s : State} {k : Nat} {e : Stop}
    (h : lin s .cs (s.pc + BitVec.ofNat 32 k) .fetch 1 = .error e) : fetchByte s k = .error e := by
  simp only [fetchByte, h]

/-- Settles O17, by the two answers of the oracle. -/
theorem fetchByteCases : Obligations.FetchByteCases := by
  intro s k
  constructor
  · intro a ha
    have hfetch := fetchByte_of_lin_ok (lin_eq_ok.2 ha)
    constructor
    · intro hw
      rw [hfetch, if_pos hw, refuse]
    · intro hw
      rw [hfetch, if_neg hw]
  · intro x c hx
    exact fetchByte_of_lin_error (lin_eq_error.2 ⟨x, c, hx, rfl⟩)

end Sys2Proof.Machine

/-! ## The rows and their bytes (rules R131, R167) -/

namespace Sys2Proof

/-- Only the byte of a `PrefixByte` reads as it. -/
theorem PrefixByte.toByte_of_ofByte {b : Byte} {x : PrefixByte} (h : PrefixByte.ofByte b = some x) :
    x.toByte = b := by
  unfold PrefixByte.ofByte at h
  split at h <;> cases h
  all_goals exact BitVec.eq_of_toNat_eq (Eq.symm ‹_›)

/-- The row of a `PrefixByte` is encoded as the byte it stands for. -/
theorem encode_row (x : PrefixByte) : encode x.row = [x.toByte] := by
  rcases x with b | _ | _ | r
  · cases b <;> rfl
  · rfl
  · rfl
  · cases r <;> rfl

/-- Every well-formed row but CMC is the row of a `PrefixByte`. -/
theorem exists_prefixByte_of_wellFormed {i : Instr} (hwf : i.wellFormed = true) (hne : i ≠ .cmc) :
    ∃ x : PrefixByte, x.row = i := by
  cases i with
  | cmc => exact absurd rfl hne
  | repeRepz => simp [Instr.wellFormed] at hwf
  | rep => exact ⟨.g1 .rep, rfl⟩
  | repneRepnz => exact ⟨.g1 .repne, rfl⟩
  | lock => exact ⟨.g1 .lock, rfl⟩
  | segCS => exact ⟨.seg .cs, rfl⟩
  | segSS => exact ⟨.seg .ss, rfl⟩
  | segDS => exact ⟨.seg .ds, rfl⟩
  | segES => exact ⟨.seg .es, rfl⟩
  | segFS => exact ⟨.seg .fs, rfl⟩
  | segGS => exact ⟨.seg .gs, rfl⟩
  | opsize => exact ⟨.opSize, rfl⟩
  | addrsize => exact ⟨.addrSize, rfl⟩

/-- A byte that encodes no row is no `PrefixByte`. -/
theorem ofByte_eq_none_of_no_row {b : Byte} (h : ∀ i : Instr, encode i ≠ [b]) :
    PrefixByte.ofByte b = none := by
  cases hx : PrefixByte.ofByte b with
  | none => rfl
  | some x =>
    have henc : encode x.row = [b] := by rw [encode_row, PrefixByte.toByte_of_ofByte hx]
    exact absurd henc (h x.row)

/-! ## The decoder over the spec's table, at a byte that can be fetched (rule R111) -/

section
variable {ε : Type} {f : Fetcher ε} {k : Nat} {b : Byte}

open Machine (cmcTemplate_eq)

/-- The spec's one template matches the byte F5H alone, under every operand size. -/
theorem matchTemplate_cmcTemplate (h : f.fetch k = .ok b) (os : Size) :
    matchTemplate f k os cmcTemplate = .ok (b == 0xF5) := by
  have hop : matchOpcode f k false [0xF5] = .ok (b == 0xF5) := by
    simp [matchOpcode, h, bind, Except.bind, pure, Except.pure]
  simp only [matchTemplate, cmcTemplate_eq, Option.isSome_none, hop]
  cases b == 0xF5 <;> rfl

/-- Rule R111 with the spec's one template: F5H is CMC, and any other byte is refused. -/
theorem selectTemplate_templates (h : f.fetch k = .ok b) (os : Size) :
    selectTemplate f k os templates =
      if b = 0xF5 then .ok cmcTemplate else .error (f.refuse .opcodeNotInSource) := by
  simp only [selectTemplate, templates, candidates, matchTemplate_cmcTemplate h]
  by_cases hb : b = 0xF5
  · rw [if_pos hb, hb]
    rfl
  · rw [if_neg hb, beq_eq_false_iff_ne.2 hb]
    rfl

/-- CMC as a decoded instruction, under the remembered bytes before it. -/
def decodedCmc (os as : Size) (p : PrefixSet) : Decoded :=
  { prefixes := p, opSize := overridden os p.opSize, addrSize := overridden as p.addrSize,
    template := cmcTemplate, regCode := none, addr := none, moffs := [], code := [], imms := [] }

/-- F5H is the whole of CMC, and is short enough behind any remembered bytes. -/
theorem decodeBody_cmc (h : f.fetch k = .ok 0xF5) (os as : Size) (p : PrefixSet) :
    decodeBody f (specEnv os as) p k = .ok (decodedCmc os as p) := by
  have hlen : ¬ maxInstrLen < (decodedCmc os as p).length := by
    have hcount := Machine.PrefixSet.count_le p
    simp only [Decoded.length, Decoded.bodyLength, decodedCmc, cmcTemplate_eq, maxInstrLen, addrLength,
      List.length_cons, List.length_nil, List.map_nil, List.sum_nil]
    omega
  have hsel := selectTemplate_templates h (overridden os p.opSize)
  rw [if_pos rfl] at hsel
  simp only [decodeBody, specEnv, hsel]
  exact if_neg hlen

/-- A first opcode byte of no template ends the decoding. -/
theorem decodeBody_of_ne (h : f.fetch k = .ok b) (hb : b ≠ 0xF5) (os as : Size) (p : PrefixSet) :
    decodeBody f (specEnv os as) p k = .error (f.refuse .opcodeNotInSource) := by
  have hsel := selectTemplate_templates h (overridden os p.opSize)
  rw [if_neg hb] at hsel
  simp only [decodeBody, specEnv, hsel]
  rfl

/-- A `PrefixByte` is a unit of its own. -/
theorem decodeUnit_prefix {p : PrefixSet} {x : PrefixByte} (h : f.fetch p.count = .ok b)
    (hx : PrefixByte.ofByte b = some x) (env : DecodeEnv) :
    decodeUnit f env p = .ok (x.row, 1) := by
  simp only [decodeUnit, h, bind, Except.bind, hx]
  rfl

/-- A byte that is no `PrefixByte` starts an instruction body. -/
theorem decodeUnit_body {p : PrefixSet} (h : f.fetch p.count = .ok b)
    (hx : PrefixByte.ofByte b = none) (env : DecodeEnv) :
    decodeUnit f env p =
      (decodeBody f env p p.count).map fun d => (d.template.row, d.bodyLength) := by
  simp only [decodeUnit, h, bind, Except.bind, hx]
  cases decodeBody f env p p.count <;> rfl

/-- The unit at the byte of a well-formed row is that row, one byte long. -/
theorem decodeUnit_encode {p : PrefixSet} {i : Instr} (h : f.fetch p.count = .ok b)
    (hwf : i.wellFormed = true) (henc : encode i = [b]) (os as : Size) :
    decodeUnit f (specEnv os as) p = .ok (i, 1) := by
  by_cases hi : i = .cmc
  · subst hi
    obtain rfl : 0xF5 = b := List.singleton_inj.1 henc
    rw [decodeUnit_body h rfl, decodeBody_cmc h]
    rfl
  · obtain ⟨x, rfl⟩ := exists_prefixByte_of_wellFormed hwf hi
    obtain rfl : x.toByte = b := List.singleton_inj.1 ((encode_row x).symm.trans henc)
    exact decodeUnit_prefix h x.ofByte_toByte _

/-- A byte of no row is refused. -/
theorem decodeUnit_no_row {p : PrefixSet} (h : f.fetch p.count = .ok b)
    (hno : ∀ i : Instr, encode i ≠ [b]) (os as : Size) :
    decodeUnit f (specEnv os as) p = .error (f.refuse .opcodeNotInSource) := by
  have hne : b ≠ 0xF5 := by
    rintro rfl
    exact hno .cmc rfl
  rw [decodeUnit_body h (ofByte_eq_none_of_no_row hno), decodeBody_of_ne h hne]
  rfl

end

/-- Settles O51: the decoder over the spec's table, with memory as the supply of bytes. -/
theorem nextRowIsTheByteInMemory : Obligations.NextRowIsTheByteInMemory := by
  intro s b hb
  have hfetch : (Machine.stateFetcher s).fetch s.pending.count = .ok b := hb
  constructor
  · intro i hwf henc
    exact decodeUnit_encode hfetch hwf henc _ _
  · intro hno
    exact decodeUnit_no_row hfetch hno _ _

end Sys2Proof

/-! ## Registers and their narrow views (rules R20 to R22) -/

namespace Sys2Proof.Machine

/-- Both narrow kinds of register are codes of the same table (rule R22). -/
theorem Reg8.gpr_ofCode (c : BitVec 3) :
    Reg8.gpr (Reg8.ofCode c) = if c.toNat < 4 then Gpr.ofCode c else Gpr.ofCode (c - 4) := by
  revert c
  decide

theorem Reg8.isHigh_ofCode (c : BitVec 3) : Reg8.isHigh (Reg8.ofCode c) = true ↔ 4 ≤ c.toNat := by
  revert c
  decide

/-- A doubleword write changes its own register only. -/
theorem GprFile.get32_set32 (f : GprFile) (r q : Gpr) (v : DWord) :
    (f.set32 r v).get32 q = if q = r then v else f.get32 q := by
  cases r <;> cases q <;> rfl

theorem GprFile.getLsbD_get16 (f : GprFile) (r : Gpr) {i : Nat} (hi : i < 16) :
    (f.get16 r).getLsbD i = (f.get32 r).getLsbD i := by
  simp [GprFile.get16, hi]

theorem GprFile.getLsbD_get8 (f : GprFile) (r : Reg8) {i : Nat} (hi : i < 8) :
    (f.get8 r).getLsbD i = (f.get32 (Reg8.gpr r)).getLsbD (if Reg8.isHigh r then i + 8 else i) := by
  cases hr : Reg8.isHigh r <;> simp [GprFile.get8, hr, hi, Nat.add_comm]

/-- Replacing the low bits of a bit vector, bit by bit. -/
theorem getLsbD_replaceLow {k n : Nat} (w : BitVec (n + k)) (v : BitVec k) (i : Nat) :
    (w.extractLsb' k n ++ v).getLsbD i = if i < k then v.getLsbD i else w.getLsbD i := by
  rw [BitVec.getLsbD_append]
  by_cases hi : i < k
  · simp only [hi, if_true]
  · have hmove : k + (i - k) = i := by omega
    simp only [hi, if_false, BitVec.getLsbD_extractLsb', hmove, Bool.and_eq_right_iff_imp,
      decide_eq_true_eq]
    intro hbit
    have hlt := BitVec.lt_of_getLsbD hbit
    omega

theorem getLsbD_replaceLowWord (w : DWord) (v : Word) (i : Nat) :
    (w.extractLsb' 16 16 ++ v).getLsbD i = if i < 16 then v.getLsbD i else w.getLsbD i :=
  getLsbD_replaceLow (k := 16) (n := 16) w v i

theorem getLsbD_replaceLowByte (w : DWord) (v : Byte) (i : Nat) :
    (w.extractLsb' 8 24 ++ v).getLsbD i = if i < 8 then v.getLsbD i else w.getLsbD i :=
  getLsbD_replaceLow (k := 8) (n := 24) w v i

/-- Replacing the second lowest byte of a doubleword is replacing its low word by that byte above the
lowest one. -/
theorem getLsbD_replaceHighByte (w : DWord) (v : Byte) (i : Nat) :
    (w.extractLsb' 16 16 ++ v ++ w.extractLsb' 0 8).getLsbD i =
      if 8 ≤ i ∧ i < 16 then v.getLsbD (i - 8) else w.getLsbD i := by
  have hassoc : w.extractLsb' 16 16 ++ v ++ w.extractLsb' 0 8 =
      w.extractLsb' 16 16 ++ (v ++ w.extractLsb' 0 8 : Word) := BitVec.append_assoc
  have hlowWord : (v ++ w.extractLsb' 0 8 : Word).getLsbD i =
      if i < 8 then (w.extractLsb' 0 8).getLsbD i else v.getLsbD (i - 8) := BitVec.getLsbD_append
  rw [hassoc, getLsbD_replaceLowWord, hlowWord]
  by_cases hlow : i < 8
  · have hword : i < 16 := by omega
    have hnot : ¬ 8 ≤ i := by omega
    simp [hlow, hword, hnot]
  · simp [hlow, Nat.le_of_not_lt hlow]

/-- A word write changes the low 16 bits of its own register only. -/
theorem GprFile.getLsbD_set16 (f : GprFile) (r q : Gpr) (v : Word) (i : Nat) :
    ((f.set16 r v).get32 q).getLsbD i =
      if q = r ∧ i < 16 then v.getLsbD i else (f.get32 q).getLsbD i := by
  rw [GprFile.set16, GprFile.get32_set32]
  by_cases hq : q = r
  · simp only [hq, if_true, true_and, getLsbD_replaceLowWord]
  · simp [hq]

/-- A byte write changes the 8 bits of that byte in its own register only. -/
theorem GprFile.getLsbD_set8 (f : GprFile) (r : Reg8) (q : Gpr) (v : Byte) (i : Nat) :
    ((f.set8 r v).get32 q).getLsbD i =
      let low := if Reg8.isHigh r then 8 else 0
      if q = Reg8.gpr r ∧ low ≤ i ∧ i < low + 8 then v.getLsbD (i - low)
      else (f.get32 q).getLsbD i := by
  rw [GprFile.set8, GprFile.get32_set32]
  by_cases hq : q = Reg8.gpr r
  · subst hq
    cases hr : Reg8.isHigh r
    · simp [getLsbD_replaceLowByte]
    · simp [getLsbD_replaceHighByte]
  · simp [hq]

/-- Settles O12, bit by bit from the layout of the two narrow writes. -/
theorem narrowRegistersAreViews : Obligations.NarrowRegistersAreViews :=
  ⟨fun c => ⟨Reg8.gpr_ofCode c, Reg8.isHigh_ofCode c⟩,
    fun f r _ hi => f.getLsbD_get16 r hi,
    fun f r _ hi => f.getLsbD_get8 r hi,
    GprFile.get32_set32, GprFile.getLsbD_set16, GprFile.getLsbD_set8⟩

@[simp] theorem GprFile.get32_set32_same (f : GprFile) (r : Gpr) (v : DWord) :
    (f.set32 r v).get32 r = v := by
  simp [GprFile.get32_set32]

@[simp] theorem GprFile.get16_set16_same (f : GprFile) (r : Gpr) (v : Word) :
    (f.set16 r v).get16 r = v :=
  BitVec.eq_of_getLsbD_eq fun i hi => by
    rw [GprFile.getLsbD_get16 _ r hi, GprFile.getLsbD_set16, if_pos ⟨rfl, hi⟩]

@[simp] theorem GprFile.get8_set8_same (f : GprFile) (r : Reg8) (v : Byte) :
    (f.set8 r v).get8 r = v :=
  BitVec.eq_of_getLsbD_eq fun i hi => by
    rw [GprFile.getLsbD_get8 _ r hi, GprFile.getLsbD_set8]
    cases hr : Reg8.isHigh r <;> simp [hi]

theorem RegOperand.bits_ofCode (w : DataWidth) (c : BitVec 3) : (RegOperand.ofCode w c).bits = w.bits := by
  cases w <;> rfl

/-- The low `k` bits of a doubleword, zero-extended. -/
theorem toNat_setWidth_setWidth {k : Nat} (hk : k ≤ 32) (v : DWord) :
    ((v.setWidth k).setWidth 32).toNat = v.toNat % 2 ^ k := by
  rw [BitVec.toNat_setWidth_of_le hk, BitVec.toNat_setWidth]

/-- A register of any kind reads back what was written, cut to its width. -/
theorem RegOperand.read_write_same (r : RegOperand) (v : DWord) (f : GprFile) :
    (r.read (r.write v f)).toNat = v.toNat % 2 ^ r.bits := by
  cases r with
  | r8 x =>
    rw [RegOperand.read, RegOperand.write, GprFile.get8_set8_same]
    exact toNat_setWidth_setWidth (by decide) v
  | r16 x =>
    rw [RegOperand.read, RegOperand.write, GprFile.get16_set16_same]
    exact toNat_setWidth_setWidth (by decide) v
  | r32 x =>
    rw [RegOperand.read, RegOperand.write, GprFile.get32_set32_same]
    exact (Nat.mod_eq_of_lt v.isLt).symm

/-! ## Operands in memory (rules R60, R63, R80) -/

section
variable {s t : State} {a : DWord} {n v : Nat}

/-- In canonical memory a store reads back as its own bytes. -/
theorem readAll_of_memWrite (hwf : Memory.wf s.mem = true) (h : memWrite s a n v = .ok t) :
    Memory.readAll t.mem a.toNat n = leBytes n v := by
  obtain ⟨hfit, rfl⟩ := memWrite_eq_ok.1 h
  have hback := Memory.readAll_writeAll hwf (leBytes n v) (a := a.toNat) (by simpa using hfit)
  rwa [leBytes_length] at hback

/-- A store leaves every byte beside its own alone. -/
theorem read_of_memWrite_outside (h : memWrite s a n v = .ok t) {x : Nat}
    (hx : x < a.toNat ∨ a.toNat + n ≤ x) : Memory.read t.mem x = Memory.read s.mem x := by
  obtain ⟨-, rfl⟩ := memWrite_eq_ok.1 h
  exact Memory.read_writeAll_outside s.mem (leBytes n v) (by simpa using hx)

/-- The addresses of a store are what it adds to `Written`. -/
theorem mem_written_of_memWrite (h : memWrite s a n v = .ok t) (x : Nat) :
    x ∈ t.written ↔ x ∈ s.written ∨ (a.toNat ≤ x ∧ x < a.toNat + n) := by
  obtain ⟨-, rfl⟩ := memWrite_eq_ok.1 h
  exact Written.mem_insertAll s.written a.toNat n x

/-- A store touches memory and `Written` only. -/
theorem memWrite_frame (h : memWrite s a n v = .ok t) :
    t = { s with mem := t.mem, written := t.written } := by
  obtain ⟨-, rfl⟩ := memWrite_eq_ok.1 h
  rfl

end

theorem DataWidth.pow_bytes (w : DataWidth) : 256 ^ w.bytes = 2 ^ w.bits := by
  cases w <;> rfl

/-- The bytes of a doubleword cut to a data width are its value cut to that width. -/
theorem toNat_ofNat_leValue_leBytes (w : DataWidth) (v : DWord) :
    (BitVec.ofNat 32 (leValue (leBytes w.bytes v.toNat))).toNat = v.toNat % 2 ^ w.bits := by
  rw [leValue_leBytes, DataWidth.pow_bytes, BitVec.toNat_ofNat]
  exact Nat.mod_eq_of_lt (lt_of_le_of_lt (Nat.mod_le _ _) v.isLt)

/-- Reading a memory operand where `Lin` answers an address with room for it. -/
theorem readLoc_mem_of_lin {s : State} {w : DataWidth} {seg : SegReg} {ea a : DWord}
    (hfit : a.toNat + w.bytes ≤ linearSize) (hlin : lin s seg ea .read w.bytes = .ok a) :
    readLoc s w (.mem seg ea) =
      .ok (BitVec.ofNat 32 (leValue (Memory.readAll s.mem a.toNat w.bytes))) :=
  readLoc_mem_eq_ok.2 ⟨_, readMemOperand_eq_ok.2 ⟨a, hlin, hfit, rfl⟩, rfl⟩

/-- Writing a memory operand is `MemWrite` at the address `Lin` answers; it succeeds where it has room. -/
theorem writeLoc_mem_of_lin {s : State} {w : DataWidth} {seg : SegReg} {ea a : DWord}
    (hfit : a.toNat + w.bytes ≤ linearSize) (hlin : lin s seg ea .write w.bytes = .ok a) (v : DWord) :
    ∃ t, memWrite s a w.bytes v.toNat = .ok t ∧ writeLoc s w v (.mem seg ea) = .ok t := by
  have hstore := (memWrite_eq_ok (s := s) (v := v.toNat)).2 ⟨hfit, rfl⟩
  exact ⟨_, hstore, writeLoc_mem_eq_ok.2 ⟨a, hlin, hstore⟩⟩

/-- What was written to a memory operand reads back, cut to its width. -/
theorem readLoc_of_writeLoc_mem {s t : State} {w : DataWidth} {seg : SegReg} {ea v : DWord}
    (hwf : Memory.wf s.mem = true)
    (hsame : lin s seg ea .read w.bytes = lin s seg ea .write w.bytes)
    (h : writeLoc s w v (.mem seg ea) = .ok t) :
    ∃ r, readLoc t w (.mem seg ea) = .ok r ∧ r.toNat = v.toNat % 2 ^ w.bits := by
  obtain ⟨a, hlin, hstore⟩ := writeLoc_mem_eq_ok.1 h
  obtain ⟨hfit, -⟩ := memWrite_eq_ok.1 hstore
  have hparams : t.params = s.params := by rw [memWrite_frame hstore]
  have hread : lin t seg ea .read w.bytes = .ok a := (lin_ok_congr hparams).2 (hsame.trans hlin)
  refine ⟨_, readLoc_mem_of_lin hfit hread, ?_⟩
  rw [readAll_of_memWrite hwf hstore, toNat_ofNat_leValue_leBytes]

/-- What was written to a register operand reads back, cut to its width. -/
theorem readLoc_of_writeLoc_reg {s t : State} {w : DataWidth} {c : BitVec 3} {v : DWord}
    (h : writeLoc s w v (.reg (RegOperand.ofCode w c)) = .ok t) :
    ∃ r, readLoc t w (.reg (RegOperand.ofCode w c)) = .ok r ∧ r.toNat = v.toNat % 2 ^ w.bits := by
  cases h
  refine ⟨_, readLoc_reg _ _ _, ?_⟩
  rw [State.setRegs_regs, RegOperand.read_write_same, RegOperand.bits_ofCode]

/-- Settles O41: the accesses at a register and in memory, then the read after the write. -/
theorem operandReadAfterWrite : Obligations.OperandReadAfterWrite := by
  refine ⟨fun s w v => ⟨fun r => ⟨rfl, rfl⟩, fun r => ⟨rfl, rfl⟩, fun r => ⟨rfl, rfl⟩⟩, ?_, ?_⟩
  · intro s w seg ea a hfit
    refine ⟨readLoc_mem_of_lin hfit, fun hwf hlin v => ?_⟩
    obtain ⟨t, hstore, hwrite⟩ := writeLoc_mem_of_lin hfit hlin v
    exact ⟨t, hwrite, readAll_of_memWrite hwf hstore, fun x => read_of_memWrite_outside hstore,
      mem_written_of_memWrite hstore, memWrite_frame hstore⟩
  · intro s t w loc v hwf hreg hmem h
    cases loc with
    | reg c =>
      obtain ⟨code, rfl⟩ := hreg c rfl
      exact readLoc_of_writeLoc_reg h
    | mem seg ea => exact readLoc_of_writeLoc_mem hwf (hmem seg ea rfl) h

/-! ## Flags (rules R28, R29) -/

/-- Settles O13, one convention after the other. -/
theorem flagConventions : Obligations.FlagConventions :=
  fun _ _ _ => ⟨rfl, rfl, rfl, rfl, rfl⟩

/-! ## Where CMC stops (rules R150, R151, R156, R160, R210) -/

theorem checkCmcPrefixes_of_checkG1 {p : PrefixSet} {e : Stop} (h : checkG1 p = .error e) :
    checkCmcPrefixes p = .error e :=
  bind_eq_error.2 (.inl h)

/-- With no group-1 byte, any remembered byte is refused. -/
theorem checkCmcPrefixes_of_ne_empty {p : PrefixSet} (hg : p.g1 = none) (hne : p ≠ PrefixSet.empty) :
    checkCmcPrefixes p = .error (.refuse .prefixNotShown) :=
  bind_eq_error.2 (.inr ⟨(), by rw [checkG1, hg], by rw [if_neg hne, refuse]⟩)

/-- CMC stops where the check of the bytes before it does. -/
theorem exec_cmc_of_checkCmcPrefixes {s : State} {r : Refusal}
    (h : checkCmcPrefixes s.pending = .error (.refuse r)) : exec .cmc s = .refused r :=
  outcome_eq_refused.2 (bind_eq_error.2 (.inl h))

/-- With no byte before it, CMC stops where its end does not fit. -/
theorem exec_cmc_of_pcWrap {s : State} (hp : s.pending = PrefixSet.empty)
    (hpc : 2 ^ 32 ≤ s.pc.toNat + 1) : exec .cmc s = .refused .pcWrap := by
  have hend : endInstruction s 1 = .error (.refuse .pcWrap) :=
    bind_eq_error.2 (.inl (endOffset_eq_error.2 ⟨hpc, rfl⟩))
  exact outcome_eq_refused.2
    (bind_eq_error.2 (.inr ⟨(), checkCmcPrefixes_eq_ok.2 hp, bind_eq_error.2 (.inl hend)⟩))

/-- Settles O43, in the order CMC makes its tests. -/
theorem cmcRefusals : Obligations.CmcRefusals := by
  intro s
  refine ⟨fun hg => ?_, fun hg => ?_, fun hg hne => ?_, fun hp hpc => ?_⟩
  · exact exec_cmc_of_checkCmcPrefixes (checkCmcPrefixes_of_checkG1 (by simp [checkG1, hg, refuse]))
  · refine exec_cmc_of_checkCmcPrefixes (checkCmcPrefixes_of_checkG1 ?_)
    rcases hg with hg | hg <;> simp [checkG1, hg, refuse]
  · exact exec_cmc_of_checkCmcPrefixes (checkCmcPrefixes_of_ne_empty hg hne)
  · exact exec_cmc_of_pcWrap hp (by rw [hpc]; decide)

/-! ## Marks (rules R40, R213, R258, R259) -/

theorem isMarked_eq_false {s : State} :
    isMarked s = false ↔ s.faultMark = none ∧ s.refusedMark = none := by
  simp [isMarked]

theorem advance_of_marked {s : State} (h : isMarked s = true) : advance s = s :=
  if_pos h

/-- A mark ends the run: no number of steps changes a marked state. -/
theorem advanceN_of_marked {s : State} (h : isMarked s = true) (n : Nat) : advanceN n s = s := by
  induction n with
  | zero => rfl
  | succ n ih => rw [advanceN, advance_of_marked h, ih]

section
variable {s : State} (h : isMarked s = false)
include h

/-- From an unmarked state, a next state is where the advance goes. -/
theorem advance_of_next {t : State} (hstep : step s = .next t) : advance s = t := by
  simp [advance, h, hstep]

/-- From an unmarked state, a fault is marked. -/
theorem advance_of_fault {f : Fault} (hstep : step s = .fault f) : advance s = markFault s f := by
  simp [advance, h, hstep]

/-- From an unmarked state, a refusal is marked. -/
theorem advance_of_refused {r : Refusal} (hstep : step s = .refused r) :
    advance s = markRefused s r := by
  simp [advance, h, hstep]

end

/-- Settles O53, by what one advance does. -/
theorem marksEndTheRun : Obligations.MarksEndTheRun :=
  ⟨fun s n h => ⟨advanceN_of_marked h n, by simp [isFinal, h]⟩,
    fun _ _ h hfault => advance_of_fault h hfault,
    fun _ _ h hrefused => advance_of_refused h hrefused⟩

/-! ## What a step changes and what it keeps (rules R40, R213) -/

/-- The three ways a step answers a next state: it stays where the run is over, it remembers one more
byte, or it completes CMC. -/
theorem step_next_cases {s t : State} (h : step s = .next t) :
    (isOver s = true ∧ t = s) ∨
      (isOver s = false ∧ isMarked s = false ∧
        ∃ p, p.count = s.pending.count + 1 ∧ t = s.setPending p) ∨
      (s.pending = PrefixSet.empty ∧ s.pc.toNat + 1 < 2 ^ 32 ∧
        t = (s.setPc (s.pc + 1)).setCf (!s.cf)) := by
  obtain ⟨hf, hr, ⟨hover, rfl⟩ | ⟨hover, i, n, -, hexec⟩⟩ := step_eq_next h
  · exact .inl ⟨hover, rfl⟩
  · obtain ⟨-, hp, hpc, rfl⟩ | ⟨-, x, p, hadd, rfl⟩ := exec_eq_next hexec
    · exact .inr (.inr ⟨hp, hpc, rfl⟩)
    · exact .inr (.inl ⟨hover, isMarked_eq_false.2 ⟨hf, hr⟩, p, PrefixSet.count_add hadd, rfl⟩)

/-- Settles O55, by the three ways a step answers a next state. -/
theorem stepChangesCarryAndPcOnly : Obligations.StepChangesCarryAndPcOnly := by
  intro s t h
  obtain ⟨hover, rfl⟩ | ⟨-, -, p, hcount, rfl⟩ | ⟨hp, hpc, rfl⟩ := step_next_cases h
  · exact ⟨rfl, .inl ⟨rfl, beq_iff_eq.1 hover⟩⟩
  · exact ⟨rfl, .inr (.inl ⟨rfl, rfl, hcount⟩)⟩
  · have hnext : (s.pc + 1).toNat = s.pc.toNat + 1 := BitVec.toNat_add_of_lt hpc
    exact ⟨rfl, .inr (.inr ⟨rfl, hnext, hp, hp⟩)⟩

/-- The invariant of a state, part by part. -/
theorem stateInv_iff {s : State} :
    stateInv s = true ↔
      Memory.wf s.mem = true ∧ Written.wf s.written = true ∧
        (s.pending = PrefixSet.empty ∨ (isOver s = false ∧ isMarked s = false)) := by
  simp [stateInv, and_assoc]

/-- A state with the memory and `Written` of one that meets the invariant, and no byte
remembered, meets it. -/
theorem stateInv_of_pending_empty {s t : State} (h : stateInv s = true) (hmem : t.mem = s.mem)
    (hwritten : t.written = s.written) (hp : t.pending = PrefixSet.empty) : stateInv t = true := by
  obtain ⟨hm, hw, -⟩ := stateInv_iff.1 h
  exact stateInv_iff.2 ⟨hmem ▸ hm, hwritten ▸ hw, .inl hp⟩

/-- Bytes may be remembered where the run is neither over nor stopped. -/
theorem stateInv_setPending {s : State} (h : stateInv s = true) (hover : isOver s = false)
    (hmark : isMarked s = false) (p : PrefixSet) : stateInv (s.setPending p) = true := by
  obtain ⟨hm, hw, -⟩ := stateInv_iff.1 h
  exact stateInv_iff.2 ⟨hm, hw, .inr ⟨hover, hmark⟩⟩

/-- A step that answers a next state keeps the invariant. -/
theorem step_keeps_stateInv {s t : State} (h : stateInv s = true) (hstep : step s = .next t) :
    stateInv t = true := by
  obtain ⟨-, rfl⟩ | ⟨hover, hmark, p, -, rfl⟩ | ⟨hp, -, rfl⟩ := step_next_cases hstep
  · exact h
  · exact stateInv_setPending h hover hmark p
  · exact stateInv_of_pending_empty h rfl rfl hp

/-- Every advance keeps the invariant; a stop does because it forgets the remembered bytes. -/
theorem advance_keeps_stateInv {s : State} (h : stateInv s = true) : stateInv (advance s) = true := by
  cases hmark : isMarked s with
  | true => rwa [advance_of_marked hmark]
  | false =>
    cases hstep : step s with
    | next t =>
      rw [advance_of_next hmark hstep]
      exact step_keeps_stateInv h hstep
    | fault f =>
      rw [advance_of_fault hmark hstep]
      exact stateInv_of_pending_empty h rfl rfl rfl
    | refused r =>
      rw [advance_of_refused hmark hstep]
      exact stateInv_of_pending_empty h rfl rfl rfl

/-- Settles O56: both ways of taking a step keep the invariant. -/
theorem stepKeepsInvariant : Obligations.StepKeepsInvariant :=
  ⟨fun _ _ => step_keeps_stateInv, fun _ => advance_keeps_stateInv⟩

end Sys2Proof.Machine

/-! ## Memory access (rules R60, R62, R63, R65, R80) -/

namespace Sys2Proof.Machine

/-- A store with room for it succeeds. -/
theorem exists_memWrite_eq_ok (s : State) {a : DWord} {n : Nat} (hfit : a.toNat + n ≤ 2 ^ 32) (v : Nat) :
    ∃ t, memWrite s a n v = .ok t :=
  ⟨_, memWrite_eq_ok.2 ⟨hfit, rfl⟩⟩

/-- An access past the end of the linear space is refused, storing or reading. -/
theorem memWrite_of_linearWrap (s : State) {a : DWord} {n : Nat} (h : 2 ^ 32 < a.toNat + n) (v : Nat) :
    memWrite s a n v = .error (.refuse .linearWrap) :=
  if_pos h

theorem memRead_of_linearWrap (s : State) {a : DWord} {n : Nat} (h : 2 ^ 32 < a.toNat + n) :
    memRead s a n = .error (.refuse .linearWrap) := by
  have hbytes : memReadBytes s a n = .error (.refuse .linearWrap) := if_pos h
  rw [memRead, hbytes]

/-- Settles O16, by the frame lemmas of a store. -/
theorem storeFrame : Obligations.StoreFrame :=
  ⟨fun _ _ _ _ _ h => ⟨fun _ => read_of_memWrite_outside h, mem_written_of_memWrite h, memWrite_frame h⟩,
    fun s _ _ v h => ⟨memWrite_of_linearWrap s h v, memRead_of_linearWrap s h⟩⟩

/-- Settles O15: the stored bytes are read back, and they are those of the value cut to their number. -/
theorem storeThenLoad : Obligations.StoreThenLoad := by
  intro s a n v hwf hfit
  obtain ⟨t, hstore⟩ := exists_memWrite_eq_ok s hfit v
  refine ⟨t, hstore, memRead_eq_ok.2 ⟨hfit, ?_⟩⟩
  rw [readAll_of_memWrite hwf hstore, leValue_leBytes]

/-- The value of two bytes in memory order is the word with the second above the first. -/
theorem leValue_pair (lo hi : Byte) : leValue [lo, hi] = (hi ++ lo).toNat := by
  rw [BitVec.toNat_append, ← Nat.shiftLeft_add_eq_or_of_lt lo.isLt, Nat.shiftLeft_eq]
  simp only [leValue]
  omega

/-- The two bytes of a word in memory order. -/
theorem leBytes_word (v : Word) : leBytes 2 v.toNat = [v.extractLsb' 0 8, v.extractLsb' 8 8] := by
  have hlow : BitVec.ofNat 8 v.toNat = v.extractLsb' 0 8 := by
    apply BitVec.eq_of_toNat_eq
    simp
  have hhigh : BitVec.ofNat 8 (v.toNat / 256) = v.extractLsb' 8 8 := by
    apply BitVec.eq_of_toNat_eq
    simp [Nat.shiftRight_eq_div_pow]
  simp only [leBytes, hlow, hhigh]

/-- Settles O14: the two bytes at the address, read as a value and found after a store. -/
theorem wordLowByteFirst : Obligations.WordLowByteFirst := by
  constructor
  · intro s a hfit
    exact memRead_eq_ok.2 ⟨hfit, (leValue_pair _ _).symm⟩
  · intro s a v hwf hfit
    obtain ⟨t, hstore⟩ := exists_memWrite_eq_ok s hfit v.toNat
    have hbytes := readAll_of_memWrite hwf hstore
    simp only [leBytes_word, Memory.readAll, List.cons.injEq, and_true] at hbytes
    exact ⟨t, hstore, hbytes⟩

/-! ## The default segment (rule R73) -/

/-- A mod field of a memory form that is not 00 is 01 or 10. -/
theorem mod_ne_zero_iff {mod : BitVec 2} (h : mod ≠ 3) : mod ≠ 0 ↔ mod = 1 ∨ mod = 2 := by
  revert mod
  decide

/-- Settles O34. -/
theorem defaultSegmentSixteenBit : Obligations.DefaultSegmentSixteenBit := by
  intro f spec w hmod
  refine ⟨effectiveAddress f .s16 spec, ?_⟩
  rw [resolveRM_eq_mem hmod, Option.getD_none]
  simp only [defaultSeg, defaultSeg16, mod_ne_zero_iff hmod]

/-! ## Operands of several parts (rules R68, R117, R126, R127) -/

/-- The value of a word's bytes, and of a doubleword's. -/
theorem leValue_leBytes_word (v : Word) : leValue (leBytes 2 v.toNat) = v.toNat := by
  rw [leValue_leBytes]
  exact Nat.mod_eq_of_lt v.isLt

theorem leValue_leBytes_dword (v : DWord) : leValue (leBytes 4 v.toNat) = v.toNat := by
  rw [leValue_leBytes]
  exact Nat.mod_eq_of_lt v.isLt

/-- The parts of a value are split where the first one ends. -/
theorem farOfBytes_word (sel off : Word) :
    farOfBytes 2 (leBytes 2 off.toNat ++ leBytes 2 sel.toNat) = .far sel (off.setWidth 32) := by
  simp [farOfBytes, leValue_leBytes_word]

theorem farOfBytes_dword (sel : Word) (off : DWord) :
    farOfBytes 4 (leBytes 4 off.toNat ++ leBytes 2 sel.toNat) = .far sel off := by
  simp [farOfBytes, leValue_leBytes_word, leValue_leBytes_dword]

theorem boundsOfBytes_word (lower upper : Word) :
    boundsOfBytes .word (leBytes 2 lower.toNat ++ leBytes 2 upper.toNat) =
      .bounds .word (lower.setWidth 32) (upper.setWidth 32) := by
  simp [boundsOfBytes, DataWidth.bytes, leValue_leBytes_word]

theorem boundsOfBytes_dword (lower upper : DWord) :
    boundsOfBytes .dword (leBytes 4 lower.toNat ++ leBytes 4 upper.toNat) =
      .bounds .dword lower upper := by
  simp [boundsOfBytes, DataWidth.bytes, leValue_leBytes_dword]

theorem limitBaseOfBytes_parts (limit : Word) (base : DWord) :
    limitBaseOfBytes (leBytes 2 limit.toNat ++ leBytes 4 base.toNat) =
      .limitBase { limit := limit, base := base } := by
  simp [limitBaseOfBytes, leValue_leBytes_word, leValue_leBytes_dword]

/-- The operand at a segment and offset is the given bytes: `Lin` answers an address with room for them, and
memory holds them there. -/
def HoldsBytes (s : State) (seg : SegReg) (ea : DWord) (bytes : List Byte) : Prop :=
  ∃ a, lin s seg ea .read bytes.length = .ok a ∧ a.toNat + bytes.length ≤ 2 ^ 32 ∧
    Memory.readAll s.mem a.toNat bytes.length = bytes

theorem readMemOperand_of_holdsBytes {s : State} {seg : SegReg} {ea : DWord} {bytes : List Byte}
    (h : HoldsBytes s seg ea bytes) : readMemOperand s seg ea bytes.length = .ok bytes := by
  obtain ⟨a, hlin, hfit, hmem⟩ := h
  exact readMemOperand_eq_ok.2 ⟨a, hlin, hfit, hmem.symm⟩

section
variable {s : State} {d : Decoded}

/-- A memory operand of several parts is read at the place its address specifier names. -/
theorem readMulti_of_holdsBytes {spec : AddrSpec} {seg : SegReg} {ea : DWord} {bytes : List Byte}
    (haddr : d.addr = some spec)
    (hmem : resolveRM s.regs d.addrSize spec .dword d.prefixes.seg = .mem seg ea)
    (h : HoldsBytes s seg ea bytes) {n : Nat} (hn : bytes.length = n) :
    readMulti s d n = some (.ok bytes) := by
  subst hn
  simp only [readMulti, rmOperand, haddr, Option.map_some, hmem, memOnly, readMemOperand_of_holdsBytes h]

/-- The code-offset field is given whole to the symbol of its length. -/
theorem codeOffset_of_code {bytes : List Byte} (h : d.code = bytes) {n : Nat} (hn : bytes.length = n) :
    codeOffset d n = some bytes := by
  rw [codeOffset, h, if_pos hn]

/-- A far pointer in the instruction, its offset below its selector. -/
theorem readOperand_ptr16x16 {sel off : Word} (h : d.code = leBytes 2 off.toNat ++ leBytes 2 sel.toNat) :
    readOperand s d .ptr16x16 = some (.ok (.far sel (off.setWidth 32))) := by
  have hcode := codeOffset_of_code h (n := 4) (by simp)
  simp only [readOperand, hcode, Option.map_some, farOfBytes_word]

theorem readOperand_ptr16x32 {sel : Word} {off : DWord}
    (h : d.code = leBytes 4 off.toNat ++ leBytes 2 sel.toNat) :
    readOperand s d .ptr16x32 = some (.ok (.far sel off)) := by
  have hcode := codeOffset_of_code h (n := 6) (by simp)
  simp only [readOperand, hcode, Option.map_some, farOfBytes_dword]

end

/-- Settles O38: the bytes of each operand, in the instruction or in memory, then its parts. -/
theorem multiPartLayout : Obligations.MultiPartLayout := by
  refine ⟨fun _ _ _ _ => readOperand_ptr16x16, fun _ _ _ _ => readOperand_ptr16x32, ?_⟩
  intro s d spec seg ea haddr hmem holds
  have hread {bytes : List Byte} (n : Nat) (h : holds bytes) (hn : bytes.length = n) :
      readMulti s d n = some (.ok bytes) :=
    readMulti_of_holdsBytes haddr hmem h hn
  refine ⟨fun sel off h => ?_, fun sel off h => ?_, fun lower upper h => ?_, fun lower upper h => ?_,
    fun limit base h => ?_⟩
  · have hbytes := hread 4 h (by simp)
    simp only [readOperand, hbytes, Option.map_some, Except.map, farOfBytes_word]
  · have hbytes := hread 6 h (by simp)
    simp only [readOperand, hbytes, Option.map_some, Except.map, farOfBytes_dword]
  · have hbytes := hread 4 h (by simp)
    simp only [readOperand, hbytes, Option.map_some, Except.map, boundsOfBytes_word]
  · have hbytes := hread 8 h (by simp)
    simp only [readOperand, hbytes, Option.map_some, Except.map, boundsOfBytes_dword]
  · have hbytes := hread 6 h (by simp)
    simp only [readOperand, hbytes, Option.map_some, Except.map, limitBaseOfBytes_parts]

end Sys2Proof.Machine

/-! ## What one byte decides (rule R111, log entry 1) -/

namespace Sys2Proof

section
variable {ε : Type} {f : Fetcher ε}

open Machine (bind_eq_ok bind_eq_error pure_eq_ok PrefixSet.count_add PrefixSet.count_le)

/-- The row one step runs, from its byte alone, with the spec's one template. -/
def unitOfByte (refuse : DecodeRefusal → ε) (b : Byte) : Except ε (Instr × Nat) :=
  match PrefixByte.ofByte b with
  | some x => .ok (x.row, 1)
  | none => if b = 0xF5 then .ok (.cmc, 1) else .error (refuse .opcodeNotInSource)

/-- Over the spec's table, a unit is one fetch and what its byte decides. -/
theorem decodeUnit_specEnv (f : Fetcher ε) (os as : Size) (p : PrefixSet) :
    decodeUnit f (specEnv os as) p = f.fetch p.count >>= unitOfByte f.refuse := by
  cases h : f.fetch p.count with
  | error e => rw [decodeUnit, h]; rfl
  | ok b =>
    change _ = unitOfByte f.refuse b
    cases hx : PrefixByte.ofByte b with
    | some x => rw [decodeUnit_prefix h hx, unitOfByte, hx]
    | none =>
      rw [decodeUnit_body h hx, unitOfByte, hx]
      by_cases hb : b = 0xF5
      · subst hb
        rw [decodeBody_cmc h]
        rfl
      · rw [decodeBody_of_ne h hb]
        exact (if_neg hb).symm

/-- A byte that was fetched stops the decoding in one way only. -/
theorem unitOfByte_eq_error {refuse : DecodeRefusal → ε} {b : Byte} {e : ε}
    (h : unitOfByte refuse b = .error e) : e = refuse .opcodeNotInSource := by
  unfold unitOfByte at h
  split at h
  · cases h
  · split at h
    · cases h
    · cases h
      rfl

/-- An instruction body whose first byte was fetched stops in that way only. -/
theorem decodeBody_specEnv_eq_error {k : Nat} {b : Byte} {os as : Size} {p : PrefixSet} {e : ε}
    (hb : f.fetch k = .ok b) (h : decodeBody f (specEnv os as) p k = .error e) :
    e = f.refuse .opcodeNotInSource := by
  by_cases hF5 : b = 0xF5
  · subst hF5
    rw [decodeBody_cmc hb] at h
    cases h
  · rw [decodeBody_of_ne hb hF5] at h
    cases h
    rfl

/-! ## The scan of rule R111 -/

/-- The bytes from index `lo` up to `hi` can be fetched, and each is a `PrefixByte`. -/
def ScannedBytes (f : Fetcher ε) (lo hi : Nat) : Prop :=
  ∀ j, lo ≤ j → j < hi → ∃ b, f.fetch j = .ok b ∧ (PrefixByte.ofByte b).isSome = true

theorem scannedBytes_self (f : Fetcher ε) (k : Nat) : ScannedBytes f k k := by
  intro j hlo hhi
  omega

/-- One more byte in front. -/
theorem scannedBytes_of_succ {lo hi : Nat} {b : Byte} {x : PrefixByte} (hb : f.fetch lo = .ok b)
    (hx : PrefixByte.ofByte b = some x) (h : ScannedBytes f (lo + 1) hi) : ScannedBytes f lo hi := by
  intro j hlo hhi
  by_cases hj : j = lo
  · subst hj
    exact ⟨b, hb, by rw [hx]; rfl⟩
  · exact h j (by omega) hhi

/-- One round of the scan that does not end it: the byte is remembered, and the scan goes on behind it. -/
theorem scanPrefixes_succ_of_some {n : Nat} {p q : PrefixSet} {b : Byte} {x : PrefixByte}
    (hb : f.fetch p.count = .ok b) (hx : PrefixByte.ofByte b = some x) (hq : p.add x = some q) :
    scanPrefixes f (n + 1) p = scanPrefixes f n q := by
  simp only [scanPrefixes, hb, bind, Except.bind, hx, hq]

/-- A round at a byte that is no `PrefixByte` ends the scan. -/
theorem scanPrefixes_succ_of_none {n : Nat} {p : PrefixSet} {b : Byte}
    (hb : f.fetch p.count = .ok b) (hx : PrefixByte.ofByte b = none) :
    scanPrefixes f (n + 1) p = .ok p := by
  simp only [scanPrefixes, hb, bind, Except.bind, hx]
  rfl

/-- A round at a second byte of a group is refused. -/
theorem scanPrefixes_succ_of_duplicate {n : Nat} {p : PrefixSet} {b : Byte} {x : PrefixByte}
    (hb : f.fetch p.count = .ok b) (hx : PrefixByte.ofByte b = some x) (hq : p.add x = none) :
    scanPrefixes f (n + 1) p = .error (f.refuse .duplicatePrefixGroup) := by
  simp only [scanPrefixes, hb, bind, Except.bind, hx, hq]

/-- A round stops where its fetch does. -/
theorem scanPrefixes_succ_of_error {n : Nat} {p : PrefixSet} {e : ε} (he : f.fetch p.count = .error e) :
    scanPrefixes f (n + 1) p = .error e := by
  simp only [scanPrefixes, he, bind, Except.bind]

/-- A scan that succeeds has remembered every byte from where it started, and stands at one that is no
`PrefixByte`. -/
theorem scanPrefixes_eq_ok {n : Nat} {p q : PrefixSet} (h : scanPrefixes f n p = .ok q) :
    p.count ≤ q.count ∧ ScannedBytes f p.count q.count ∧
      ∃ b, f.fetch q.count = .ok b ∧ PrefixByte.ofByte b = none := by
  induction n generalizing p with
  | zero => cases h
  | succ n ih =>
    cases hb : f.fetch p.count with
    | error e => rw [scanPrefixes_succ_of_error hb] at h; cases h
    | ok b =>
      cases hx : PrefixByte.ofByte b with
      | none =>
        rw [scanPrefixes_succ_of_none hb hx] at h
        cases h
        exact ⟨le_rfl, scannedBytes_self f _, b, hb, hx⟩
      | some x =>
        cases hp : p.add x with
        | none => rw [scanPrefixes_succ_of_duplicate hb hx hp] at h; cases h
        | some p' =>
          rw [scanPrefixes_succ_of_some hb hx hp] at h
          obtain ⟨hle, hscanned, hend⟩ := ih h
          rw [PrefixSet.count_add hp] at hle hscanned
          exact ⟨by omega, scannedBytes_of_succ hb hx hscanned, hend⟩

/-- A scan stops by a second byte of a group, or where a fetch does, behind at most four bytes. -/
theorem scanPrefixes_eq_error {n : Nat} {p : PrefixSet} {e : ε} (h : scanPrefixes f n p = .error e) :
    e = f.refuse .duplicatePrefixGroup ∨
      ∃ k ≤ 4, f.fetch k = .error e ∧ ScannedBytes f p.count k := by
  induction n generalizing p with
  | zero => cases h; exact .inl rfl
  | succ n ih =>
    cases hb : f.fetch p.count with
    | error e' =>
      rw [scanPrefixes_succ_of_error hb] at h
      cases h
      exact .inr ⟨p.count, PrefixSet.count_le p, hb, scannedBytes_self f _⟩
    | ok b =>
      cases hx : PrefixByte.ofByte b with
      | none => rw [scanPrefixes_succ_of_none hb hx] at h; cases h
      | some x =>
        cases hp : p.add x with
        | none =>
          rw [scanPrefixes_succ_of_duplicate hb hx hp] at h
          cases h
          exact .inl rfl
        | some p' =>
          rw [scanPrefixes_succ_of_some hb hx hp] at h
          refine (ih h).imp_right fun ⟨k, hk, he, hscanned⟩ => ⟨k, hk, he, ?_⟩
          rw [PrefixSet.count_add hp] at hscanned
          exact scannedBytes_of_succ hb hx hscanned

/-- Over the spec's table, decoding a whole instruction stops by a refusal of rule R111, or by the fetch of a byte
behind at most four scanned ones. -/
theorem decodeInstruction_specEnv_eq_error {os as : Size} {e : ε}
    (h : decodeInstruction f (specEnv os as) = .error e) :
    (∃ r, e = f.refuse r) ∨ ∃ k ≤ 4, f.fetch k = .error e ∧ ScannedBytes f 0 k := by
  obtain hscan | ⟨p, hscan, hbody⟩ := bind_eq_error.1 h
  · exact (scanPrefixes_eq_error hscan).imp_left fun he => ⟨_, he⟩
  · obtain ⟨-, -, b, hb, -⟩ := scanPrefixes_eq_ok hscan
    exact .inl ⟨_, decodeBody_specEnv_eq_error hb hbody⟩

end

end Sys2Proof

/-! ## Where a fault comes from (rules R66, R255, R256, R258) -/

namespace Sys2Proof.Machine

/-- A fetch faults exactly where `Lin` raises an exception. -/
theorem fetchByte_eq_fault {s : State} {k : Nat} {f : Fault} :
    fetchByte s k = .error (.fault f) ↔
      ∃ x c, linAnswer s.params.lin .cs (s.pc + BitVec.ofNat 32 k) .fetch 1 = .raise x c ∧
        f = .exception x (excNumber x) c s.pc := by
  have hlin := lin_eq_error (s := s) (seg := .cs) (off := s.pc + BitVec.ofNat 32 k) (k := .fetch) (n := 1)
    (e := .fault f)
  simp only [Stop.fault.injEq] at hlin
  rw [← hlin]
  cases h : lin s .cs (s.pc + BitVec.ofNat 32 k) .fetch 1 with
  | error e => simp only [fetchByte_of_lin_error h, Except.error.injEq]
  | ok a =>
    rw [fetchByte_of_lin_ok h]
    split <;> simp [refuse]

/-- What the next step runs is decided by one fetched byte. -/
theorem decodeNext_eq (s : State) :
    decodeNext s =
      fetchByte s s.pending.count >>= unitOfByte fun r => Stop.refuse (refusalOf r) :=
  decodeUnit_specEnv (stateFetcher s) _ _ _

/-- Every row but CMC remembers a byte, the same from every state. -/
theorem exec_eq_rememberPrefix {i : Instr} (h : i ≠ .cmc) :
    ∃ x, ∀ s, exec i s = (rememberPrefix x s).outcome := by
  cases i
  case cmc => exact absurd rfl h
  all_goals exact ⟨_, fun _ => rfl⟩

theorem rememberPrefix_ne_fault (x : PrefixByte) (s : State) (f : Fault) :
    rememberPrefix x s ≠ .error (.fault f) := by
  unfold rememberPrefix
  split <;> simp [refuse]

theorem checkG1_ne_fault (p : PrefixSet) (f : Fault) : checkG1 p ≠ .error (.fault f) := by
  unfold checkG1
  split <;> simp [refuse]

theorem checkCmcPrefixes_ne_fault (p : PrefixSet) (f : Fault) :
    checkCmcPrefixes p ≠ .error (.fault f) := by
  intro h
  obtain hg | ⟨-, -, hne⟩ := bind_eq_error.1 h
  · exact checkG1_ne_fault p f hg
  · split at hne <;> cases hne

/-- The end of an instruction stops as its offset does. -/
theorem endInstruction_eq_error {s : State} {n : Nat} {x : Stop} :
    endInstruction s n = .error x ↔ 2 ^ 32 ≤ s.pc.toNat + n ∧ x = .refuse .pcWrap := by
  rw [endInstruction, ← endOffset_eq_error]
  cases endOffset s n <;> simp [bind, Except.bind]

theorem runCmc_ne_fault (s : State) (f : Fault) : runCmc s ≠ .error (.fault f) := by
  intro h
  obtain hcheck | ⟨-, -, hrest⟩ := bind_eq_error.1 h
  · exact checkCmcPrefixes_ne_fault _ f hcheck
  · obtain hend | ⟨t, -, hdone⟩ := bind_eq_error.1 hrest
    · cases (endInstruction_eq_error.1 hend).2
    · cases hdone

/-- No meaning faults. -/
theorem exec_ne_fault (i : Instr) (s : State) (f : Fault) : exec i s ≠ .fault f := by
  intro h
  by_cases hi : i = .cmc
  · subst hi
    exact runCmc_ne_fault s f (outcome_eq_fault.1 h)
  · obtain ⟨x, hx⟩ := exec_eq_rememberPrefix hi
    rw [hx] at h
    exact rememberPrefix_ne_fault x s f (outcome_eq_fault.1 h)

section
variable {s : State} {f : Fault} (hmark : isMarked s = false)
include hmark

/-- From an unmarked state, a step faults only as its decoding does. -/
theorem decodeNext_of_step_fault (h : step s = .fault f) : decodeNext s = .error (.fault f) := by
  obtain ⟨hf, hr⟩ := isMarked_eq_false.1 hmark
  simp only [step, hf, hr] at h
  split at h
  · cases h
  · split at h
    · rename_i e he
      rw [he, Except.error.inj (outcome_eq_fault.1 h)]
    · exact absurd h (exec_ne_fault _ s f)

/-- So does the step over a whole instruction. -/
theorem decodeInstruction_of_instructionStep_fault (h : instructionStep s = .fault f) :
    decodeInstruction (stateFetcher s) (stateEnv s) = .error (.fault f) := by
  obtain ⟨hf, hr⟩ := isMarked_eq_false.1 hmark
  simp only [instructionStep, hf, hr] at h
  split at h
  · cases h
  · split at h
    · rename_i e he
      rw [he, Except.error.inj (outcome_eq_fault.1 h)]
    · exact absurd h (exec_ne_fault _ _ f)

end

/-- Settles O54: a fault is the decoder's, the decoder's is a fetch's, and that is `Lin`'s. -/
theorem faultsComeFromLin : Obligations.FaultsComeFromLin := by
  intro s f hmark
  constructor
  · intro h
    have hnext := decodeNext_of_step_fault hmark h
    rw [decodeNext_eq] at hnext
    obtain hfetch | ⟨b, -, hunit⟩ := bind_eq_error.1 hnext
    · exact fetchByte_eq_fault.1 hfetch
    · cases unitOfByte_eq_error hunit
  · intro h
    obtain ⟨r, hr⟩ | ⟨k, hk, hfetch, hscanned⟩ :=
      decodeInstruction_specEnv_eq_error (decodeInstruction_of_instructionStep_fault hmark h)
    · cases hr
    · obtain ⟨x, c, hraise, hfault⟩ := fetchByte_eq_fault.1 hfetch
      exact ⟨k, x, c, hk, hraise, hfault, fun j => hscanned j (Nat.zero_le j)⟩

/-! ## What a step does not depend on (rules R66, R77, R210) -/

/-- The state with another register file and another memory. -/
def withRegsAndMem (regs : GprFile) (mem : List Host.Cell) (s : State) : State :=
  (s.setRegs regs).setMem mem

/-- An outcome with its next state changed; a stop stays. -/
def mapNext (u : State → State) : Host.Outcome State Fault Refusal → Host.Outcome State Fault Refusal
  | .next t => .next (u t)
  | .fault f => .fault f
  | .refused r => .refused r

theorem outcome_map (u : State → State) (r : Result State) :
    Result.outcome (r.map u) = mapNext u r.outcome := by
  rcases r with (f | x) | t <;> rfl

section
variable (regs : GprFile) (mem : List Host.Cell) (s : State)

@[simp] theorem withRegsAndMem_faultMark : (withRegsAndMem regs mem s).faultMark = s.faultMark := rfl
@[simp] theorem withRegsAndMem_refusedMark :
    (withRegsAndMem regs mem s).refusedMark = s.refusedMark := rfl
@[simp] theorem withRegsAndMem_pending : (withRegsAndMem regs mem s).pending = s.pending := rfl
@[simp] theorem isOver_withRegsAndMem : isOver (withRegsAndMem regs mem s) = isOver s := rfl

theorem rememberPrefix_withRegsAndMem (x : PrefixByte) :
    rememberPrefix x (withRegsAndMem regs mem s) =
      (rememberPrefix x s).map (withRegsAndMem regs mem) := by
  simp only [rememberPrefix, withRegsAndMem_pending]
  cases s.pending.add x <;> rfl

theorem endInstruction_withRegsAndMem (n : Nat) :
    endInstruction (withRegsAndMem regs mem s) n =
      (endInstruction s n).map (withRegsAndMem regs mem) := by
  have hend : endOffset (withRegsAndMem regs mem s) n = endOffset s n := rfl
  rw [endInstruction, endInstruction, hend]
  cases endOffset s n <;> rfl

theorem runCmc_withRegsAndMem :
    runCmc (withRegsAndMem regs mem s) = (runCmc s).map (withRegsAndMem regs mem) := by
  rw [runCmc, runCmc, withRegsAndMem_pending, endInstruction_withRegsAndMem]
  cases checkCmcPrefixes s.pending with
  | error e => rfl
  | ok u => cases endInstruction s 1 <;> rfl

/-- A meaning neither reads nor writes registers and memory. -/
theorem exec_withRegsAndMem (i : Instr) :
    exec i (withRegsAndMem regs mem s) = mapNext (withRegsAndMem regs mem) (exec i s) := by
  by_cases hi : i = .cmc
  · subst hi
    exact (congrArg Result.outcome (runCmc_withRegsAndMem regs mem s)).trans (outcome_map _ _)
  · obtain ⟨x, hx⟩ := exec_eq_rememberPrefix hi
    rw [hx, hx, rememberPrefix_withRegsAndMem, outcome_map]

variable {regs mem s}

/-- Nor does a step, but for the byte it fetches. -/
theorem step_withRegsAndMem
    (h : fetchByte (withRegsAndMem regs mem s) s.pending.count = fetchByte s s.pending.count) :
    step (withRegsAndMem regs mem s) = mapNext (withRegsAndMem regs mem) (step s) := by
  have hdecode : decodeNext (withRegsAndMem regs mem s) = decodeNext s := by
    rw [decodeNext_eq, decodeNext_eq, withRegsAndMem_pending, h]
  simp only [step, withRegsAndMem_faultMark, withRegsAndMem_refusedMark, isOver_withRegsAndMem, hdecode,
    exec_withRegsAndMem]
  cases s.faultMark with
  | some f => rfl
  | none =>
    cases s.refusedMark with
    | some r => rfl
    | none =>
      cases isOver s with
      | true => rfl
      | false =>
        cases decodeNext s with
        | error e => cases e <;> rfl
        | ok unit => rfl

end

/-- Settles O60: the outcome is that of the other state with the two fields replaced. -/
theorem stepIgnoresRegistersAndOtherMemory : Obligations.StepIgnoresRegistersAndOtherMemory := by
  intro s regs mem hfetch
  have hstep : step { s with regs := regs, mem := mem } = mapNext (withRegsAndMem regs mem) (step s) :=
    step_withRegsAndMem hfetch
  refine ⟨fun t h => ?_, fun f h => ?_, fun r h => ?_⟩
  all_goals
    rw [hstep, h]
    rfl

end Sys2Proof.Machine

/-! ## The bytes the decoder fetches (rules R66, R111, R112) -/

namespace Sys2Proof

section
variable {ε : Type} {f g : Fetcher ε} {k n : Nat} {a os : Size} {t : Template}

open Machine (bind_eq_ok pure_eq_ok PrefixSet.count_add)

/-! ### What each part of the decoder reads -/

theorem takeBytes_length {bs : List Byte} (h : takeBytes f k n = .ok bs) : bs.length = n := by
  induction n generalizing k bs with
  | zero =>
    cases h
    rfl
  | succ n ih =>
    simp only [takeBytes, bind_eq_ok] at h
    obtain ⟨b, -, bs', hbs, hdone⟩ := h
    cases hdone
    rw [List.length_cons, ih hbs]

theorem takeFields_lengths {ns : List Nat} {bss : List (List Byte)} (h : takeFields f k ns = .ok bss) :
    bss.map List.length = ns := by
  induction ns generalizing k bss with
  | nil =>
    cases h
    rfl
  | cons n ns ih =>
    simp only [takeFields, bind_eq_ok] at h
    obtain ⟨bs, hbs, bss', hbss, hdone⟩ := h
    cases hdone
    rw [List.map_cons, takeBytes_length hbs, ih hbss]

/-- A template is a candidate where its fixed bytes match, the operand size is one it is for, and the reg
field is its digit if it has one. -/
theorem matchTemplate_eq_true :
    matchTemplate f k os t = .ok true ↔
      matchOpcode f k t.plus.isSome t.opcode = .ok true ∧ (t.cond = none ∨ t.cond = some os) ∧
        ∀ d, t.modrm = some (.slashDigit d) →
          ∃ m, f.fetch (k + t.opcode.length) = .ok m ∧ regField m = d := by
  cases hop : matchOpcode f k t.plus.isSome t.opcode with
  | error e => simp [matchTemplate, hop]
  | ok matched =>
    cases matched with
    | false => simp [matchTemplate, hop]
    | true =>
      by_cases hcond : t.cond = none ∨ t.cond = some os
      · rcases hm : t.modrm with _ | _ | digit <;>
          simp [matchTemplate, hop, hcond, hm, bind_eq_ok]
      · simp [matchTemplate, hop, hcond]

/-- An opcode has at least one fixed byte where it matches. -/
theorem opcode_pos_of_match {plus : Bool} {bs : List Byte} (h : matchOpcode f k plus bs = .ok true) :
    0 < bs.length := by
  cases bs with
  | nil => cases h
  | cons b bs => exact Nat.succ_pos _

/-- With one template, the one taken is that one, and it is a candidate. -/
theorem selectTemplate_singleton {u : Template} :
    selectTemplate f k os [u] = .ok t ↔ t = u ∧ matchTemplate f k os u = .ok true := by
  cases h : matchTemplate f k os u with
  | error e => simp [selectTemplate, candidates, h, bind, Except.bind]
  | ok b =>
    cases b <;>
      simp [selectTemplate, candidates, h, bind, Except.bind, longest, pure, Except.pure, eq_comm]

/-- What an address specifier is read from, with a SIB byte and without. -/
theorem takeAddr_eq_ok {s : AddrSpec} :
    takeAddr f a k = .ok s ↔
      f.fetch k = .ok s.modrm ∧
        ((needsSib a s.modrm = true ∧ ∃ b, s.sib = some b ∧ f.fetch (k + 1) = .ok b ∧
            takeBytes f (k + 2) (dispSize a s.modrm (some b)) = .ok s.disp) ∨
          (needsSib a s.modrm = false ∧ s.sib = none ∧
            takeBytes f (k + 1) (dispSize a s.modrm none) = .ok s.disp)) := by
  unfold takeAddr
  rw [bind_eq_ok]
  constructor
  · rintro ⟨m, hm, hrest⟩
    split at hrest
    · rename_i hneeds
      obtain ⟨b, hb, hrest⟩ := bind_eq_ok.1 hrest
      obtain ⟨disp, hdisp, hdone⟩ := bind_eq_ok.1 hrest
      cases hdone
      exact ⟨hm, .inl ⟨hneeds, b, rfl, hb, hdisp⟩⟩
    · rename_i hneeds
      obtain ⟨disp, hdisp, hdone⟩ := bind_eq_ok.1 hrest
      cases hdone
      exact ⟨hm, .inr ⟨Bool.eq_false_of_not_eq_true hneeds, rfl, hdisp⟩⟩
  · rcases s with ⟨m, sib, disp⟩
    rintro ⟨hm, ⟨hneeds, b, rfl, hb, hdisp⟩ | ⟨hneeds, rfl, hdisp⟩⟩
    · refine ⟨m, hm, ?_⟩
      rw [if_pos hneeds]
      exact bind_eq_ok.2 ⟨b, hb, bind_eq_ok.2 ⟨disp, hdisp, rfl⟩⟩
    · refine ⟨m, hm, ?_⟩
      rw [if_neg (Bool.eq_false_iff.1 hneeds)]
      exact bind_eq_ok.2 ⟨disp, hdisp, rfl⟩

/-- What an instruction body is made of: every field is read where rule R90 has it, the body starting at byte
`k`. -/
structure BodyRead (f : Fetcher ε) (env : DecodeEnv) (k : Nat) (d : Decoded) : Prop where
  opSize : d.opSize = overridden env.opSize d.prefixes.opSize
  addrSize : d.addrSize = overridden env.addrSize d.prefixes.addrSize
  template : selectTemplate f k d.opSize env.templates = .ok d.template
  regCode : takeRegCode f k d.template = .ok d.regCode
  addr : takeOptAddr f d.addrSize (k + d.template.opcode.length) d.template.modrm = .ok d.addr
  moffs : takeBytes f (k + d.template.opcode.length + addrLength d.addr)
    (moffsSize d.addrSize d.template.moffs) = .ok d.moffs
  code : takeBytes f (k + d.template.opcode.length + addrLength d.addr + d.moffs.length)
    (codeSize d.template.codeField) = .ok d.code
  imms : takeFields f
    (k + d.template.opcode.length + addrLength d.addr + d.moffs.length + d.code.length)
    (d.template.imms.map ImmField.size) = .ok d.imms
  notTooLong : d.length ≤ maxInstrLen

theorem decodeBody_eq_ok {env : DecodeEnv} {p : PrefixSet} {d : Decoded} :
    decodeBody f env p k = .ok d ↔ d.prefixes = p ∧ BodyRead f env k d := by
  unfold decodeBody
  simp only [bind_eq_ok]
  constructor
  · rintro ⟨t, ht, c, hc, ad, had, mo, hmo, co, hco, im, him, h⟩
    split at h
    · cases h
    · cases h
      exact ⟨rfl, rfl, rfl, ht, hc, had, hmo, hco, him, by omega⟩
  · rintro ⟨rfl, h⟩
    rw [← h.opSize, ← h.addrSize]
    exact ⟨_, h.template, _, h.regCode, _, h.addr, _, h.moffs, _, h.code, _, h.imms,
      if_neg (Nat.not_lt.2 h.notTooLong)⟩

theorem decodeInstruction_eq_ok {env : DecodeEnv} {d : Decoded} :
    decodeInstruction f env = .ok d ↔
      scanPrefixes f 5 PrefixSet.empty = .ok d.prefixes ∧ BodyRead f env d.prefixes.count d := by
  simp only [decodeInstruction, bind_eq_ok, decodeBody_eq_ok]
  constructor
  · rintro ⟨p, hscan, rfl, hbody⟩
    exact ⟨hscan, hbody⟩
  · rintro ⟨hscan, hbody⟩
    exact ⟨_, hscan, rfl, hbody⟩

/-! ### Two supplies that agree on the first bytes -/

/-- The second supply gives the first `n` bytes as the first does. -/
def AgreeBelow (f g : Fetcher ε) (n : Nat) : Prop := ∀ k, k < n → g.fetch k = f.fetch k

section
variable {bound : Nat} (h : AgreeBelow f g bound)
include h

theorem takeBytes_congr (hk : k + n ≤ bound) : takeBytes g k n = takeBytes f k n := by
  induction n generalizing k with
  | zero => rfl
  | succ n ih => rw [takeBytes, takeBytes, h k (by omega), ih (by omega)]

theorem takeFields_congr {ns : List Nat} (hk : k + ns.sum ≤ bound) :
    takeFields g k ns = takeFields f k ns := by
  induction ns generalizing k with
  | nil => rfl
  | cons n ns ih =>
    rw [List.sum_cons] at hk
    rw [takeFields, takeFields, takeBytes_congr h (by omega), ih (by omega)]

theorem matchOpcode_congr {plus : Bool} {bs : List Byte} (hk : k + bs.length ≤ bound) :
    matchOpcode g k plus bs = matchOpcode f k plus bs := by
  induction bs generalizing k with
  | nil => rfl
  | cons b bs ih =>
    rw [List.length_cons] at hk
    cases bs with
    | nil => rw [matchOpcode, matchOpcode, h k (by omega)]
    | cons c bs => rw [matchOpcode, matchOpcode, h k (by omega), ih (by omega)]

theorem takeRegCode_congr (ht : 0 < t.opcode.length) (hk : k + t.opcode.length ≤ bound) :
    takeRegCode g k t = takeRegCode f k t := by
  rw [takeRegCode, takeRegCode, h (k + (t.opcode.length - 1)) (by omega)]

theorem takeAddr_congr {s : AddrSpec} (hk : k + s.length ≤ bound) (hs : takeAddr f a k = .ok s) :
    takeAddr g a k = .ok s := by
  rw [takeAddr_eq_ok] at hs ⊢
  obtain ⟨hm, ⟨hneeds, b, hsib, hb, hdisp⟩ | ⟨hneeds, hsib, hdisp⟩⟩ := hs
  · have hlen := takeBytes_length hdisp
    simp only [AddrSpec.length, hsib, Option.isSome_some, Bool.toNat_true] at hk
    exact ⟨by rwa [h k (by omega)],
      .inl ⟨hneeds, b, hsib, by rwa [h (k + 1) (by omega)], by rwa [takeBytes_congr h (by omega)]⟩⟩
  · have hlen := takeBytes_length hdisp
    simp only [AddrSpec.length, hsib, Option.isSome_none, Bool.toNat_false] at hk
    exact ⟨by rwa [h k (by omega)],
      .inr ⟨hneeds, hsib, by rwa [takeBytes_congr h (by omega)]⟩⟩

theorem takeOptAddr_congr {m : Option ModRMMark} {o : Option AddrSpec} (hk : k + addrLength o ≤ bound)
    (ho : takeOptAddr f a k m = .ok o) : takeOptAddr g a k m = .ok o := by
  cases m with
  | none => exact ho
  | some m =>
    obtain ⟨s, hs, hdone⟩ := bind_eq_ok.1 ho
    cases hdone
    exact bind_eq_ok.2 ⟨s, takeAddr_congr h hk hs, rfl⟩

/-- The scan looks at the remembered bytes and the one behind them. -/
theorem scanPrefixes_congr {p q : PrefixSet} (hq : q.count < bound) (hscan : scanPrefixes f n p = .ok q) :
    scanPrefixes g n p = .ok q := by
  induction n generalizing p with
  | zero => cases hscan
  | succ n ih =>
    obtain ⟨hle, -, -⟩ := scanPrefixes_eq_ok hscan
    have hfetch := h p.count (by omega)
    simp only [scanPrefixes, bind_eq_ok, hfetch] at hscan ⊢
    obtain ⟨b, hb, hround⟩ := hscan
    refine ⟨b, hb, ?_⟩
    split at hround
    · exact hround
    · split at hround
      · exact ih hround
      · cases hround

/-- A candidate with its digit stays one. -/
theorem matchTemplate_congr {o : Option AddrSpec} (hmatch : matchTemplate f k os t = .ok true)
    (haddr : takeOptAddr f a (k + t.opcode.length) t.modrm = .ok o)
    (hk : k + t.opcode.length + addrLength o ≤ bound) : matchTemplate g k os t = .ok true := by
  rw [matchTemplate_eq_true] at hmatch ⊢
  obtain ⟨hop, hcond, hdigit⟩ := hmatch
  refine ⟨by rwa [matchOpcode_congr h (by omega)], hcond, fun d hd => ?_⟩
  obtain ⟨m, hm, hreg⟩ := hdigit d hd
  have hpos : 0 < addrLength o := by
    rw [hd] at haddr
    obtain ⟨s, -, hdone⟩ := bind_eq_ok.1 haddr
    cases hdone
    simp only [addrLength, AddrSpec.length]
    omega
  exact ⟨m, by rwa [h _ (by omega)], hreg⟩

end

/-- With one template, an instruction body is not empty. -/
theorem bodyLength_pos {as : Size} {d : Decoded}
    (hd : BodyRead f { templates := [t], opSize := os, addrSize := as } k d) : 0 < d.bodyLength := by
  obtain ⟨htaken, hmatch⟩ := selectTemplate_singleton.1 hd.template
  have hop := opcode_pos_of_match (matchTemplate_eq_true.1 hmatch).1
  rw [Decoded.bodyLength, htaken]
  omega

/-- With one template, an instruction body is the same from a supply that agrees up to its end. -/
theorem bodyRead_congr {as : Size} {d : Decoded}
    (h : AgreeBelow f g (k + d.bodyLength))
    (hd : BodyRead f { templates := [t], opSize := os, addrSize := as } k d) :
    BodyRead g { templates := [t], opSize := os, addrSize := as } k d := by
  obtain ⟨htaken, hmatch⟩ := selectTemplate_singleton.1 hd.template
  subst htaken
  have hop := opcode_pos_of_match (matchTemplate_eq_true.1 hmatch).1
  have hmoffs := takeBytes_length hd.moffs
  have hcode := takeBytes_length hd.code
  have himms := congrArg List.sum (takeFields_lengths hd.imms)
  rw [Decoded.bodyLength] at h
  exact
    { opSize := hd.opSize
      addrSize := hd.addrSize
      template := selectTemplate_singleton.2 ⟨rfl, matchTemplate_congr h hmatch hd.addr (by omega)⟩
      regCode := by rw [takeRegCode_congr h hop (by omega), hd.regCode]
      addr := takeOptAddr_congr h (by omega) hd.addr
      moffs := by rw [takeBytes_congr h (by omega), hd.moffs]
      code := by rw [takeBytes_congr h (by omega), hd.code]
      imms := by rw [takeFields_congr h (by omega), hd.imms]
      notTooLong := hd.notTooLong }

end

/-- Settles O7: the scan and the body read nothing beyond the instruction's last byte. -/
theorem decoderFetchesOwnBytesOnly : Obligations.DecoderFetchesOwnBytesOnly := by
  intro f g t os as d hdec h
  obtain ⟨hscan, hbody⟩ := decodeInstruction_eq_ok.1 hdec
  have hlt : d.prefixes.count < d.length := Nat.lt_add_of_pos_right (bodyLength_pos hbody)
  exact decodeInstruction_eq_ok.2 ⟨scanPrefixes_congr h hlt hscan, bodyRead_congr h hbody⟩

end Sys2Proof

/-! ## Bytes at an index of a supply (rules R66, R90) -/

namespace Sys2Proof

section
variable {ε : Type} {f : Fetcher ε} {k n : Nat} {a : Size} {b : Byte} {bs : List Byte}

open Machine (bind_eq_ok pure_eq_ok)

/-- The supply gives these bytes from index `k` on. -/
def BytesAt (f : Fetcher ε) : Nat → List Byte → Prop
  | _, [] => True
  | k, b :: bs => f.fetch k = .ok b ∧ BytesAt f (k + 1) bs

@[simp] theorem bytesAt_nil : BytesAt f k [] := trivial

@[simp] theorem bytesAt_cons : BytesAt f k (b :: bs) ↔ f.fetch k = .ok b ∧ BytesAt f (k + 1) bs :=
  Iff.rfl

theorem bytesAt_append {xs ys : List Byte} :
    BytesAt f k (xs ++ ys) ↔ BytesAt f k xs ∧ BytesAt f (k + xs.length) ys := by
  induction xs generalizing k with
  | nil => simp
  | cons x xs ih =>
    rw [List.cons_append, bytesAt_cons, bytesAt_cons, ih, and_assoc, List.length_cons,
      Nat.add_right_comm, Nat.add_assoc]

theorem takeBytes_eq_ok : takeBytes f k n = .ok bs ↔ bs.length = n ∧ BytesAt f k bs := by
  induction n generalizing k bs with
  | zero => cases bs <;> simp [takeBytes]
  | succ n ih =>
    cases bs with
    | nil => simp [takeBytes, bind_eq_ok]
    | cons b bs =>
      simp only [takeBytes, bind_eq_ok, ih, pure_eq_ok, Except.ok.injEq, List.cons.injEq,
        List.length_cons, bytesAt_cons]
      constructor
      · rintro ⟨_, hb, _, ⟨hlen, hbs⟩, rfl, rfl⟩
        exact ⟨congrArg _ hlen, hb, hbs⟩
      · rintro ⟨hlen, hb, hbs⟩
        exact ⟨b, hb, bs, ⟨Nat.succ.inj hlen, hbs⟩, rfl, rfl⟩

theorem takeFields_eq_ok {ns : List Nat} {bss : List (List Byte)} :
    takeFields f k ns = .ok bss ↔ bss.map List.length = ns ∧ BytesAt f k bss.flatten := by
  induction ns generalizing k bss with
  | nil => cases bss <;> simp [takeFields]
  | cons n ns ih =>
    cases bss with
    | nil => simp [takeFields, bind_eq_ok]
    | cons bs bss =>
      simp only [takeFields, bind_eq_ok, takeBytes_eq_ok, ih, pure_eq_ok, Except.ok.injEq,
        List.cons.injEq, List.map_cons, List.flatten_cons, bytesAt_append]
      constructor
      · rintro ⟨_, ⟨hn, hbs⟩, _, ⟨hns, hbss⟩, rfl, rfl⟩
        exact ⟨⟨hn, hns⟩, hbs, by rwa [hn]⟩
      · rintro ⟨⟨hn, hns⟩, hbs, hbss⟩
        exact ⟨bs, ⟨hn, hbs⟩, bss, ⟨hns, by rwa [hn] at hbss⟩, rfl, rfl⟩

/-- An address specifier is read exactly where its bytes stand, and is the one its ModR/M byte calls for
(rules R90, R100, R102). -/
theorem takeAddr_eq_ok_iff_bytesAt {s : AddrSpec} :
    takeAddr f a k = .ok s ↔ s.wellFormed a = true ∧ BytesAt f k s.bytes := by
  rcases s with ⟨m, _ | sib, disp⟩ <;>
    cases hneeds : needsSib a m <;>
    simp [takeAddr_eq_ok, AddrSpec.wellFormed, AddrSpec.bytes, hneeds, takeBytes_eq_ok] <;>
    tauto

/-- The address specifier of a template with a ModR/M marker, and none without one. -/
theorem takeOptAddr_eq_ok {m : Option ModRMMark} {o : Option AddrSpec} :
    takeOptAddr f a k m = .ok o ↔
      m.isSome = o.isSome ∧ (∀ s ∈ o, s.wellFormed a = true) ∧ BytesAt f k (addrBytes o) := by
  cases m with
  | none => cases o <;> simp [takeOptAddr, addrBytes]
  | some m =>
    cases o <;> simp [takeOptAddr, addrBytes, bind_eq_ok, takeAddr_eq_ok_iff_bytesAt]

/-! ### Bytes of a list -/

theorem listFetcher_fetch_eq_ok {bytes : List Byte} :
    (listFetcher bytes).fetch k = .ok b ↔ bytes[k]? = some b := by
  cases h : bytes[k]? <;> simp [listFetcher, h]

/-- A list gives bytes at an index where they are the front of what is left there. -/
theorem bytesAt_listFetcher {bytes : List Byte} :
    BytesAt (listFetcher bytes) k bs ↔ bs <+: bytes.drop k := by
  induction bs generalizing k with
  | nil => simp
  | cons b bs ih =>
    rw [bytesAt_cons, ih, listFetcher_fetch_eq_ok, List.cons_prefix_iff, ← List.head?_drop]
    rw [← List.tail_drop]
    cases bytes.drop k <;> simp [and_comm, eq_comm]

/-! ### Opcode bytes (rules R91, R109) -/

/-- Whether a byte fetched for the last opcode byte matches it: the same, or up to seven above where a register
code is added. -/
def LastByteMatches (plus : Bool) (b x : Byte) : Prop :=
  if plus then b.toNat ≤ x.toNat ∧ x.toNat ≤ b.toNat + 7 else x = b

theorem matchOpcode_concat {plus : Bool} :
    matchOpcode f k plus (bs ++ [b]) = .ok true ↔
      BytesAt f k bs ∧ ∃ x, f.fetch (k + bs.length) = .ok x ∧ LastByteMatches plus b x := by
  induction bs generalizing k with
  | nil =>
    cases plus <;> simp [matchOpcode, bind_eq_ok, LastByteMatches]
  | cons c bs ih =>
    obtain ⟨c', rest, hrest⟩ : ∃ c' rest, bs ++ [b] = c' :: rest := by
      cases bs <;> simp
    have hstep : matchOpcode f k plus (c :: bs ++ [b]) = .ok true ↔
        f.fetch k = .ok c ∧ matchOpcode f (k + 1) plus (bs ++ [b]) = .ok true := by
      rw [List.cons_append, hrest, matchOpcode, bind_eq_ok]
      constructor
      · rintro ⟨x, hx, h⟩
        by_cases hxc : x = c
        · subst hxc
          exact ⟨hx, by simpa using h⟩
        · simp [hxc] at h
      · rintro ⟨hc, h⟩
        exact ⟨c, hc, by simpa using h⟩
    rw [hstep, ih, bytesAt_cons, and_assoc, List.length_cons, Nat.add_right_comm, Nat.add_assoc]

end
end Sys2Proof

/-! ## Opcode bytes, register codes and candidates (rules R91, R93, R109, R111) -/

namespace Sys2Proof

section
variable {ε : Type} {f : Fetcher ε} {k n : Nat} {a os : Size} {b x : Byte} {bs : List Byte} {t : Template}
  {c : Option (BitVec 3)}

open Machine (bind_eq_ok pure_eq_ok)

/-- The last opcode byte with a register code added, if there is one (rule R109). -/
def lastOpcodeByte (b : Byte) : Option (BitVec 3) → Byte
  | none => b
  | some r => b + r.setWidth 8

theorem opcodeBytes_concat (bs : List Byte) (b : Byte) (c : Option (BitVec 3)) :
    opcodeBytes (bs ++ [b]) c = bs ++ [lastOpcodeByte b c] := by
  cases c <;> simp [opcodeBytes, lastOpcodeByte]

/-- A register code is added without a carry out of the byte. -/
theorem toNat_lastOpcodeByte_some (h : b.toNat ≤ 248) (r : BitVec 3) :
    (lastOpcodeByte b (some r)).toNat = b.toNat + r.toNat := by
  have hr := r.isLt
  simp only [lastOpcodeByte, BitVec.toNat_add, BitVec.toNat_setWidth]
  omega

/-- "the register code is `b - B`" (rule R109). -/
theorem takeRegCode_concat (hop : t.opcode = bs ++ [b]) (hx : f.fetch (k + bs.length) = .ok x) :
    takeRegCode f k t = .ok (t.plus.map fun _ => BitVec.ofNat 3 (x.toNat - b.toNat)) := by
  cases hp : t.plus with
  | none => simp [takeRegCode, hp]
  | some w => simp [takeRegCode, hp, hop, hx, bind, Except.bind]

/-- A byte that matches the last opcode byte is that byte with the register code read from it. -/
theorem lastOpcodeByte_of_lastByteMatches {plus : Option DataWidth}
    (h : LastByteMatches plus.isSome b x) :
    lastOpcodeByte b (plus.map fun _ => BitVec.ofNat 3 (x.toNat - b.toNat)) = x := by
  cases plus with
  | none => exact Eq.symm h
  | some w =>
    obtain ⟨hlo, hhi⟩ : b.toNat ≤ x.toNat ∧ x.toNat ≤ b.toNat + 7 := h
    have hx := x.isLt
    apply BitVec.eq_of_toNat_eq
    simp only [Option.map_some, lastOpcodeByte, BitVec.toNat_add, BitVec.toNat_setWidth,
      BitVec.toNat_ofNat]
    omega

/-- The last opcode byte with a register code matches, and the code is read back from it. -/
theorem lastByteMatches_lastOpcodeByte {plus : Option DataWidth} (hc : c.isSome = plus.isSome)
    (hroom : plus.isSome = true → b.toNat ≤ 248) :
    LastByteMatches plus.isSome b (lastOpcodeByte b c) ∧
      (plus.map fun _ => BitVec.ofNat 3 ((lastOpcodeByte b c).toNat - b.toNat)) = c := by
  cases plus with
  | none =>
    obtain rfl := Option.isSome_eq_false_iff.1 hc |> Option.isNone_iff_eq_none.1
    exact ⟨rfl, rfl⟩
  | some w =>
    obtain ⟨r, rfl⟩ := Option.isSome_iff_exists.1 hc
    have hsum := toNat_lastOpcodeByte_some (hroom rfl) r
    have hr := r.isLt
    refine ⟨⟨by omega, by omega⟩, ?_⟩
    rw [hsum, Nat.add_sub_cancel_left, BitVec.ofNat_toNat, BitVec.setWidth_eq]
    rfl

/-- Opcode bytes that match, and the register code read from them, are those of the template. -/
theorem bytesAt_opcodeBytes_of_match (hmatch : matchOpcode f k t.plus.isSome t.opcode = .ok true)
    (hcode : takeRegCode f k t = .ok c) :
    BytesAt f k (opcodeBytes t.opcode c) ∧ c.isSome = t.plus.isSome := by
  rcases List.eq_nil_or_concat' t.opcode with hnil | ⟨bs, b, hop⟩
  · rw [hnil] at hmatch
    cases hmatch
  · rw [hop, matchOpcode_concat] at hmatch
    obtain ⟨hbs, x, hx, hlast⟩ := hmatch
    rw [takeRegCode_concat hop hx] at hcode
    cases hcode
    rw [hop, opcodeBytes_concat, lastOpcodeByte_of_lastByteMatches hlast, bytesAt_append]
    exact ⟨⟨hbs, hx, bytesAt_nil⟩, Option.isSome_map ..⟩

/-- The bytes of a template with a register code that fits it match it, and give the code back. -/
theorem match_of_bytesAt_opcodeBytes (hop : t.opcode = bs ++ [b])
    (hroom : t.plus.isSome = true → b.toNat ≤ 248) (hc : c.isSome = t.plus.isSome)
    (hbytes : BytesAt f k (opcodeBytes t.opcode c)) :
    matchOpcode f k t.plus.isSome t.opcode = .ok true ∧ takeRegCode f k t = .ok c := by
  rw [hop, opcodeBytes_concat, bytesAt_append] at hbytes
  obtain ⟨hbs, hlast, -⟩ := hbytes
  obtain ⟨hmatch, hback⟩ := lastByteMatches_lastOpcodeByte hc hroom
  rw [takeRegCode_concat hop hlast, hback, hop, matchOpcode_concat]
  exact ⟨⟨hbs, _, hlast, hmatch⟩, rfl⟩

/-! ### Well-formed opcodes (rules R91 to R93) -/

theorem isOneByteOpcode_iff : isOneByteOpcode b = true ↔ PrefixByte.ofByte b = none ∧ b ≠ 0x0F := by
  simp [isOneByteOpcode]

/-- A well-formed opcode of one byte is no `PrefixByte` and not 0FH under any register code; one of two bytes
starts with 0FH. -/
theorem opcodeFormed_cases (h : t.opcodeFormed = true) :
    (∃ b, t.opcode = [b] ∧ (t.plus.isSome = true → b.toNat ≤ 248) ∧
        ∀ c : Option (BitVec 3), c.isSome = t.plus.isSome →
          isOneByteOpcode (lastOpcodeByte b c) = true) ∨
      ∃ b, t.opcode = [0x0F, b] ∧ (t.plus.isSome = true → b.toNat ≤ 248) := by
  unfold Template.opcodeFormed at h
  split at h
  · rename_i b hop
    refine .inl ⟨b, hop, ?_⟩
    cases hp : t.plus.isSome with
    | false =>
      refine ⟨nofun, fun c hc => ?_⟩
      obtain rfl := Option.not_isSome_iff_eq_none.1 (Bool.eq_false_iff.1 hc)
      rw [hp] at h
      exact h
    | true =>
      simp only [hp, if_true, Bool.and_eq_true, decide_eq_true_eq, List.all_eq_true,
        List.mem_range] at h
      refine ⟨fun _ => h.1, fun c hc => ?_⟩
      obtain ⟨r, rfl⟩ := Option.isSome_iff_exists.1 hc
      have hcode := h.2 r.toNat r.isLt
      rwa [BitVec.ofNat_toNat] at hcode
  · rename_i b b' hop
    simp only [Bool.and_eq_true, beq_iff_eq, Bool.or_eq_true, Option.isNone_iff_eq_none,
      decide_eq_true_eq] at h
    obtain ⟨rfl, hroom⟩ := h
    refine .inr ⟨b', hop, fun hp => hroom.resolve_left ?_⟩
    intro hnone
    rw [hnone] at hp
    cases hp
  · cases h

/-- The last opcode byte of a well-formed template has room for a register code. -/
theorem opcode_concat_of_opcodeFormed (h : t.opcodeFormed = true) :
    ∃ bs b, t.opcode = bs ++ [b] ∧ (t.plus.isSome = true → b.toNat ≤ 248) := by
  rcases opcodeFormed_cases h with ⟨b, hop, hroom, -⟩ | ⟨b, hop, hroom⟩
  · exact ⟨[], b, hop, hroom⟩
  · exact ⟨[0x0F], b, hop, hroom⟩

/-- The first opcode byte of a well-formed template is no `PrefixByte`, and is 0FH exactly where a second
follows. -/
theorem opcodeBytes_of_opcodeFormed (h : t.opcodeFormed = true) (hc : c.isSome = t.plus.isSome) :
    ∃ b bs, opcodeBytes t.opcode c = b :: bs ∧ PrefixByte.ofByte b = none ∧
      (b = 0x0F ↔ t.opcode.length = 2) ∧ (b ≠ 0x0F ↔ t.opcode.length = 1) := by
  rcases opcodeFormed_cases h with ⟨b, hop, -, hone⟩ | ⟨b, hop, -⟩
  · obtain ⟨hprefix, hne⟩ := isOneByteOpcode_iff.1 (hone c hc)
    refine ⟨lastOpcodeByte b c, [], ?_, hprefix, ?_⟩
    · rw [hop]
      exact opcodeBytes_concat [] b c
    · simpa [hop] using hne
  · refine ⟨0x0F, [lastOpcodeByte b c], ?_, rfl, ?_⟩
    · rw [hop]
      exact opcodeBytes_concat [0x0F] b c
    · simp [hop]

theorem opcodeBytes_length {opcode : List Byte} (hne : opcode ≠ []) :
    (opcodeBytes opcode c).length = opcode.length := by
  obtain hnil | ⟨bs, b, rfl⟩ := List.eq_nil_or_concat' opcode
  · exact absurd hnil hne
  · rw [opcodeBytes_concat, List.length_append, List.length_append]
    rfl

/-! ### Candidates (rule R111) -/

theorem mem_candidates {ts cs : List Template} (h : candidates f k os ts = .ok cs) {u : Template} :
    u ∈ cs ↔ u ∈ ts ∧ matchTemplate f k os u = .ok true := by
  induction ts generalizing cs with
  | nil => cases h; simp
  | cons t ts ih =>
    simp only [candidates, bind_eq_ok] at h
    obtain ⟨matched, hmatch, cs', hcs, hdone⟩ := h
    cases hdone
    have htail := ih hcs
    cases matched with
    | true =>
      simp only [if_true, List.mem_cons, htail]
      constructor
      · rintro (rfl | ⟨hu, hum⟩)
        · exact ⟨.inl rfl, hmatch⟩
        · exact ⟨.inr hu, hum⟩
      · rintro ⟨rfl | hu, hum⟩
        · exact .inl rfl
        · exact .inr ⟨hu, hum⟩
    | false =>
      simp only [Bool.false_eq_true, if_false, List.mem_cons, htail]
      constructor
      · rintro ⟨hu, hum⟩
        exact ⟨.inr hu, hum⟩
      · rintro ⟨rfl | hu, hum⟩
        · rw [hmatch] at hum
          cases hum
        · exact ⟨hu, hum⟩

theorem mem_longest {ts : List Template} :
    t ∈ longest ts ↔ t ∈ ts ∧ ∀ u ∈ ts, u.opcode.length ≤ t.opcode.length := by
  simp [longest]

/-- The template taken is the only longest candidate. -/
theorem selectTemplate_eq_ok {ts : List Template} :
    selectTemplate f k os ts = .ok t ↔
      ∃ cs, candidates f k os ts = .ok cs ∧ longest cs = [t] := by
  rw [selectTemplate, bind_eq_ok]
  refine exists_congr fun cs => and_congr_right fun _ => ?_
  rcases longest cs with _ | ⟨u, _ | ⟨v, vs⟩⟩ <;> simp

/-- The template taken is one of the table's, and it matches. -/
theorem selectTemplate_mem {ts : List Template} (h : selectTemplate f k os ts = .ok t) :
    t ∈ ts ∧ matchTemplate f k os t = .ok true := by
  obtain ⟨cs, hcs, hlong⟩ := selectTemplate_eq_ok.1 h
  have hmem : t ∈ longest cs := by rw [hlong]; exact List.mem_singleton_self t
  exact (mem_candidates hcs).1 (mem_longest.1 hmem).1

end
end Sys2Proof

/-! ## Whole instructions and their bytes (rules R90, R111, R112, R157, R158) -/

namespace Sys2Proof

section
variable {ε : Type} {f : Fetcher ε} {k n : Nat} {a os as : Size} {p q : PrefixSet}

open Machine (bind_eq_ok PrefixSet.count_add PrefixSet.count_le)

/-! ### The scan as a list of remembered bytes (rules R111, R157, R158) -/

/-- Remembers one `PrefixByte` after the other; `none` when one is a second of its group. -/
def PrefixSet.addAll (p : PrefixSet) : List PrefixByte → Option PrefixSet
  | [] => some p
  | x :: xs => (p.add x).bind fun q => q.addAll xs

/-- The scan remembers the bytes it finds, as long as each is a `PrefixByte` of a group not yet seen. -/
theorem scanPrefixes_eq_ok_iff :
    scanPrefixes f n p = .ok q ↔
      ∃ xs, xs.length < n ∧ p.addAll xs = some q ∧ BytesAt f p.count (xs.map PrefixByte.toByte) ∧
        ∃ b, f.fetch q.count = .ok b ∧ PrefixByte.ofByte b = none := by
  constructor
  · intro h
    induction n generalizing p with
    | zero => cases h
    | succ n ih =>
      cases hb : f.fetch p.count with
      | error e => rw [scanPrefixes_succ_of_error hb] at h; cases h
      | ok b =>
        cases hx : PrefixByte.ofByte b with
        | none =>
          rw [scanPrefixes_succ_of_none hb hx] at h
          cases h
          exact ⟨[], Nat.succ_pos n, rfl, bytesAt_nil, b, hb, hx⟩
        | some x =>
          cases hp : p.add x with
          | none => rw [scanPrefixes_succ_of_duplicate hb hx hp] at h; cases h
          | some p' =>
            rw [scanPrefixes_succ_of_some hb hx hp] at h
            obtain ⟨xs, hlen, hadd, hbytes, hend⟩ := ih h
            rw [PrefixSet.count_add hp] at hbytes
            rw [← PrefixByte.toByte_of_ofByte hx] at hb
            exact ⟨x :: xs, Nat.succ_lt_succ hlen, by rw [PrefixSet.addAll, hp]; exact hadd,
              ⟨hb, hbytes⟩, hend⟩
  · rintro ⟨xs, hlen, hadd, hbytes, b, hb, hnone⟩
    induction xs generalizing n p with
    | nil =>
      obtain ⟨n, rfl⟩ := Nat.exists_eq_succ_of_ne_zero (Nat.pos_iff_ne_zero.1 hlen)
      cases hadd
      exact scanPrefixes_succ_of_none hb hnone
    | cons x xs ih =>
      obtain ⟨n, rfl⟩ := Nat.exists_eq_succ_of_ne_zero (Nat.ne_zero_of_lt hlen)
      obtain ⟨hx, hrest⟩ := hbytes
      obtain ⟨p', hp, hadd⟩ := Option.bind_eq_some_iff.1 hadd
      rw [scanPrefixes_succ_of_some hx x.ofByte_toByte hp]
      rw [← PrefixSet.count_add hp] at hrest
      exact ih (Nat.lt_of_succ_lt_succ hlen) hadd hrest

/-- Remembering a byte puts it among the remembered bytes, in the place of its group. -/
theorem PrefixSet.bytes_add_perm {x : PrefixByte} (h : p.add x = some q) :
    q.bytes.Perm (x.toByte :: p.bytes) := by
  rcases p with ⟨g, a, o, s⟩
  cases x <;>
    simp only [PrefixSet.add, Option.ite_none_left_eq_some, Option.some.injEq] at h <;>
    obtain ⟨hfree, rfl⟩ := h
  case g1 b => simp_all [PrefixSet.bytes, PrefixByte.toByte]
  case addrSize => simp_all [PrefixSet.bytes, PrefixByte.toByte]
  case opSize =>
    obtain rfl : o = false := Bool.eq_false_of_not_eq_true hfree
    have hmiddle := List.perm_middle (a := (0x66 : Byte))
      (l₁ := g.toList.map G1Byte.toByte ++ if a then [0x67] else [])
      (l₂ := s.toList.map SegReg.overrideByte)
    simpa only [PrefixSet.bytes, PrefixByte.toByte, if_true, Bool.false_eq_true, if_false,
      List.append_nil, List.append_assoc, List.singleton_append] using hmiddle
  case seg r =>
    obtain rfl : s = none := by simpa using hfree
    have hlast := List.perm_append_singleton r.overrideByte
      (g.toList.map G1Byte.toByte ++ (if a then [0x67] else []) ++ if o then [0x66] else [])
    simpa only [PrefixSet.bytes, PrefixByte.toByte, Option.toList_some, Option.toList_none,
      List.map_cons, List.map_nil, List.append_nil] using hlast

theorem PrefixSet.bytes_empty : PrefixSet.empty.bytes = [] := rfl

/-- The scanned bytes are the remembered ones, in some order. -/
theorem PrefixSet.bytes_addAll_perm {xs : List PrefixByte} (h : p.addAll xs = some q) :
    q.bytes.Perm (xs.map PrefixByte.toByte ++ p.bytes) := by
  induction xs generalizing p with
  | nil => cases h; rfl
  | cons x xs ih =>
    obtain ⟨p', hp, hadd⟩ := Option.bind_eq_some_iff.1 h
    have hfirst := (PrefixSet.bytes_add_perm hp).append_left (xs.map PrefixByte.toByte)
    exact ((ih hadd).trans hfirst).trans List.perm_middle

/-- The remembered bytes in the order of `PrefixSet.bytes`, as `PrefixByte`s. -/
def PrefixSet.items (p : PrefixSet) : List PrefixByte :=
  p.g1.toList.map .g1 ++ (if p.addrSize then [.addrSize] else []) ++
    (if p.opSize then [.opSize] else []) ++ p.seg.toList.map .seg

theorem PrefixSet.map_toByte_items (p : PrefixSet) : p.items.map PrefixByte.toByte = p.bytes := by
  rcases p with ⟨_ | _, _ | _, _ | _, _ | _⟩ <;> rfl

theorem PrefixSet.addAll_items (p : PrefixSet) : PrefixSet.empty.addAll p.items = some p := by
  rcases p with ⟨_ | _, _ | _, _ | _, _ | _⟩ <;> rfl

theorem PrefixSet.items_length (p : PrefixSet) : p.items.length = p.count := by
  rw [← p.bytes_length, ← p.map_toByte_items, List.length_map]

/-- The bytes of a `PrefixSet`, with a byte that is no `PrefixByte` behind them, are scanned as that set. -/
theorem scanPrefixes_of_bytesAt {b : Byte} (hbytes : BytesAt f 0 p.bytes)
    (hb : f.fetch p.count = .ok b) (hnone : PrefixByte.ofByte b = none) :
    scanPrefixes f 5 PrefixSet.empty = .ok p := by
  have hcount := PrefixSet.count_le p
  have hlen := p.items_length
  rw [← p.map_toByte_items] at hbytes
  exact scanPrefixes_eq_ok_iff.2 ⟨p.items, by omega, p.addAll_items, hbytes, b, hb, hnone⟩

/-! ### The body of an instruction and its bytes (rules R90, R102, R107 to R112) -/

/-- When an address specifier fits the ModR/M marker: they go together, its own fields agree, and its reg field
is the marker's digit if there is one. -/
theorem addrFits_iff {m : Option ModRMMark} {o : Option AddrSpec} :
    addrFits m a o = true ↔
      m.isSome = o.isSome ∧ (∀ s ∈ o, s.wellFormed a = true) ∧
        ∀ digit, m = some (.slashDigit digit) → ∃ s ∈ o, regField s.modrm = digit := by
  rcases o with _ | s
  · rcases m with _ | _ | digit <;> simp [addrFits]
  · rcases m with _ | _ | digit <;> simp [addrFits]

/-- The checks of a well-formed decoded instruction, by name. -/
structure FieldsFit (os as : Size) (d : Decoded) : Prop where
  opcode : d.template.opcodeFormed = true
  opSize : d.opSize = overridden os d.prefixes.opSize
  addrSize : d.addrSize = overridden as d.prefixes.addrSize
  cond : d.template.cond = none ∨ d.template.cond = some d.opSize
  regCode : d.regCode.isSome = d.template.plus.isSome
  addr : addrFits d.template.modrm d.addrSize d.addr = true
  moffs : d.moffs.length = moffsSize d.addrSize d.template.moffs
  code : d.code.length = codeSize d.template.codeField
  imms : d.imms.map List.length = d.template.imms.map ImmField.size
  notTooLong : d.length ≤ maxInstrLen

theorem fieldsFit_of_wellFormed {d : Decoded} (h : d.wellFormed os as = true) : FieldsFit os as d := by
  simp only [Decoded.wellFormed, Template.wellFormed, Bool.and_eq_true, beq_iff_eq, Bool.or_eq_true,
    decide_eq_true_eq] at h
  obtain ⟨⟨⟨⟨⟨⟨⟨⟨⟨⟨hop, -⟩, hos⟩, has⟩, hcond⟩, hreg⟩, haddr⟩, hmoffs⟩, hcode⟩, himms⟩, hlen⟩ := h
  exact ⟨hop, hos, has, hcond, hreg, haddr, hmoffs, hcode, himms, hlen⟩

/-- The bytes of a body are those of its fields, one field after the other. -/
theorem bytesAt_encodeBody {d : Decoded} (hne : d.template.opcode ≠ []) :
    BytesAt f k (encodeBody d) ↔
      BytesAt f k (opcodeBytes d.template.opcode d.regCode) ∧
        BytesAt f (k + d.template.opcode.length) (addrBytes d.addr) ∧
        BytesAt f (k + d.template.opcode.length + addrLength d.addr) d.moffs ∧
        BytesAt f (k + d.template.opcode.length + addrLength d.addr + d.moffs.length) d.code ∧
        BytesAt f
          (k + d.template.opcode.length + addrLength d.addr + d.moffs.length + d.code.length)
          d.imms.flatten := by
  simp only [encodeBody, bytesAt_append, List.length_append, opcodeBytes_length hne, addrBytes_length,
    and_assoc, Nat.add_assoc]

/-- A well-formed instruction's body is read from its bytes, with its template as the whole table. -/
theorem bodyRead_of_bytesAt {d : Decoded} (hfit : FieldsFit os as d)
    (hbytes : BytesAt f k (encodeBody d)) :
    BodyRead f { templates := [d.template], opSize := os, addrSize := as } k d := by
  obtain ⟨bs, b, hop, hroom⟩ := opcode_concat_of_opcodeFormed hfit.opcode
  have hne : d.template.opcode ≠ [] := by simp [hop]
  rw [bytesAt_encodeBody hne] at hbytes
  obtain ⟨hopcode, haddr, hmoffs, hcode, himms⟩ := hbytes
  obtain ⟨hmatch, hreg⟩ := match_of_bytesAt_opcodeBytes hop hroom hfit.regCode hopcode
  obtain ⟨hmark, hspec, hdigit⟩ := addrFits_iff.1 hfit.addr
  refine
    { opSize := hfit.opSize
      addrSize := hfit.addrSize
      template := selectTemplate_singleton.2
        ⟨rfl, matchTemplate_eq_true.2 ⟨hmatch, hfit.cond, fun digit hm => ?_⟩⟩
      regCode := hreg
      addr := takeOptAddr_eq_ok.2 ⟨hmark, hspec, haddr⟩
      moffs := takeBytes_eq_ok.2 ⟨hfit.moffs, hmoffs⟩
      code := takeBytes_eq_ok.2 ⟨hfit.code, hcode⟩
      imms := takeFields_eq_ok.2 ⟨hfit.imms, himms⟩
      notTooLong := hfit.notTooLong }
  obtain ⟨s, hs, hfield⟩ := hdigit digit hm
  rw [Option.mem_def.1 hs] at haddr
  exact ⟨s.modrm, haddr.1, hfield⟩

/-- A body that is read is its bytes, whatever the table it was decoded over. -/
theorem bytesAt_of_bodyRead {env : DecodeEnv} {d : Decoded} (h : BodyRead f env k d) :
    BytesAt f k (encodeBody d) := by
  obtain ⟨-, hmatch⟩ := selectTemplate_mem h.template
  have hop := (matchTemplate_eq_true.1 hmatch).1
  have hne : d.template.opcode ≠ [] := List.ne_nil_of_length_pos (opcode_pos_of_match hop)
  exact (bytesAt_encodeBody hne).2
    ⟨(bytesAt_opcodeBytes_of_match hop h.regCode).1, (takeOptAddr_eq_ok.1 h.addr).2.2,
      (takeBytes_eq_ok.1 h.moffs).2, (takeBytes_eq_ok.1 h.code).2, (takeFields_eq_ok.1 h.imms).2⟩

end

/-- Settles O5: the bytes before the opcode are scanned as their set, and the body is read field by field. -/
theorem instructionRoundTrip : Obligations.InstructionRoundTrip := by
  intro os as d rest hwf
  have hfit := fieldsFit_of_wellFormed hwf
  have hall : BytesAt (listFetcher (encodeInstruction d ++ rest)) 0 (encodeInstruction d) :=
    bytesAt_listFetcher.2 (List.prefix_append _ _)
  obtain ⟨hprefixes, hbody⟩ := bytesAt_append.1 hall
  rw [PrefixSet.bytes_length, Nat.zero_add] at hbody
  have hread := bodyRead_of_bytesAt hfit hbody
  obtain ⟨b, bs, hop, hnone, -⟩ := opcodeBytes_of_opcodeFormed hfit.opcode hfit.regCode
  have hfirst := hbody
  simp only [encodeBody, hop, List.cons_append, bytesAt_cons] at hfirst
  exact decodeInstruction_eq_ok.2 ⟨scanPrefixes_of_bytesAt hprefixes hfirst.1 hnone, hread⟩

/-- Settles O6: the scan finds the remembered bytes in some order, and the body is its bytes. -/
theorem decodedInstructionIsItsBytes : Obligations.DecodedInstructionIsItsBytes := by
  intro env bytes d h
  obtain ⟨hscan, hread⟩ := decodeInstruction_eq_ok.1 h
  obtain ⟨xs, -, hadd, hxs, -⟩ := scanPrefixes_eq_ok_iff.1 hscan
  obtain ⟨rest, hbody⟩ := bytesAt_listFetcher.1 (bytesAt_of_bodyRead hread)
  refine ⟨?_, ⟨rest, hbody.symm⟩, hread.notTooLong, (selectTemplate_mem hread.template).1⟩
  have hperm : d.prefixes.bytes.Perm (xs.map PrefixByte.toByte) := by
    simpa only [PrefixSet.bytes_empty, List.append_nil] using PrefixSet.bytes_addAll_perm hadd
  have hfront : bytes.take d.prefixes.count = xs.map PrefixByte.toByte := by
    rw [← d.prefixes.bytes_length, hperm.length_eq]
    exact (List.prefix_iff_eq_take.1 (bytesAt_listFetcher.1 hxs)).symm
  rw [hfront]
  exact hperm.symm

/-- Settles O8: a candidate as long as the only longest one is that one. -/
theorem longestCandidateIsTaken : Obligations.LongestCandidateIsTaken := by
  intro f k os ts t h
  obtain ⟨cs, hcs, hlong⟩ := selectTemplate_eq_ok.1 h
  obtain ⟨hmem, hmatch⟩ := selectTemplate_mem h
  refine ⟨hmem, hmatch, fun u hu hum => ?_⟩
  have hlongest : ∀ v, v ∈ longest cs ↔ v = t := by simp [hlong]
  obtain ⟨-, hmax⟩ := mem_longest.1 ((hlongest t).2 rfl)
  have hucs := (mem_candidates hcs).2 ⟨hu, hum⟩
  refine (Nat.lt_or_eq_of_le (hmax u hucs)).imp_right fun hlen => ?_
  rw [← hlen] at hmax
  exact (hlongest u).1 (mem_longest.2 ⟨hucs, hmax⟩)

/-- Settles O9: the byte behind the scanned ones is the first opcode byte of the template taken. -/
theorem twoByteOpcodesStartWith0F : Obligations.TwoByteOpcodesStartWith0F := by
  refine ⟨by decide, fun env bytes d hwf h => ?_⟩
  obtain ⟨-, hread⟩ := decodeInstruction_eq_ok.1 h
  obtain ⟨hmem, hmatch⟩ := selectTemplate_mem hread.template
  have hformed : d.template.opcodeFormed = true := by
    have := hwf d.template hmem
    rw [Template.wellFormed, Bool.and_eq_true] at this
    exact this.1
  obtain ⟨hopcode, hreg⟩ := bytesAt_opcodeBytes_of_match (matchTemplate_eq_true.1 hmatch).1 hread.regCode
  obtain ⟨b, bs, hop, -, hlen⟩ := opcodeBytes_of_opcodeFormed hformed hreg
  rw [hop] at hopcode
  exact ⟨b, listFetcher_fetch_eq_ok.1 hopcode.1, hlen⟩

end Sys2Proof

/-! ## The decoder of one row, both ways (rules R111, R131) -/

namespace Sys2Proof

/-- Every row is one byte. -/
theorem encode_singleton (i : Instr) : ∃ b, encode i = [b] := by
  cases i <;> exact ⟨_, rfl⟩

/-- The twelve rows a byte is decoded to, in the order in which rule R131 has their bytes. -/
def assignedRows : List Instr :=
  [.cmc, .lock, .repneRepnz, .rep, .segES, .segCS, .segSS, .segDS, .segFS, .segGS, .opsize, .addrsize]

theorem mem_assignedRows {i : Instr} : i ∈ assignedRows ↔ i.wellFormed = true := by
  cases i <;> decide

theorem flatMap_encode_assignedRows :
    assignedRows.flatMap encode =
      [0xF5, 0xF0, 0xF2, 0xF3, 0x26, 0x2E, 0x36, 0x3E, 0x64, 0x65, 0x66, 0x67] := rfl

/-- A byte has a well-formed row exactly when it is one of the twelve. -/
theorem mem_assignedBytes {b : Byte} :
    b ∈ assignedRows.flatMap encode ↔ ∃ i : Instr, i.wellFormed = true ∧ encode i = [b] := by
  rw [List.mem_flatMap]
  refine exists_congr fun i => ?_
  obtain ⟨c, hc⟩ := encode_singleton i
  rw [mem_assignedRows, hc, List.mem_singleton, List.singleton_inj, eq_comm (a := b)]

/-- The byte of any row is the byte of a well-formed one: the two names of F3H share theirs. -/
theorem exists_wellFormed_encode (i : Instr) : ∃ j : Instr, j.wellFormed = true ∧ encode j = encode i := by
  by_cases hi : i = .repeRepz
  · exact ⟨.rep, rfl, by rw [hi]; rfl⟩
  · exact ⟨i, by cases i <;> trivial, rfl⟩

theorem row_wellFormed (x : PrefixByte) : x.row.wellFormed = true ∧ x.row ≠ .cmc := by
  rcases x with b | _ | _ | r
  · cases b <;> decide
  · decide
  · decide
  · cases r <;> decide

/-- CMC is the row of F5H alone. -/
theorem eq_cmc_iff_of_encode {i : Instr} {b : Byte} (hwf : i.wellFormed = true) (h : encode i = [b]) :
    i = .cmc ↔ b = 0xF5 := by
  constructor
  · rintro rfl
    exact (List.singleton_inj.1 h).symm
  · rintro rfl
    by_contra hi
    obtain ⟨x, rfl⟩ := exists_prefixByte_of_wellFormed hwf hi
    have hbyte : x.toByte = 0xF5 := List.singleton_inj.1 ((encode_row x).symm.trans h)
    have hread := x.ofByte_toByte
    rw [hbyte] at hread
    cases hread

/-- A byte is decided to be a row exactly when that row is well formed and is that byte. -/
theorem unitOfByte_eq_ok {ε : Type} {refuse : DecodeRefusal → ε} {b : Byte} {i : Instr} {n : Nat} :
    unitOfByte refuse b = .ok (i, n) ↔ i.wellFormed = true ∧ encode i = [b] ∧ n = 1 := by
  constructor
  · intro h
    unfold unitOfByte at h
    split at h
    · rename_i x hx
      cases h
      exact ⟨(row_wellFormed x).1, by rw [encode_row, PrefixByte.toByte_of_ofByte hx], rfl⟩
    · split at h
      · rename_i hb
        cases h
        exact ⟨rfl, by rw [hb]; rfl, rfl⟩
      · cases h
  · rintro ⟨hwf, henc, rfl⟩
    have hunit := decodeUnit_encode (f := { fetch := fun _ => .ok b, refuse := refuse })
      (p := PrefixSet.empty) rfl hwf henc .s16 .s16
    rwa [decodeUnit_specEnv] at hunit

section
variable {os as : Size} {b : Byte} {bytes rest : List Byte} {i : Instr}

/-- Reading a row from a list is deciding its first byte. -/
theorem decode_cons :
    decode (specEnv os as) (b :: bytes) =
      (unitOfByte DecodeError.refused b).map fun unit => (unit.1, (b :: bytes).drop unit.2) := by
  rw [decode, decodeUnit_specEnv]
  change (unitOfByte DecodeError.refused b >>= _) = _
  cases unitOfByte DecodeError.refused b <;> rfl

/-- A row is read from the front of a list exactly when it is well formed and its byte stands there. -/
theorem decode_eq_ok :
    decode (specEnv os as) bytes = .ok (i, rest) ↔ i.wellFormed = true ∧ bytes = encode i ++ rest := by
  obtain ⟨c, hc⟩ := encode_singleton i
  cases bytes with
  | nil =>
    rw [hc]
    constructor
    · intro h
      cases h
    · rintro ⟨-, h⟩
      cases h
  | cons b bytes =>
    rw [decode_cons, hc, List.singleton_append, List.cons.injEq]
    constructor
    · intro h
      cases hunit : unitOfByte DecodeError.refused b with
      | error e => rw [hunit] at h; cases h
      | ok unit =>
        rw [hunit] at h
        cases h
        obtain ⟨hwf, henc, hn⟩ := unitOfByte_eq_ok.1 hunit
        rw [hn, List.singleton_inj.1 (henc.symm.trans hc)]
        exact ⟨hwf, rfl, rfl⟩
    · rintro ⟨hwf, rfl, rfl⟩
      rw [unitOfByte_eq_ok.2 ⟨hwf, hc, rfl⟩]
      rfl

/-- A first byte of no row is refused. -/
theorem decode_cons_of_no_row (h : ∀ j : Instr, encode j ≠ [b]) :
    decode (specEnv os as) (b :: bytes) = .error (.refused .opcodeNotInSource) := by
  have hunit := decodeUnit_no_row (f := listFetcher (b :: bytes)) (p := PrefixSet.empty) rfl h os as
  rw [decode, hunit]
  rfl

end

/-- Settles O2, by the one equivalence for both directions. -/
theorem encodedRowDecodes : Obligations.EncodedRowDecodes :=
  fun _ _ _ _ hwf => decode_eq_ok.2 ⟨hwf, rfl⟩

/-- Settles O3, by the same equivalence. -/
theorem decodedRowIsItsByte : Obligations.DecodedRowIsItsByte :=
  fun _ _ _ _ _ h => (decode_eq_ok.1 h).symm

/-- Settles O4: the twelve bytes are those of the well-formed rows, and no row has another. -/
theorem twelveFirstBytesAssigned : Obligations.TwelveFirstBytesAssigned := by
  intro os as b rest
  rw [← flatMap_encode_assignedRows, mem_assignedBytes]
  constructor
  · rintro ⟨i, hwf, henc⟩
    exact ⟨i, henc, decode_eq_ok.2 ⟨hwf, by rw [henc]; rfl⟩, eq_cmc_iff_of_encode hwf henc⟩
  · intro hnone
    have hno : ∀ j : Instr, encode j ≠ [b] := by
      intro j hj
      obtain ⟨i, hwf, henc⟩ := exists_wellFormed_encode j
      exact hnone ⟨i, hwf, henc.trans hj⟩
    exact ⟨hno, decode_cons_of_no_row hno⟩

/-! ### The table's numbering of bytes -/

/-- The first byte of a number of eight bits. -/
theorem tableBytes_eight (w : Nat) :
    tableBytes 8 w = BitVec.ofNat 8 w :: leBytes 14 (w % 2 ^ 8 / 256) := by
  have hlow : BitVec.ofNat 8 (w % 2 ^ 8) = BitVec.ofNat 8 w := BitVec.eq_of_toNat_eq (by simp)
  rw [tableBytes, maxInstrLen, leBytes, hlow]

theorem decodeTableWord_of_encode {i : Instr} {w : Nat} (hwf : i.wellFormed = true)
    (henc : encode i = [BitVec.ofNat 8 w]) : decodeTableWord 8 w = some i := by
  have hdecode := (decode_eq_ok (os := .s32) (as := .s32)).2
    ⟨hwf, show tableBytes 8 w = encode i ++ _ by rw [henc]; exact tableBytes_eight w⟩
  rw [decodeTableWord, hdecode]

theorem decodeTableWord_of_no_row {w : Nat} (h : ∀ i : Instr, encode i ≠ [BitVec.ofNat 8 w]) :
    decodeTableWord 8 w = none := by
  rw [decodeTableWord, tableBytes_eight, decode_cons_of_no_row h]

/-- Settles O1. -/
theorem tableWordsDecode : Obligations.TableWordsDecode :=
  ⟨decodeTableWord_of_encode rfl rfl, decodeTableWord_of_encode rfl rfl,
    decodeTableWord_of_encode rfl rfl, decodeTableWord_of_encode rfl rfl,
    decodeTableWord_of_encode rfl rfl, decodeTableWord_of_no_row fun i => by cases i <;> decide⟩

end Sys2Proof

/-! ## Rows that remember a byte (rules R150 to R157) -/

namespace Sys2Proof

section
variable {p : PrefixSet}

theorem PrefixSet.add_g1 (h : p.g1 = none) (b : G1Byte) :
    p.add (.g1 b) = some { p with g1 := some b } := by
  simp [PrefixSet.add, h]

theorem PrefixSet.add_seg (h : p.seg = none) (r : SegReg) :
    p.add (.seg r) = some { p with seg := some r } := by
  simp [PrefixSet.add, h]

theorem PrefixSet.add_opSize (h : p.opSize = false) :
    p.add .opSize = some { p with opSize := true } := by
  simp [PrefixSet.add, h]

theorem PrefixSet.add_addrSize (h : p.addrSize = false) :
    p.add .addrSize = some { p with addrSize := true } := by
  simp [PrefixSet.add, h]

end

end Sys2Proof

namespace Sys2Proof.Machine

/-- The row of a `PrefixByte` remembers that byte. -/
theorem exec_row (x : PrefixByte) (s : State) : exec x.row s = (rememberPrefix x s).outcome := by
  rcases x with b | _ | _ | r
  · cases b <;> rfl
  · rfl
  · rfl
  · cases r <;> rfl

/-- The second name of F3H means what the first does. -/
theorem exec_repeRepz (s : State) : exec .repeRepz s = exec .rep s := rfl

/-- Such a row completes where its byte can be remembered, and changes nothing else. -/
theorem exec_row_of_add {s : State} {x : PrefixByte} {p : PrefixSet} (h : s.pending.add x = some p) :
    exec x.row s = .next { s with pending := p } := by
  rw [exec_row]
  exact outcome_eq_next.2 (rememberPrefix_eq_ok.2 ⟨p, h, rfl⟩)

/-- Settles O46. -/
theorem groupOneRowsRemember : Obligations.GroupOneRowsRemember := by
  intro s h
  have hrow (b : G1Byte) := exec_row_of_add (PrefixSet.add_g1 h b)
  exact ⟨hrow .rep, (exec_repeRepz s).trans (hrow .rep), hrow .repne, hrow .lock⟩

/-- Settles O47. -/
theorem segmentRowsRemember : Obligations.SegmentRowsRemember := by
  intro s h
  have hrow (r : SegReg) := exec_row_of_add (PrefixSet.add_seg h r)
  exact ⟨hrow .cs, hrow .ss, hrow .ds, hrow .es, hrow .fs, hrow .gs⟩

/-- Settles O48. -/
theorem sizeRowsRemember : Obligations.SizeRowsRemember :=
  ⟨fun _ h => exec_row_of_add (PrefixSet.add_opSize h),
    fun _ h => exec_row_of_add (PrefixSet.add_addrSize h), ⟨rfl, rfl⟩, fun _ => rfl⟩

end Sys2Proof.Machine

/-! ## ModR/M and SIB bytes, and what follows them (rules R95, R100 to R102) -/

namespace Sys2Proof

/-- A byte is its bits 7..6, 5..3 and 2..0 at their places. -/
theorem toNat_eq_fields (m : Byte) :
    m.toNat = (m.extractLsb' 6 2).toNat * 64 + (m.extractLsb' 3 3).toNat * 8 +
      (m.extractLsb' 0 3).toNat := by
  have hm := m.isLt
  simp only [BitVec.extractLsb'_toNat, Nat.shiftRight_eq_div_pow]
  omega

/-- Settles O10: both bytes have their fields at the same places. -/
theorem modRMAndSibBytesAreTheirFields : Obligations.ModRMAndSibBytesAreTheirFields :=
  ⟨toNat_eq_fields, toNat_eq_fields⟩

theorem toNat_append_eq_add {m n : Nat} (x : BitVec m) (y : BitVec n) :
    (x ++ y).toNat = x.toNat * 2 ^ n + y.toNat := by
  rw [BitVec.toNat_append, ← Nat.shiftLeft_add_eq_or_of_lt y.isLt, Nat.shiftLeft_eq]

section
variable (mod : BitVec 2) (reg rm : BitVec 3)

/-- The fields of a byte made of three fields are those three. -/
theorem fields_modrmByte :
    modField (modrmByte mod reg rm) = mod ∧ regField (modrmByte mod reg rm) = reg ∧
      rmField (modrmByte mod reg rm) = rm := by
  have hsum := toNat_eq_fields (modrmByte mod reg rm)
  have hbyte : (modrmByte mod reg rm).toNat = (mod.toNat * 2 ^ 3 + reg.toNat) * 2 ^ 3 + rm.toNat := by
    rw [modrmByte, toNat_append_eq_add, toNat_append_eq_add]
  have hreg := reg.isLt
  have hrm := rm.isLt
  have hreg' := (regField (modrmByte mod reg rm)).isLt
  have hrm' := (rmField (modrmByte mod reg rm)).isLt
  change _ = (modField _).toNat * 64 + (regField _).toNat * 8 + (rmField _).toNat at hsum
  refine ⟨BitVec.eq_of_toNat_eq ?_, BitVec.eq_of_toNat_eq ?_, BitVec.eq_of_toNat_eq ?_⟩ <;> omega

@[simp] theorem modField_modrmByte : modField (modrmByte mod reg rm) = mod :=
  (fields_modrmByte mod reg rm).1

@[simp] theorem rmField_modrmByte : rmField (modrmByte mod reg rm) = rm :=
  (fields_modrmByte mod reg rm).2.2

@[simp] theorem baseField_sibByte : baseField (sibByte mod reg rm) = rm :=
  rmField_modrmByte mod reg rm

/-- Rule R100. -/
theorem needsSib_modrmByte {a : Size} :
    needsSib a (modrmByte mod reg rm) = true ↔ a = .s32 ∧ mod ≠ 3 ∧ rm = 4 := by
  cases a <;> simp [needsSib]

/-- Rule R102, for a 16-bit address size. -/
theorem dispSize_s16 (sib : Option Byte) :
    dispSize .s16 (modrmByte 0 reg rm) sib = (if rm = 6 then 2 else 0) ∧
      dispSize .s16 (modrmByte 1 reg rm) sib = 1 ∧ dispSize .s16 (modrmByte 2 reg rm) sib = 2 ∧
      dispSize .s16 (modrmByte 3 reg rm) sib = 0 := by
  simp [dispSize]

/-- Rule R102, for a 32-bit address size and mod other than 00. -/
theorem dispSize_s32 (sib : Option Byte) :
    dispSize .s32 (modrmByte 1 reg rm) sib = 1 ∧ dispSize .s32 (modrmByte 2 reg rm) sib = 4 ∧
      dispSize .s32 (modrmByte 3 reg rm) sib = 0 := by
  simp [dispSize]

/-- Rule R102, for a 32-bit address size and mod 00 without a SIB byte. -/
theorem dispSize_s32_none :
    dispSize .s32 (modrmByte 0 reg rm) none = (if rm = 5 then 4 else 0) := by
  simp [dispSize]

/-- Rule R102, for a 32-bit address size and mod 00 with a SIB byte. -/
theorem dispSize_s32_some (ss : BitVec 2) (index base : BitVec 3) :
    dispSize .s32 (modrmByte 0 reg 4) (some (sibByte ss index base)) = (if base = 5 then 4 else 0) := by
  simp [dispSize]

end

/-- Settles O11: the sizes from the fields of the bytes, the places from the bytes of an address specifier. -/
theorem sibAndDisplacementSizes : Obligations.SibAndDisplacementSizes := by
  refine ⟨fun a reg rm mod => needsSib_modrmByte mod reg rm, fun reg rm sib => ?_,
    fun reg rm _ => dispSize_s32_none reg rm, dispSize_s32_some, ?_, ?_⟩
  · obtain ⟨h0, h1, h2, h3⟩ := dispSize_s16 reg rm sib
    exact ⟨h0, h1, h2, h3, dispSize_s32 reg rm sib⟩
  · intro a m disp rest hneeds hlen
    refine takeAddr_eq_ok_iff_bytesAt.2 ⟨?_, bytesAt_listFetcher.2 ?_⟩
    · simp [AddrSpec.wellFormed, hneeds, hlen]
    · exact List.prefix_append (m :: disp) rest
  · intro a m s disp rest hneeds hlen
    refine takeAddr_eq_ok_iff_bytesAt.2 ⟨?_, bytesAt_listFetcher.2 ?_⟩
    · simp [AddrSpec.wellFormed, hneeds, hlen]
    · exact List.prefix_append (m :: s :: disp) rest

end Sys2Proof

/-! ## Relative addresses (rules R25, R115, R116) -/

namespace Sys2Proof.Machine

section
variable {s : State} {d : Decoded}

/-- The end of an instruction as an integer. -/
theorem endOfInstruction_of_fits (h : s.pc.toNat + d.length < 2 ^ 32) :
    endOfInstruction s d = .ok (BitVec.ofInt 32 (s.pc.toNat + d.length)) := by
  refine endOffset_eq_ok.2 ⟨h, ?_⟩
  rw [BitVec.ofInt_add, BitVec.ofInt_natCast, BitVec.ofInt_natCast, BitVec.ofNat_toNat,
    BitVec.setWidth_eq]

theorem endOfInstruction_of_wraps (h : 2 ^ 32 ≤ s.pc.toNat + d.length) :
    endOfInstruction s d = .error (.refuse .pcWrap) :=
  endOffset_eq_error.2 ⟨h, rfl⟩

/-- A signed field is added as an integer, modulo 2^32. -/
theorem ofInt_add_signExtend {w : Nat} (e : Int) (v : BitVec w) :
    BitVec.ofInt 32 e + v.signExtend 32 = BitVec.ofInt 32 (e + v.toInt) := by
  rw [BitVec.signExtend, BitVec.ofInt_add]

theorem rel8Target_ofInt (e : Int) (b : Byte) :
    rel8Target (BitVec.ofInt 32 e) b = BitVec.ofInt 32 (e + b.toInt) :=
  ofInt_add_signExtend e b

theorem rel32Target_ofInt (e : Int) (v : DWord) :
    rel32Target (BitVec.ofInt 32 e) v = BitVec.ofInt 32 (e + v.toInt) := by
  rw [← ofInt_add_signExtend, BitVec.signExtend_eq, rel32Target]

/-- The target of rel16 is the sum modulo 2^16. -/
theorem toNat_rel16Target_ofInt (e : Int) (v : Word) :
    ((rel16Target (BitVec.ofInt 32 e) v).toNat : Int) = (e + v.toInt) % 2 ^ 16 := by
  rw [rel16Target, ofInt_add_signExtend, truncTo]
  simp only [BitVec.toNat_setWidth, BitVec.toNat_ofInt]
  omega

/-- A relative operand with a field of its size. -/
theorem readOperand_rel8 {b : Byte} (h : d.code = [b]) :
    readOperand s d .rel8 =
      some ((endOfInstruction s d).map fun e => .target (rel8Target e b)) := by
  have hcode := codeOffset_of_code h (n := 1) rfl
  simp [readOperand, hcode, leValue]

theorem readOperand_rel16 {v : Word} (h : d.code = leBytes 2 v.toNat) :
    readOperand s d .rel16 =
      some ((endOfInstruction s d).map fun e => .target (rel16Target e v)) := by
  have hcode := codeOffset_of_code h (leBytes_length 2 _)
  simp [readOperand, hcode, leValue_leBytes_word]

theorem readOperand_rel32 {v : DWord} (h : d.code = leBytes 4 v.toNat) :
    readOperand s d .rel32 =
      some ((endOfInstruction s d).map fun e => .target (rel32Target e v)) := by
  have hcode := codeOffset_of_code h (leBytes_length 4 _)
  simp [readOperand, hcode, leValue_leBytes_dword]

end

/-- Settles O37: the end of the instruction as an integer, plus the signed field. -/
theorem relativeTargets : Obligations.RelativeTargets := by
  intro s d
  constructor
  · intro hfits
    have hend := endOfInstruction_of_fits hfits
    refine ⟨fun b h => ⟨_, ?_, rel8Target_ofInt _ b⟩, fun v h => ⟨_, ?_, toNat_rel16Target_ofInt _ v⟩,
      fun v h => ⟨_, ?_, rel32Target_ofInt _ v⟩⟩
    · rw [readOperand_rel8 h, hend]
      rfl
    · rw [readOperand_rel16 h, hend]
      rfl
    · rw [readOperand_rel32 h, hend]
      rfl
  · intro hwraps
    have hend := endOfInstruction_of_wraps hwraps
    refine ⟨fun h => ?_, fun h => ?_, fun h => ?_⟩ <;>
      simp only [readOperand, codeOffset, h, if_true, Option.map_some, hend, Except.map]

/-! ## Operand forms with no meaning (rule R133) -/

/-- A memory-only operand of several parts is refused in a register. -/
theorem readMulti_of_register {s : State} {d : Decoded} {spec : AddrSpec} (haddr : d.addr = some spec)
    (hmod : modField spec.modrm = 3) (n : Nat) :
    readMulti s d n = some (.error (.refuse .registerFormOfMemoryOperand)) := by
  simp only [readMulti, rmOperand, haddr, Option.map_some, resolveRM_eq_reg hmod, memOnly, refuse]

/-- Settles O40. -/
theorem undefinedOperandFormsRefused : Obligations.UndefinedOperandFormsRefused := by
  constructor
  · intro s d spec sym haddr hmod hsym
    have hread := readMulti_of_register (s := s) haddr hmod
    simp only [List.mem_cons, List.not_mem_nil, or_false] at hsym
    rcases hsym with rfl | rfl | rfl | rfl | rfl <;>
      simp only [readOperand, hread, Option.map_some, Except.map]
  · rfl

end Sys2Proof.Machine

/-! ## The operand symbols (rules R97, R98, R118 to R129) -/

namespace Sys2Proof.Machine

/-! ### Registers, r/m operands and segment registers -/

section
variable (f : GprFile) {d : Decoded}

/-- The register symbols name the register of their kind with the operand's code. -/
theorem operandLoc_register {c : BitVec 3} (h : registerCode d = some c) :
    operandLoc f d .r8 = some (.byte, .reg (RegOperand.ofCode .byte c)) ∧
      operandLoc f d .r16 = some (.word, .reg (RegOperand.ofCode .word c)) ∧
      operandLoc f d .r32 = some (.dword, .reg (RegOperand.ofCode .dword c)) := by
  simp only [operandLoc, h, Option.map_some, and_self]

theorem registerCode_of_regCode {c : BitVec 3} (h : d.regCode = some c) : registerCode d = some c := by
  rw [registerCode, h]

theorem registerCode_of_addr {a : AddrSpec} (h : d.regCode = none) (ha : d.addr = some a) :
    registerCode d = some (regField a.modrm) := by
  rw [registerCode, h, ha]
  rfl

theorem operandLoc_rm {a : AddrSpec} (h : d.addr = some a) :
    operandLoc f d .rm8 = some (.byte, resolveRM f d.addrSize a .byte d.prefixes.seg) ∧
      operandLoc f d .rm16 = some (.word, resolveRM f d.addrSize a .word d.prefixes.seg) ∧
      operandLoc f d .rm32 = some (.dword, resolveRM f d.addrSize a .dword d.prefixes.seg) := by
  simp only [operandLoc, rmOperand, h, Option.map_some, and_self]

variable {s : State} {a : AddrSpec} (ha : d.addr = some a)
include ha

theorem readOperand_sreg :
    readOperand s d .sreg = some ((sregOfCode (regField a.modrm)).map OperandVal.seg) := by
  simp only [readOperand, ha, Option.map_some]

theorem readOperand_sreg_of_some {r : SegReg} (h : SegReg.ofCode? (regField a.modrm) = some r) :
    readOperand s d .sreg = some (.ok (.seg r)) := by
  rw [readOperand_sreg ha, sregOfCode, h]
  rfl

theorem readOperand_sreg_of_none (h : SegReg.ofCode? (regField a.modrm) = none) :
    readOperand s d .sreg = some (.error (.refuse .sregCodeUndefined)) := by
  rw [readOperand_sreg ha, sregOfCode, h]
  rfl

end

/-! ### Immediates -/

section
variable {s : State} {d : Decoded} {first rest : List (List Byte)}

/-- The field found is the first of its width. -/
theorem immediate_of_first {bytes : List Byte} {n : Nat} (hfirst : ∀ x ∈ first, x.length ≠ n)
    (hn : bytes.length = n) (h : d.imms = first ++ bytes :: rest) :
    immediate d n = some (leValue bytes) := by
  have hfind : d.imms.find? (fun b => b.length == n) = some bytes := by
    rw [List.find?_eq_some_iff_append]
    refine ⟨by simpa using hn, first, rest, h, fun x hx => ?_⟩
    simpa using hfirst x hx
  rw [immediate, hfind]
  rfl

theorem readOperand_imm8 {b : Byte} (hfirst : ∀ x ∈ first, x.length ≠ 1)
    (h : d.imms = first ++ [b] :: rest) :
    readOperand s d .imm8 = some (.ok (.num .byte (b.setWidth 32))) := by
  have himm := immediate_of_first hfirst rfl h
  simp [readOperand, himm, leValue]

theorem readOperand_imm16 {v : Word} (hfirst : ∀ x ∈ first, x.length ≠ 2)
    (h : d.imms = first ++ leBytes 2 v.toNat :: rest) :
    readOperand s d .imm16 = some (.ok (.num .word (v.setWidth 32))) := by
  have himm := immediate_of_first hfirst (leBytes_length 2 _) h
  simp [readOperand, himm, leValue_leBytes_word]

theorem readOperand_imm32 {v : DWord} (hfirst : ∀ x ∈ first, x.length ≠ 4)
    (h : d.imms = first ++ leBytes 4 v.toNat :: rest) :
    readOperand s d .imm32 = some (.ok (.num .dword v)) := by
  have himm := immediate_of_first hfirst (leBytes_length 4 _) h
  simp [readOperand, himm, leValue_leBytes_dword]

theorem toInt_imm8Extended (os : Size) (b : Byte) : (imm8Extended os b).toInt = b.toInt :=
  BitVec.toInt_signExtend_of_le (by cases os <;> decide)

end

/-! ### Operands with a location -/

/-- An operand with a location is read and written there. -/
theorem readOperand_writeOperand_of_operandLoc {s : State} {d : Decoded} {sym : OperandSym}
    {w : DataWidth} {loc : Loc} (h : operandLoc s.regs d sym = some (w, loc)) :
    readOperand s d sym = some ((readLoc s w loc).map (OperandVal.num w)) ∧
      ∀ v, writeOperand s d sym v = some (writeLoc s w v loc) := by
  refine ⟨?_, fun v => by rw [writeOperand, h]; rfl⟩
  unfold readOperand
  split
  case h_15 =>
    rw [h]
    rfl
  all_goals cases h

section
variable (f : GprFile) {d : Decoded}

theorem operandLoc_moffs {sym : OperandSym} {w : DataWidth}
    (h : (sym, w) ∈ [(OperandSym.moffs8, DataWidth.byte), (.moffs16, .word), (.moffs32, .dword)]) :
    operandLoc f d sym = some (w, moffsLoc d) := by
  simp only [List.mem_cons, List.not_mem_nil, or_false, Prod.mk.injEq] at h
  rcases h with ⟨rfl, rfl⟩ | ⟨rfl, rfl⟩ | ⟨rfl, rfl⟩ <;> rfl

/-- The offset of a `moffs` operand is the value of its field. -/
theorem moffsLoc_word {o : Word} (h : d.moffs = leBytes 2 o.toNat) :
    moffsLoc d = .mem (d.prefixes.seg.getD .ds) (o.setWidth 32) := by
  simp [moffsLoc, effectiveSeg, h, leValue_leBytes_word]

theorem moffsLoc_dword {o : DWord} (h : d.moffs = leBytes 4 o.toNat) :
    moffsLoc d = .mem (d.prefixes.seg.getD .ds) o := by
  simp [moffsLoc, effectiveSeg, h, leValue_leBytes_dword]

/-- A string index under an address size, the free choice taken as it is. -/
theorem stringIndex_eq (size : Size) (r : Gpr) :
    stringIndex f size r =
      if size = .s32 ∧ Config.stringIndexWide = true then f.get32 r else (f.get16 r).setWidth 32 := by
  cases size <;> simp [stringIndex]

theorem operandLoc_string {sym : StringSide → OperandSym} {w : DataWidth}
    (h : (sym, w) ∈ [(OperandSym.m8, DataWidth.byte), (.m16, .word), (.m32, .dword)])
    (side : StringSide) : operandLoc f d (sym side) = some (w, stringLoc f d side) := by
  simp only [List.mem_cons, List.not_mem_nil, or_false, Prod.mk.injEq] at h
  rcases h with ⟨rfl, rfl⟩ | ⟨rfl, rfl⟩ | ⟨rfl, rfl⟩ <;> rfl

end

/-! ### What the remembered bytes do not reach -/

section
variable (s : State) (p : PrefixSet)

theorem memWrite_setPending (a : DWord) (n v : Nat) :
    memWrite (s.setPending p) a n v = (memWrite s a n v).map fun t => t.setPending p := by
  unfold memWrite
  split <;> rfl

theorem setStackPointer_setPending (v : DWord) :
    setStackPointer (s.setPending p) v = (setStackPointer s v).setPending p := by
  unfold setStackPointer
  rw [State.setPending_params]
  split <;> rfl

@[simp] theorem pushPointer_setPending (os : Size) :
    pushPointer (s.setPending p) os = pushPointer s os := rfl

@[simp] theorem popPointer_setPending (os : Size) :
    popPointer (s.setPending p) os = popPointer s os := rfl

@[simp] theorem stackPointer_setPending : stackPointer (s.setPending p) = stackPointer s := rfl

@[simp] theorem stackItemWraps_setPending (o : DWord) (n : Nat) :
    stackItemWraps (s.setPending p) o n = stackItemWraps s o n := rfl

@[simp] theorem lin_setPending (seg : SegReg) (off : DWord) (kind : AccessKind) (n : Nat) :
    lin (s.setPending p) seg off kind n = lin s seg off kind n := rfl

@[simp] theorem memRead_setPending (a : DWord) (n : Nat) :
    memRead (s.setPending p) a n = memRead s a n := rfl

theorem push_setPending (os : Size) (v : BitVec os.width) :
    push os v (s.setPending p) = (push os v s).map fun t => t.setPending p := by
  simp only [push, pushPointer_setPending, stackItemWraps_setPending, lin_setPending,
    memWrite_setPending]
  cases stackItemWraps s (pushPointer s os) os.bytes with
  | true => rfl
  | false =>
    cases lin s .ss (pushPointer s os) .write os.bytes with
    | error e => rfl
    | ok a =>
      cases hstore : memWrite s a os.bytes v.toNat <;>
        simp [hstore, bind, Except.bind, Except.map, setStackPointer_setPending]

theorem pop_setPending (os : Size) :
    pop os (s.setPending p) = (pop os s).map fun r => (r.1, r.2.setPending p) := by
  simp only [pop, stackPointer_setPending, popPointer_setPending, stackItemWraps_setPending,
    lin_setPending, memRead_setPending, setStackPointer_setPending]
  cases stackItemWraps s (stackPointer s) os.bytes with
  | true => rfl
  | false =>
    cases lin s .ss (stackPointer s) .read os.bytes with
    | error e => rfl
    | ok a =>
      cases hload : memRead s a os.bytes <;> simp [hload, bind, Except.bind, Except.map]

end

/-- Settles O39, symbol after symbol. -/
theorem operandSymbolsDenoteTheirOperands : Obligations.OperandSymbolsDenoteTheirOperands := by
  refine ⟨fun f d => ⟨fun c h => ?_, fun a h ha => ?_, fun a => operandLoc_rm f⟩,
    fun s d a ha => ⟨fun r => readOperand_sreg_of_some ha, readOperand_sreg_of_none ha⟩,
    fun s d first rest => ⟨fun b => readOperand_imm8, fun v => readOperand_imm16,
      fun v => readOperand_imm32⟩,
    toInt_imm8Extended, fun s d sym w loc => readOperand_writeOperand_of_operandLoc, ⟨rfl, rfl⟩,
    fun f d sym w hsym => ⟨fun o h => ?_, fun o h => ?_⟩,
    ⟨Config.stringIndexWide, fun f d sym w hsym => ?_⟩,
    fun s p => ⟨fun k => rfl, push_setPending s p, pop_setPending s p⟩⟩
  · exact operandLoc_register f (registerCode_of_regCode h)
  · exact operandLoc_register f (registerCode_of_addr h ha)
  · rw [operandLoc_moffs f hsym, moffsLoc_word h]
  · rw [operandLoc_moffs f hsym, moffsLoc_dword h]
  · rw [operandLoc_string f hsym, operandLoc_string f hsym, stringLoc, stringLoc, stringIndex_eq,
      stringIndex_eq]
    exact ⟨rfl, rfl⟩

end Sys2Proof.Machine

/-! ## Rows that are refused: a second byte of a group (rule R157) -/

namespace Sys2Proof

section
variable {p : PrefixSet}

theorem PrefixSet.add_g1_eq_none (h : p.g1 ≠ none) (b : G1Byte) : p.add (.g1 b) = none :=
  if_pos (Option.isSome_iff_ne_none.2 h)

theorem PrefixSet.add_seg_eq_none (h : p.seg ≠ none) (r : SegReg) : p.add (.seg r) = none :=
  if_pos (Option.isSome_iff_ne_none.2 h)

theorem PrefixSet.add_opSize_eq_none (h : p.opSize = true) : p.add .opSize = none := if_pos h

theorem PrefixSet.add_addrSize_eq_none (h : p.addrSize = true) : p.add .addrSize = none := if_pos h

end

end Sys2Proof

namespace Sys2Proof.Machine

theorem rememberPrefix_of_add_eq_none {s : State} {x : PrefixByte} (h : s.pending.add x = none) :
    rememberPrefix x s = .error (.refuse .duplicatePrefixGroup) := by
  rw [rememberPrefix, h, refuse]

/-- The row of a `PrefixByte` is refused where its byte cannot be remembered. -/
theorem exec_row_of_add_eq_none {s : State} {x : PrefixByte} (h : s.pending.add x = none) :
    exec x.row s = .refused .duplicatePrefixGroup := by
  rw [exec_row]
  exact outcome_eq_refused.2 (rememberPrefix_of_add_eq_none h)

/-- Settles O49, group by group. -/
theorem secondByteOfGroupRefused : Obligations.SecondByteOfGroupRefused := by
  intro s
  refine ⟨fun h i hi => ?_, fun h i hi => ?_,
    fun h => exec_row_of_add_eq_none (PrefixSet.add_opSize_eq_none h),
    fun h => exec_row_of_add_eq_none (PrefixSet.add_addrSize_eq_none h)⟩
  · have hrow (b : G1Byte) := exec_row_of_add_eq_none (PrefixSet.add_g1_eq_none h b)
    simp only [List.mem_cons, List.not_mem_nil, or_false] at hi
    rcases hi with rfl | rfl | rfl | rfl
    exacts [hrow .rep, (exec_repeRepz s).trans (hrow .rep), hrow .repne, hrow .lock]
  · have hrow (r : SegReg) := exec_row_of_add_eq_none (PrefixSet.add_seg_eq_none h r)
    simp only [List.mem_cons, List.not_mem_nil, or_false] at hi
    rcases hi with rfl | rfl | rfl | rfl | rfl | rfl
    exacts [hrow .cs, hrow .ss, hrow .ds, hrow .es, hrow .fs, hrow .gs]

/-! ## The segment an override selects (rules R73, R74, R153) -/

/-- Without an override a memory operand is in SS or in DS. -/
theorem defaultSeg_eq_ss_or_ds (size : Size) (a : AddrSpec) :
    defaultSeg size a = .ss ∨ defaultSeg size a = .ds := by
  cases size with
  | s16 => exact ite_eq_or_eq _ _ _
  | s32 => exact ite_eq_or_eq _ _ _

/-- The row of a segment register completes, and a memory operand after it is in that segment, at the
effective address it has under any override and under none. -/
theorem exec_segRow_resolveRM {s : State} (h : s.pending.seg = none) (f : GprFile) (size : Size)
    {a : AddrSpec} (hmod : modField a.modrm ≠ 3) (w : DataWidth) (r : SegReg) :
    ∃ t, exec (PrefixByte.seg r).row s = .next t ∧
      resolveRM f size a w t.pending.seg = .mem r (effectiveAddress f size a) :=
  ⟨_, exec_row_of_add (PrefixSet.add_seg h r), resolveRM_eq_mem hmod⟩

/-- Settles O36: only the segment of a memory operand depends on the override. -/
theorem overrideSelectsSegment : Obligations.OverrideSelectsSegment := by
  intro s f size a w h hmod
  have hrow := exec_segRow_resolveRM h f size hmod w
  exact ⟨defaultSeg size a, effectiveAddress f size a, resolveRM_eq_mem hmod,
    defaultSeg_eq_ss_or_ds size a, hrow .cs, hrow .ss, hrow .ds, hrow .es, hrow .fs, hrow .gs⟩

end Sys2Proof.Machine

/-! ## Displacement fields (rules R103, R171 to R173, R177 to R179) -/

namespace Sys2Proof.Machine

/-- A field's bytes give back the value they hold. -/
theorem ofNat_leValue_byte (d : Byte) : BitVec.ofNat 8 (leValue [d]) = d := by
  simp [leValue]

theorem ofNat_leValue_word (d : Word) : BitVec.ofNat 16 (leValue (leBytes 2 d.toNat)) = d := by
  rw [leValue_leBytes_word, BitVec.ofNat_toNat, BitVec.setWidth_eq]

theorem ofNat_leValue_dword (d : DWord) : BitVec.ofNat 32 (leValue (leBytes 4 d.toNat)) = d := by
  rw [leValue_leBytes_dword, BitVec.ofNat_toNat, BitVec.setWidth_eq]

section
variable {rm : BitVec 3} {bytes : List Byte}

/-- Under mod 00 only code 6 has a displacement, `disp16`. -/
theorem dispTerm16_mod0 (h : rm ≠ 6) : dispTerm16 0 rm bytes = 0 := if_neg h

theorem dispTerm16_mod0_disp16 (d : Word) : dispTerm16 0 6 (leBytes 2 d.toNat) = d :=
  ofNat_leValue_word d

theorem dispTerm16_mod1 (d : Byte) : dispTerm16 1 rm [d] = d.signExtend 16 :=
  congrArg (BitVec.signExtend 16) (ofNat_leValue_byte d)

theorem dispTerm16_mod2 (d : Word) : dispTerm16 2 rm (leBytes 2 d.toNat) = d :=
  ofNat_leValue_word d

/-- Under mod 00 only base 5 has a displacement, `disp32`. -/
theorem dispTerm32_mod0 (h : rm ≠ 5) : dispTerm32 0 rm bytes = 0 := if_neg h

theorem dispTerm32_mod0_disp32 (d : DWord) : dispTerm32 0 5 (leBytes 4 d.toNat) = d :=
  ofNat_leValue_dword d

theorem dispTerm32_mod1 (d : Byte) : dispTerm32 1 rm [d] = d.signExtend 32 :=
  congrArg (BitVec.signExtend 32) (ofNat_leValue_byte d)

theorem dispTerm32_mod2 (d : DWord) : dispTerm32 2 rm (leBytes 4 d.toNat) = d :=
  ofNat_leValue_dword d

end

/-! ## The 16-bit forms (Table 17-2) -/

section
variable (f : GprFile) {mod : BitVec 2} (reg : BitVec 3) {rm : BitVec 3} {bytes : List Byte}
  (w : DataWidth) (ov : Option SegReg) {seg : SegReg} {sum x : Word}

/-- A row of Table 17-2, from its default segment, the sum of its registers and its displacement. -/
theorem resolveRM_s16_row (hmod : mod ≠ 3) (hseg : defaultSeg16 mod rm = seg)
    (hsum : regTerm16 f mod rm = sum) (hdisp : dispTerm16 mod rm bytes = x) :
    resolveRM f .s16 { modrm := modrmByte mod reg rm, sib := none, disp := bytes } w ov =
      .mem (ov.getD seg) ((sum + x).setWidth 32) := by
  rw [resolveRM_eq_mem (by simpa using hmod)]
  simp [defaultSeg, effectiveAddress, hseg, hsum, hdisp]

/-- A row under mod 00 without a displacement. -/
theorem resolveRM_s16_mod0 (hrm : rm ≠ 6) (hseg : defaultSeg16 0 rm = seg)
    (hsum : regTerm16 f 0 rm = sum) :
    resolveRM f .s16 { modrm := modrmByte 0 reg rm, sib := none, disp := [] } w ov =
      .mem (ov.getD seg) (sum.setWidth 32) := by
  rw [resolveRM_s16_row f reg w ov (by decide) hseg hsum (dispTerm16_mod0 hrm), add_zero]

end

/-- Settles O29, row by row; code 6 is the displacement alone. -/
theorem table172NoDisplacement : Obligations.Table172NoDisplacement := by
  intro f reg w ov d at0 loc
  have row {rm : BitVec 3} {seg : SegReg} {sum : Word} (hrm : rm ≠ 6) (hseg : defaultSeg16 0 rm = seg)
      (hsum : regTerm16 f 0 rm = sum) : at0 rm [] = loc seg sum :=
    resolveRM_s16_mod0 f reg w ov hrm hseg hsum
  have disp16 : at0 6 (leBytes 2 d.toNat) = loc .ds (0 + d) :=
    resolveRM_s16_row f reg w ov (by decide) rfl rfl (dispTerm16_mod0_disp16 d)
  rw [zero_add] at disp16
  exact ⟨row (by decide) rfl rfl, row (by decide) rfl rfl, row (by decide) rfl rfl,
    row (by decide) rfl rfl, row (by decide) rfl rfl, row (by decide) rfl rfl, disp16,
    row (by decide) rfl rfl⟩

/-- Settles O30: mod 01 and mod 10 differ in the displacement only, and only code 6 asks whether mod
is 00. -/
theorem table172Displacement : Obligations.Table172Displacement := by
  intro f reg w ov mod bytes x hx at0 loc
  obtain ⟨hmod0, hmod3, hdisp⟩ :
      mod ≠ 0 ∧ mod ≠ 3 ∧ ∀ rm : BitVec 3, dispTerm16 mod rm bytes = x := by
    obtain ⟨rfl, d, rfl, rfl⟩ | ⟨rfl, rfl⟩ := hx
    · exact ⟨by decide, by decide, fun _ => dispTerm16_mod1 d⟩
    · exact ⟨by decide, by decide, fun _ => dispTerm16_mod2 x⟩
  have row {rm : BitVec 3} {seg : SegReg} {sum : Word} (hseg : defaultSeg16 mod rm = seg)
      (hsum : regTerm16 f mod rm = sum) : at0 rm = loc seg (sum + x) :=
    resolveRM_s16_row f reg w ov hmod3 hseg hsum (hdisp rm)
  exact ⟨row rfl rfl, row rfl rfl, row rfl rfl, row rfl rfl, row rfl rfl, row rfl rfl,
    row (if_pos (.inr (.inr ⟨rfl, hmod0⟩))) (if_neg hmod0), row rfl rfl⟩

/-- Only BX, BP, SI and DI enter the register sum of a 16-bit form (rule R175). -/
theorem regTerm16_congr {f g : GprFile}
    (h : ∀ r, r ∈ [Gpr.ebx, Gpr.ebp, Gpr.esi, Gpr.edi] → f.get16 r = g.get16 r) (mod : BitVec 2)
    (rm : BitVec 3) : regTerm16 f mod rm = regTerm16 g mod rm := by
  have hbx := h .ebx (by decide)
  have hbp := h .ebp (by decide)
  have hsi := h .esi (by decide)
  have hdi := h .edi (by decide)
  simp only [regTerm16, hbx, hbp, hsi, hdi]

/-- Settles O35: a register form reads no register, and a memory form reads the register sum only. -/
theorem highHalvesPlayNoPart : Obligations.HighHalvesPlayNoPart := by
  intro f g spec w ov h
  by_cases hmod : modField spec.modrm = 3
  · rw [resolveRM_eq_reg hmod, resolveRM_eq_reg hmod]
  · rw [resolveRM_eq_mem hmod, resolveRM_eq_mem hmod]
    simp only [effectiveAddress, regTerm16_congr h]

/-! ## The register forms (rule R174) -/

theorem needsSib_of_register (a : Size) {m : Byte} (h : modField m = 3) : needsSib a m = false := by
  cases a <;> simp [needsSib, h]

theorem dispSize_of_register (a : Size) {m : Byte} (h : modField m = 3) (sib : Option Byte) :
    dispSize a m sib = 0 := by
  cases a <;> simp [dispSize, h]

/-- Settles O33: the code table is finite, and mod = 11 decides every field of the form. -/
theorem registerForms : Obligations.RegisterForms := by
  refine ⟨by decide, fun s a spec w ov h => ?_⟩
  have hloc := resolveRM_eq_reg (f := s.regs) (size := a) (w := w) (o := ov) h
  refine ⟨hloc, needsSib_of_register a h, dispSize_of_register a h spec.sib, ?_⟩
  rw [hloc, readLoc_reg]

/-! ## The 32-bit forms (Tables 17-3 and 17-4) -/

theorem ssField_sibByte (ss : BitVec 2) (index base : BitVec 3) :
    ssField (sibByte ss index base) = ss :=
  (fields_modrmByte ss index base).1

theorem indexField_sibByte (ss : BitVec 2) (index base : BitVec 3) :
    indexField (sibByte ss index base) = index :=
  (fields_modrmByte ss index base).2.1

/-- Scaling an index is shifting it left by the scale field (rules R191, R192). -/
theorem indexTerm_eq_shiftLeft (f : GprFile) (ss : BitVec 2) (index : BitVec 3) :
    indexTerm f ss index = if index = 4 then 0 else f.get32 (Gpr.ofCode index) <<< ss.toNat := by
  have hscale : BitVec.ofNat 32 (2 ^ ss.toNat) = BitVec.twoPow 32 ss.toNat := by
    apply BitVec.eq_of_toNat_eq
    rw [BitVec.toNat_ofNat, BitVec.toNat_twoPow]
  rw [indexTerm, hscale, BitVec.shiftLeft_eq_mul_twoPow]

/-- The index of a form with a SIB byte is that byte's. -/
theorem indexOf32_sibByte (f : GprFile) (ss : BitVec 2) (index base : BitVec 3) {m : Byte}
    {disp : List Byte} :
    indexOf32 f { modrm := m, sib := some (sibByte ss index base), disp := disp } =
      if index = 4 then 0 else f.get32 (Gpr.ofCode index) <<< ss.toNat := by
  simp only [indexOf32, ssField_sibByte, indexField_sibByte, indexTerm_eq_shiftLeft]

section
variable (f : GprFile) {mod : BitVec 2} {base : BitVec 3}

/-- Every base code names a register but 5 under mod 00, which is no base (rules R193, R194). -/
theorem baseTerm_of_base_ne (h : base ≠ 5) : baseTerm f base mod = f.get32 (Gpr.ofCode base) :=
  if_neg fun hnone => h hnone.1

theorem baseTerm_of_mod_ne (h : mod ≠ 0) : baseTerm f base mod = f.get32 (Gpr.ofCode base) :=
  if_neg fun hnone => h hnone.2

theorem baseTerm_mod0_base5 : baseTerm f 5 0 = 0 := rfl

/-- Rule R74: a base ESP is in SS, and a base EBP where there is one. -/
theorem defaultSeg32_of_base_ne (h : base ≠ 5) :
    defaultSeg32 base mod = if base = 4 then .ss else .ds := by
  simp only [defaultSeg32, h, false_and, or_false]

theorem defaultSeg32_of_mod_ne (h : mod ≠ 0) :
    defaultSeg32 base mod = if base = 4 ∨ base = 5 then .ss else .ds := by
  simp only [defaultSeg32, ne_eq, h, not_false_eq_true, and_true]

theorem defaultSeg32_mod0_base5 : defaultSeg32 5 0 = .ds := rfl

/-- A row of Tables 17-3 and 17-4, from its default segment, its base, its index and its displacement. -/
theorem resolveRM_s32_row {a : AddrSpec} (w : DataWidth) (ov : Option SegReg) {seg : SegReg}
    {b i x : DWord} (hmod : modField a.modrm = mod) (hbase : baseOf32 a = base) (hmem : mod ≠ 3)
    (hseg : defaultSeg32 base mod = seg) (hb : baseTerm f base mod = b) (hi : indexOf32 f a = i)
    (hx : dispTerm32 mod base a.disp = x) :
    resolveRM f .s32 a w ov = .mem (ov.getD seg) (b + i + x) := by
  subst hmod hbase hseg hb hi hx
  exact resolveRM_eq_mem hmem

end

/-- Settles O31: the r/m field is the base, and there is no index. -/
theorem table173Forms : Obligations.Table173Forms := by
  intro f reg rm w ov d8 d32 hrm at0 r seg
  have row {mod : BitVec 2} {bytes : List Byte} {sg : SegReg} {b x : DWord} (hmem : mod ≠ 3)
      (hseg : defaultSeg32 rm mod = sg) (hb : baseTerm f rm mod = b)
      (hx : dispTerm32 mod rm bytes = x) : at0 mod bytes = .mem (ov.getD sg) (b + x) := by
    have hform := resolveRM_s32_row f w ov (modField_modrmByte mod reg rm)
      (a := { modrm := modrmByte mod reg rm, sib := none, disp := bytes })
      (rmField_modrmByte mod reg rm) hmem hseg hb rfl hx
    rwa [show indexOf32 f _ = 0 from rfl, add_zero] at hform
  have hseg {mod : BitVec 2} (h : mod ≠ 0) : defaultSeg32 rm mod = if rm = 5 then .ss else .ds := by
    simp only [defaultSeg32_of_mod_ne h, hrm, false_or]
  refine ⟨fun h5 => ?_, fun h5 => ?_,
    row (by decide) (hseg (by decide)) (baseTerm_of_mod_ne f (by decide)) (dispTerm32_mod1 d8),
    row (by decide) (hseg (by decide)) (baseTerm_of_mod_ne f (by decide)) (dispTerm32_mod2 d32)⟩
  · have hform := row (bytes := []) (by decide) ((defaultSeg32_of_base_ne h5).trans (if_neg hrm))
      (baseTerm_of_base_ne f h5) (dispTerm32_mod0 h5)
    rwa [add_zero] at hform
  · subst h5
    have hform := row (by decide) defaultSeg32_mod0_base5 (baseTerm_mod0_base5 f)
      (dispTerm32_mod0_disp32 d32)
    rwa [zero_add] at hform

/-- Settles O32: the SIB byte gives the base and the index. -/
theorem table174Forms : Obligations.Table174Forms := by
  intro f reg ss index base w ov d8 d32 at0 b i seg
  have row {mod : BitVec 2} {bytes : List Byte} {sg : SegReg} {b x : DWord} (hmem : mod ≠ 3)
      (hseg : defaultSeg32 base mod = sg) (hb : baseTerm f base mod = b)
      (hx : dispTerm32 mod base bytes = x) : at0 mod bytes = .mem (ov.getD sg) (b + i + x) :=
    resolveRM_s32_row f w ov (modField_modrmByte mod reg 4) (baseField_sibByte ss index base) hmem
      hseg hb (indexOf32_sibByte f ss index base) hx
  refine ⟨fun h5 => ?_, fun h5 => ?_,
    row (by decide) (defaultSeg32_of_mod_ne (by decide)) (baseTerm_of_mod_ne f (by decide))
      (dispTerm32_mod1 d8),
    row (by decide) (defaultSeg32_of_mod_ne (by decide)) (baseTerm_of_mod_ne f (by decide))
      (dispTerm32_mod2 d32)⟩
  · have hform := row (bytes := []) (by decide) (defaultSeg32_of_base_ne h5)
      (baseTerm_of_base_ne f h5) (dispTerm32_mod0 h5)
    rwa [add_zero] at hform
  · subst h5
    have hform := row (by decide) defaultSeg32_mod0_base5 (baseTerm_mod0_base5 f)
      (dispTerm32_mod0_disp32 d32)
    rwa [zero_add, add_comm] at hform

end Sys2Proof.Machine

/-! ## CMC where it completes (rule R210) -/

namespace Sys2Proof.Machine

/-- Everything CMC does when it completes, and when it does. -/
theorem exec_cmc_eq_next {s t : State} :
    exec .cmc s = .next t ↔
      s.pending = PrefixSet.empty ∧ s.pc.toNat + 1 < 2 ^ 32 ∧ t = (s.setPc (s.pc + 1)).setCf (!s.cf) :=
  outcome_eq_next.trans runCmc_eq_ok

/-- Settles O42. -/
theorem cmcComplementsCarry : Obligations.CmcComplementsCarry :=
  fun _ hp hpc => exec_cmc_eq_next.2 ⟨hp, hpc, rfl⟩

/-- Settles O44: the two complements of CF cancel, and the two increments of `pc` add up. -/
theorem twoCmcRestoreCarry : Obligations.TwoCmcRestoreCarry := by
  intro s t u hst htu
  obtain ⟨-, -, rfl⟩ := exec_cmc_eq_next.1 hst
  obtain ⟨-, -, rfl⟩ := exec_cmc_eq_next.1 htu
  have hcf : (!!s.cf) = s.cf := Bool.not_not s.cf
  have hpc : s.pc + 1 + 1 = s.pc + 2 := BitVec.add_assoc s.pc 1 1
  simp only [State.setPc, State.setCf, hcf, hpc]

theorem endInstruction_setParams (s : State) (n : Nat) (p : Params) :
    endInstruction (s.setParams p) n = (endInstruction s n).map fun t => t.setParams p := by
  have hend : endOffset (s.setParams p) n = endOffset s n := rfl
  rw [endInstruction, endInstruction, hend]
  cases endOffset s n <;> rfl

theorem runCmc_setParams (s : State) (p : Params) :
    runCmc (s.setParams p) = (runCmc s).map fun t => t.setParams p := by
  rw [runCmc, runCmc, State.setParams_pending, endInstruction_setParams]
  cases checkCmcPrefixes s.pending with
  | error e => rfl
  | ok u => cases endInstruction s 1 <;> rfl

/-- CMC neither reads nor writes a parameter. -/
theorem exec_cmc_setParams (s : State) (p : Params) :
    exec .cmc (s.setParams p) = mapNext (fun t => t.setParams p) (exec .cmc s) :=
  (congrArg Result.outcome (runCmc_setParams s p)).trans (outcome_map _ _)

/-- Settles O45: the outcome is that of the other state with the parameters replaced. -/
theorem cmcIgnoresParameters : Obligations.CmcIgnoresParameters := by
  intro s p
  refine ⟨fun t h => ?_, fun r h => ?_, exec_ne_fault .cmc s⟩
  all_goals
    have hparams := exec_cmc_setParams s p
    rw [h] at hparams
    exact hparams

/-! ## What a step runs, and where the run is over (rules R213, R289) -/

theorem isOver_eq_false {s : State} : isOver s = false ↔ s.pc ≠ s.params.endPc :=
  beq_eq_false_iff_ne

section
variable {s : State} (hmark : isMarked s = false)
include hmark

/-- At `EndPc` an unmarked state answers itself. -/
theorem step_of_isOver (hover : isOver s = true) : step s = .next s := by
  obtain ⟨hf, hr⟩ := isMarked_eq_false.1 hmark
  simp only [step, hf, hr, hover, if_true]

section
variable (hover : isOver s = false)
include hover

/-- Where the decoding succeeds, a step runs the row. -/
theorem step_of_decodeNext_ok {i : Instr} {n : Nat} (h : decodeNext s = .ok (i, n)) :
    step s = exec i s := by
  obtain ⟨hf, hr⟩ := isMarked_eq_false.1 hmark
  simp only [step, hf, hr, hover, h, Bool.false_eq_true, if_false]

/-- Where the decoding stops, a step stops in the same way. -/
theorem step_of_decodeNext_error {e : Stop} (h : decodeNext s = .error e) :
    step s = Result.outcome (.error e) := by
  obtain ⟨hf, hr⟩ := isMarked_eq_false.1 hmark
  simp only [step, hf, hr, hover, h, Bool.false_eq_true, if_false]

end

end

/-- Settles O50. -/
theorem stepRunsDecodedRow : Obligations.StepRunsDecodedRow := by
  intro s hf hr hpc
  have hmark := isMarked_eq_false.2 ⟨hf, hr⟩
  have hover := isOver_eq_false.2 hpc
  exact ⟨fun _ _ h => step_of_decodeNext_ok hmark hover h,
    fun _ h => step_of_decodeNext_error hmark hover h,
    fun _ h => step_of_decodeNext_error hmark hover h⟩

theorem advanceN_eq_iterate (n : Nat) (s : State) : advanceN n s = advance^[n] s := by
  induction n generalizing s with
  | zero => rfl
  | succ n ih => exact ih (advance s)

theorem isFinal_iff {s : State} : isFinal s = true ↔ isOver s = true ∧ isMarked s = false := by
  simp [isFinal]

/-- Settles O52: a final state is a fixed point of the advance. -/
theorem finalStateStays : Obligations.FinalStateStays := by
  intro s h
  obtain ⟨hover, hmark⟩ := isFinal_iff.1 h
  have hstep := step_of_isOver hmark hover
  refine ⟨hstep, fun n => ?_⟩
  rw [advanceN_eq_iterate]
  exact Function.iterate_fixed (advance_of_next hmark hstep) n

/-! ## Steps over single rows and the step over a whole instruction (rules R111, R157, R213, log entry 1) -/

theorem run_one {M : Host.Core} (s : M.State) : M.run 1 s = M.step s := by
  rw [Host.Core.run]
  cases M.step s <;> rfl

theorem run_succ_of_next {M : Host.Core} {s t : M.State} (h : M.step s = .next t) (n : Nat) :
    M.run (n + 1) s = M.run n t := by
  rw [Host.Core.run, h]

/-- Some number of steps, at least one and at most `n`, ends with the outcome. -/
def EndsWithin (n : Nat) (s : State) (o : Host.Outcome State Fault Refusal) : Prop :=
  ∃ m, 1 ≤ m ∧ m ≤ n ∧ Host.Core.run core m s = o

theorem endsWithin_of_step {s : State} {o : Host.Outcome State Fault Refusal} (h : step s = o)
    (n : Nat) : EndsWithin (n + 1) s o :=
  ⟨1, le_rfl, Nat.succ_pos n, (run_one (M := core) s).trans h⟩

/-- A step that completes leaves one step less. -/
theorem endsWithin_of_next {n : Nat} {s t : State} {o : Host.Outcome State Fault Refusal}
    (h : step s = .next t) (ht : EndsWithin n t o) : EndsWithin (n + 1) s o := by
  obtain ⟨m, -, hle, hrun⟩ := ht
  exact ⟨m + 1, Nat.succ_pos m, Nat.succ_le_succ hle, (run_succ_of_next (M := core) h m).trans hrun⟩

/-- The outcome of a decoded instruction: its row runs under its remembered bytes, or the machine stops as
the decoding did. -/
def outcomeOfDecoded (s : State) : Result Decoded → Host.Outcome State Fault Refusal
  | .ok d => exec d.template.row (s.setPending d.prefixes)
  | .error e => Result.outcome (.error e)

/-- A marked state, and one at `EndPc`, has the same answer in both views. -/
theorem instructionStep_of_stopped {s : State} (h : isMarked s = true ∨ isOver s = true) :
    instructionStep s = step s := by
  unfold instructionStep step
  cases hf : s.faultMark with
  | some f => rfl
  | none =>
    cases hr : s.refusedMark with
    | some r => rfl
    | none =>
      have hover : isOver s = true := h.resolve_left (by simp [isMarked, hf, hr])
      simp only [hover, if_true]

section
variable {s : State} (hmark : isMarked s = false) (hover : isOver s = false)
include hmark hover

theorem instructionStep_eq_outcomeOfDecoded :
    instructionStep s = outcomeOfDecoded s (decodeInstruction (stateFetcher s) (stateEnv s)) := by
  obtain ⟨hf, hr⟩ := isMarked_eq_false.1 hmark
  simp only [instructionStep, hf, hr, hover, Bool.false_eq_true, if_false]
  cases decodeInstruction (stateFetcher s) (stateEnv s) <;> rfl

variable {p : PrefixSet}

/-- A step stops where the fetch of its byte does. -/
theorem step_setPending_of_fetch_error {e : Stop} (h : fetchByte s p.count = .error e) :
    step (s.setPending p) = Result.outcome (.error e) := by
  have hdecode : decodeNext (s.setPending p) = .error e := bind_eq_error.2 (.inl h)
  exact step_of_decodeNext_error (s := s.setPending p) hmark hover hdecode

variable {b : Byte} (hb : fetchByte s p.count = .ok b)
include hb

/-- At a `PrefixByte`, a step is one round of the scan. -/
theorem step_setPending_of_prefixByte {x : PrefixByte} (hx : PrefixByte.ofByte b = some x) :
    step (s.setPending p) = exec x.row (s.setPending p) := by
  have hdecode : decodeNext (s.setPending p) = .ok (x.row, 1) :=
    decodeUnit_prefix (f := stateFetcher s) hb hx _
  exact step_of_decodeNext_ok (s := s.setPending p) hmark hover hdecode

/-- At any other byte, a step is the rest of the instruction. -/
theorem step_setPending_of_body (hx : PrefixByte.ofByte b = none) :
    step (s.setPending p) =
      outcomeOfDecoded s (decodeBody (stateFetcher s) (stateEnv s) p p.count) := by
  have hunit : decodeNext (s.setPending p) =
      (decodeBody (stateFetcher s) (stateEnv s) p p.count).map
        fun d => (d.template.row, d.bodyLength) :=
    decodeUnit_body (f := stateFetcher s) hb hx _
  cases hbody : decodeBody (stateFetcher s) (stateEnv s) p p.count with
  | error e =>
    rw [hbody] at hunit
    exact step_of_decodeNext_error (s := s.setPending p) hmark hover hunit
  | ok d =>
    rw [hbody] at hunit
    obtain ⟨rfl, -⟩ := decodeBody_eq_ok.1 hbody
    exact step_of_decodeNext_ok (s := s.setPending d.prefixes) hmark hover hunit

end

/-- What is left of decoding an instruction with the bytes of `p` remembered and `n` rounds of the scan
to go. -/
def decodeRest (s : State) (n : Nat) (p : PrefixSet) : Result Decoded :=
  scanPrefixes (stateFetcher s) n p >>= fun q => decodeBody (stateFetcher s) (stateEnv s) q q.count

section
variable {s : State} {n : Nat} {p q : PrefixSet} {b : Byte}

theorem decodeRest_of_fetch_error {e : Stop} (h : fetchByte s p.count = .error e) :
    decodeRest s (n + 1) p = .error e :=
  bind_eq_error.2 (.inl (scanPrefixes_succ_of_error (f := stateFetcher s) h))

variable (hb : fetchByte s p.count = .ok b)
include hb

theorem decodeRest_of_body (hx : PrefixByte.ofByte b = none) :
    decodeRest s (n + 1) p = decodeBody (stateFetcher s) (stateEnv s) p p.count := by
  rw [decodeRest, scanPrefixes_succ_of_none (f := stateFetcher s) hb hx]
  rfl

variable {x : PrefixByte} (hx : PrefixByte.ofByte b = some x)
include hx

theorem decodeRest_of_duplicate (hq : p.add x = none) :
    decodeRest s (n + 1) p = .error (.refuse .duplicatePrefixGroup) :=
  bind_eq_error.2 (.inl (scanPrefixes_succ_of_duplicate (f := stateFetcher s) hb hx hq))

theorem decodeRest_of_add (hq : p.add x = some q) : decodeRest s (n + 1) p = decodeRest s n q := by
  rw [decodeRest, scanPrefixes_succ_of_some (f := stateFetcher s) hb hx hq, ← decodeRest]

end

theorem decodeInstruction_eq_decodeRest (s : State) :
    decodeInstruction (stateFetcher s) (stateEnv s) = decodeRest s 5 PrefixSet.empty := rfl

/-- The simulation, one step for one round of the scan: with the bytes of `p` remembered, at most as many
steps as rounds are left end as the rest of the instruction does. As no more than four bytes can be
remembered, one of the five rounds is always left. -/
theorem endsWithin_decodeRest {s : State} (hmark : isMarked s = false) (hover : isOver s = false)
    {n : Nat} {p : PrefixSet} (hn : p.count + n = 5) :
    EndsWithin n (s.setPending p) (outcomeOfDecoded s (decodeRest s n p)) := by
  induction n generalizing p with
  | zero =>
    have hcount := PrefixSet.count_le p
    omega
  | succ n ih =>
    cases hb : fetchByte s p.count with
    | error e =>
      rw [decodeRest_of_fetch_error hb]
      exact endsWithin_of_step (step_setPending_of_fetch_error hmark hover hb) n
    | ok b =>
      cases hx : PrefixByte.ofByte b with
      | none =>
        rw [decodeRest_of_body hb hx]
        exact endsWithin_of_step (step_setPending_of_body hmark hover hb hx) n
      | some x =>
        have hstep := step_setPending_of_prefixByte hmark hover hb hx
        cases hq : p.add x with
        | none =>
          rw [decodeRest_of_duplicate hb hx hq]
          exact endsWithin_of_step (hstep.trans (exec_row_of_add_eq_none hq)) n
        | some q =>
          have hcount := PrefixSet.count_add hq
          rw [decodeRest_of_add hb hx hq]
          exact endsWithin_of_next (hstep.trans (exec_row_of_add hq)) (ih (by omega))

theorem endsWithin_instructionStep {s : State} (hp : s.pending = PrefixSet.empty) :
    EndsWithin 5 s (instructionStep s) := by
  by_cases h : isMarked s = true ∨ isOver s = true
  · exact endsWithin_of_step (instructionStep_of_stopped h).symm 4
  · simp only [not_or, Bool.not_eq_true] at h
    obtain ⟨hmark, hover⟩ := h
    have hrest := endsWithin_decodeRest hmark hover (n := 5) (p := PrefixSet.empty) rfl
    have hself : s.setPending PrefixSet.empty = s := by rw [← hp, State.setPending_self]
    rwa [hself, ← decodeInstruction_eq_decodeRest,
      ← instructionStep_eq_outcomeOfDecoded hmark hover] at hrest

/-- Settles O58: a stopped state answers in one step, and from any other the steps follow the scan. -/
theorem stepsRefineInstructionStep : Obligations.StepsRefineInstructionStep :=
  fun _ => endsWithin_instructionStep

end Sys2Proof.Machine

/-! ## Widths and address sizes (rules R8, R175, R216, R218, R219) -/

namespace Sys2Proof.Machine

/-- Settles O20. -/
theorem truncateKeepsLowBits : Obligations.TruncateKeepsLowBits :=
  fun _ v => BitVec.toNat_setWidth 16 v

section
variable {os : Size} {w : Nat} (v : BitVec w)

theorem zeroExtend_of_le (h : w ≤ os.width) : zeroExtend os v = .ok (v.setWidth os.width) :=
  if_neg (Nat.not_lt.2 h)

theorem signExtend_of_le (h : w ≤ os.width) : signExtend os v = .ok (v.signExtend os.width) :=
  if_neg (Nat.not_lt.2 h)

theorem zeroExtend_of_lt (h : os.width < w) :
    zeroExtend os v = .error (.refuse .extendOfWiderValue) :=
  if_pos h

theorem signExtend_of_lt (h : os.width < w) :
    signExtend os v = .error (.refuse .extendOfWiderValue) :=
  if_pos h

end

/-- Settles O21: an extension that is not refused adds bits above the value's own. -/
theorem extendKeepsValue : Obligations.ExtendKeepsValue := by
  intro os w v
  constructor
  · intro hle
    exact ⟨⟨_, zeroExtend_of_le v hle, BitVec.toNat_setWidth_of_le hle⟩,
      ⟨_, signExtend_of_le v hle, BitVec.toInt_signExtend_of_le hle⟩⟩
  · intro hlt
    exact ⟨zeroExtend_of_lt v hlt, signExtend_of_lt v hlt⟩

theorem Size.pow_bytes (a : Size) : 256 ^ a.bytes = 2 ^ a.width := by
  cases a <;> rfl

/-- The bytes of a value of operand size give it back. -/
theorem ofNat_leValue_leBytes {os : Size} (v : BitVec os.width) :
    BitVec.ofNat os.width (leValue (leBytes os.bytes v.toNat)) = v := by
  rw [leValue_leBytes, Size.pow_bytes, Nat.mod_eq_of_lt v.isLt, BitVec.ofNat_toNat, BitVec.setWidth_eq]

theorem toNat_truncTo (a : Size) (x : DWord) : (truncTo a x).toNat = x.toNat % 2 ^ a.width := by
  cases a with
  | s16 => exact toNat_setWidth_setWidth (by decide) x
  | s32 => exact (Nat.mod_eq_of_lt x.isLt).symm

/-- A sum modulo the address size may be cut before it is taken. -/
theorem truncTo_truncTo_add (a : Size) (x y : DWord) :
    truncTo a (truncTo a x + y) = truncTo a (x + y) := by
  cases a with
  | s16 =>
    apply BitVec.eq_of_toNat_eq
    simp [truncTo]
  | s32 => rfl

@[simp] theorem truncTo_truncTo (a : Size) (x : DWord) : truncTo a (truncTo a x) = truncTo a x := by
  simpa using truncTo_truncTo_add a x 0

/-! ## The stack pointer (rules R221, R224, R226) -/

/-- Of two writes to a doubleword register the second stays. -/
theorem GprFile.set32_set32 (f : GprFile) (r : Gpr) (v w : DWord) :
    (f.set32 r v).set32 r w = f.set32 r w := by
  cases r <;> rfl

theorem GprFile.set32_get32 (f : GprFile) (r : Gpr) : f.set32 r (f.get32 r) = f := by
  cases r <;> rfl

/-- A word write leaves the high half of its register as it is. -/
theorem GprFile.extractHigh_set16 (f : GprFile) (r : Gpr) (v : Word) :
    ((f.set16 r v).get32 r).extractLsb' 16 16 = (f.get32 r).extractLsb' 16 16 :=
  BitVec.eq_of_getLsbD_eq fun i _ => by
    have hhigh : ¬ 16 + i < 16 := by omega
    simp only [BitVec.getLsbD_extractLsb', GprFile.getLsbD_set16, hhigh, and_false, if_false]

theorem GprFile.set16_set16 (f : GprFile) (r : Gpr) (v w : Word) :
    (f.set16 r v).set16 r w = f.set16 r w := by
  rw [GprFile.set16, GprFile.extractHigh_set16, GprFile.set16, GprFile.set32_set32, GprFile.set16]

theorem GprFile.set16_get16 (f : GprFile) (r : Gpr) : f.set16 r (f.get16 r) = f := by
  have hsame : (f.get32 r).extractLsb' 16 16 ++ f.get16 r = f.get32 r :=
    BitVec.eq_of_getLsbD_eq fun i _ => by
      rw [getLsbD_replaceLowWord]
      split
      · next hi => exact f.getLsbD_get16 r hi
      · rfl
  rw [GprFile.set16, hsame, GprFile.set32_get32]

section
variable (s : State) (v : DWord)

theorem setStackPointer_s16 (h : s.params.stackAddrSize = .s16) :
    setStackPointer s v = s.setRegs (s.regs.set16 .esp (v.setWidth 16)) := by
  rw [setStackPointer, h]

theorem setStackPointer_s32 (h : s.params.stackAddrSize = .s32) :
    setStackPointer s v = s.setRegs (s.regs.set32 .esp v) := by
  rw [setStackPointer, h]

theorem stackPointer_s16 (h : s.params.stackAddrSize = .s16) :
    stackPointer s = (s.regs.get16 .esp).setWidth 32 := by
  rw [stackPointer, h]
  rfl

theorem stackPointer_s32 (h : s.params.stackAddrSize = .s32) : stackPointer s = s.regs.get32 .esp := by
  rw [stackPointer, h]
  rfl

theorem setStackPointer_eq_setRegs : setStackPointer s v = s.setRegs (setStackPointer s v).regs := by
  obtain ⟨f, hf⟩ := setStackPointer_eq s v
  rw [hf, State.setRegs_regs]

@[simp] theorem setStackPointer_params : (setStackPointer s v).params = s.params := by
  rw [setStackPointer_eq_setRegs, State.setRegs_params]

@[simp] theorem setStackPointer_mem : (setStackPointer s v).mem = s.mem := by
  rw [setStackPointer_eq_setRegs, State.setRegs_mem]

@[simp] theorem setStackPointer_written : (setStackPointer s v).written = s.written := by
  rw [setStackPointer_eq_setRegs, State.setRegs_written]

/-- The stack pointer that is set is read back, cut to the stack address size. -/
@[simp] theorem stackPointer_setStackPointer :
    stackPointer (setStackPointer s v) = truncTo s.params.stackAddrSize v := by
  cases h : s.params.stackAddrSize with
  | s16 =>
    rw [stackPointer_s16 _ (by simpa using h), setStackPointer_s16 s v h, State.setRegs_regs,
      GprFile.get16_set16_same]
    rfl
  | s32 =>
    rw [stackPointer_s32 _ (by simpa using h), setStackPointer_s32 s v h, State.setRegs_regs,
      GprFile.get32_set32_same]
    rfl

/-- Setting the stack pointer leaves every register but ESP as it is. -/
theorem get32_setStackPointer_of_ne {q : Gpr} (hq : q ≠ .esp) :
    (setStackPointer s v).regs.get32 q = s.regs.get32 q := by
  unfold setStackPointer
  split
  · simp only [State.setRegs_regs, GprFile.set16, GprFile.get32_set32, hq, if_false]
  · simp only [State.setRegs_regs, GprFile.get32_set32, hq, if_false]

/-- With a 16-bit stack "bits 31..16 of ESP unchanged" (rule R226). -/
theorem espHigh_setStackPointer (h : s.params.stackAddrSize = .s16) :
    (setStackPointer s v).regs.esp.extractLsb' 16 16 = s.regs.esp.extractLsb' 16 16 := by
  rw [setStackPointer_s16 s v h]
  exact GprFile.extractHigh_set16 s.regs .esp (v.setWidth 16)

/-- Of two stack pointers set one after the other the second stays. -/
theorem setStackPointer_setStackPointer (w : DWord) :
    setStackPointer (setStackPointer s v) w = setStackPointer s w := by
  cases h : s.params.stackAddrSize with
  | s16 =>
    rw [setStackPointer_s16 _ w (by simpa using h), setStackPointer_s16 s v h,
      setStackPointer_s16 s w h, State.setRegs_regs, GprFile.set16_set16]
    rfl
  | s32 =>
    rw [setStackPointer_s32 _ w (by simpa using h), setStackPointer_s32 s v h,
      setStackPointer_s32 s w h, State.setRegs_regs, GprFile.set32_set32]
    rfl

theorem setStackPointer_stackPointer : setStackPointer s (stackPointer s) = s := by
  cases h : s.params.stackAddrSize with
  | s16 =>
    rw [setStackPointer_s16 s _ h, stackPointer_s16 s h, BitVec.setWidth_setWidth_of_le _ (by decide),
      BitVec.setWidth_eq, GprFile.set16_get16, State.setRegs_self]
  | s32 =>
    rw [setStackPointer_s32 s _ h, stackPointer_s32 s h, GprFile.set32_get32, State.setRegs_self]

end

theorem stackItemWraps_iff {s : State} {o : DWord} {n : Nat} :
    stackItemWraps s o n = true ↔ 2 ^ s.params.stackAddrSize.width < o.toNat + n :=
  decide_eq_true_iff

theorem stackItemWraps_eq_false_iff {s : State} {o : DWord} {n : Nat} :
    stackItemWraps s o n = false ↔ o.toNat + n ≤ 2 ^ s.params.stackAddrSize.width := by
  rw [← Bool.not_eq_true, stackItemWraps_iff, Nat.not_lt]

@[simp] theorem truncTo_stackPointer (s : State) :
    truncTo s.params.stackAddrSize (stackPointer s) = stackPointer s :=
  truncTo_truncTo _ _

@[simp] theorem truncTo_pushPointer (s : State) (os : Size) :
    truncTo s.params.stackAddrSize (pushPointer s os) = pushPointer s os :=
  truncTo_truncTo _ _

@[simp] theorem truncTo_popPointer (s : State) (os : Size) :
    truncTo s.params.stackAddrSize (popPointer s os) = popPointer s os :=
  truncTo_truncTo _ _

/-- A Push lowers the stack pointer modulo the stack address size (rule R221). -/
theorem toNat_pushPointer (s : State) (os : Size) :
    (pushPointer s os).toNat =
      ((stackPointer s).toNat + 2 ^ s.params.stackAddrSize.width - os.bytes) %
        2 ^ s.params.stackAddrSize.width := by
  have hbytes : os.bytes ≤ 4 := by cases os <;> decide
  have hlt := (stackPointer s).isLt
  rw [pushPointer, toNat_truncTo, BitVec.toNat_sub, BitVec.toNat_ofNat]
  cases s.params.stackAddrSize with
  | s16 => simp only [Size.width]; omega
  | s32 => simp only [Size.width]; omega

/-- A Pop raises the stack pointer modulo the stack address size (rule R224). -/
theorem toNat_popPointer (s : State) (os : Size) :
    (popPointer s os).toNat =
      ((stackPointer s).toNat + os.bytes) % 2 ^ s.params.stackAddrSize.width := by
  have hbytes : os.bytes ≤ 4 := by cases os <;> decide
  rw [popPointer, toNat_truncTo, BitVec.toNat_add, BitVec.toNat_ofNat]
  cases s.params.stackAddrSize with
  | s16 => simp only [Size.width]; omega
  | s32 => simp only [Size.width]; omega

/-- Raising the pointer a Push has lowered gives the pointer before it. -/
theorem popPointer_of_stackPointer_eq_pushPointer {s t : State} {os : Size}
    (hparams : t.params = s.params) (h : stackPointer t = pushPointer s os) :
    popPointer t os = stackPointer s := by
  rw [popPointer, h, hparams, pushPointer, truncTo_truncTo_add, BitVec.sub_add_cancel,
    truncTo_stackPointer]

/-! ## Push and Pop (rules R220 to R227) -/

theorem memWrite_regs {s t : State} {a : DWord} {n v : Nat} (h : memWrite s a n v = .ok t) :
    t.regs = s.regs := by
  rw [memWrite_frame h]

theorem memWrite_params {s t : State} {a : DWord} {n v : Nat} (h : memWrite s a n v = .ok t) :
    t.params = s.params := by
  rw [memWrite_frame h]

/-- Where the item fits and `Lin` answers, a Push is its store and then the new stack pointer. -/
theorem push_of_memWrite {os : Size} {v : BitVec os.width} {s u : State} {a : DWord}
    (hfit : (pushPointer s os).toNat + os.bytes ≤ 2 ^ s.params.stackAddrSize.width)
    (hlin : lin s .ss (pushPointer s os) .write os.bytes = .ok a)
    (hstore : memWrite s a os.bytes v.toNat = .ok u) :
    push os v s = .ok (setStackPointer u (pushPointer s os)) :=
  push_eq_ok.2 ⟨stackItemWraps_eq_false_iff.2 hfit, a, u, hlin, hstore, rfl⟩

/-- Where the item fits and `Lin` answers an address with room for it, a Pop reads it there. -/
theorem pop_of_lin {os : Size} {s : State} {a : DWord}
    (hfit : (stackPointer s).toNat + os.bytes ≤ 2 ^ s.params.stackAddrSize.width)
    (hlin : lin s .ss (stackPointer s) .read os.bytes = .ok a) (hroom : a.toNat + os.bytes ≤ 2 ^ 32) :
    pop os s = .ok (BitVec.ofNat os.width (leValue (Memory.readAll s.mem a.toNat os.bytes)),
      setStackPointer s (popPointer s os)) :=
  pop_eq_ok.2 ⟨stackItemWraps_eq_false_iff.2 hfit, a, _, hlin, memRead_eq_ok.2 ⟨hroom, rfl⟩, rfl, rfl⟩

/-- An item of operand size is no wider than the operand size. -/
theorem leValue_readAll_lt (m : List Host.Cell) (x : Nat) (os : Size) :
    leValue (Memory.readAll m x os.bytes) < 2 ^ os.width := by
  have h := leValue_lt (Memory.readAll m x os.bytes)
  rwa [Memory.readAll_length, Size.pow_bytes] at h

/-- Settles O22: the store's own frame, then that of the stack pointer. -/
theorem pushStoresItem : Obligations.PushStoresItem := by
  intro os v s p a hwf hp hfit hlin hroom
  obtain rfl : p = pushPointer s os := BitVec.eq_of_toNat_eq (hp.trans (toNat_pushPointer s os).symm)
  obtain ⟨u, hstore⟩ := exists_memWrite_eq_ok s hroom v.toNat
  have hregs := memWrite_regs hstore
  have hparams := memWrite_params hstore
  refine ⟨_, push_of_memWrite hfit hlin hstore, ?pointer, ?item, ?outside, ?written, ?others, ?high,
    ?frame⟩
  case pointer => rw [stackPointer_setStackPointer, hparams, truncTo_pushPointer]
  case item => rw [setStackPointer_mem, readAll_of_memWrite hwf hstore]
  case outside =>
    intro x hx
    rw [setStackPointer_mem, read_of_memWrite_outside hstore hx]
  case written =>
    intro x
    rw [setStackPointer_written, mem_written_of_memWrite hstore]
  case others =>
    intro q hq
    rw [get32_setStackPointer_of_ne u _ hq, hregs]
  case high =>
    intro hsize
    rw [espHigh_setStackPointer u _ (hparams ▸ hsize), hregs]
  case frame =>
    rw [setStackPointer_eq_setRegs, memWrite_frame hstore]
    rfl

/-- Settles O23: the bytes at the stack pointer, then the frame of the new stack pointer. -/
theorem popReturnsItem : Obligations.PopReturnsItem := by
  intro os s a hfit hlin hroom
  refine ⟨_, _, pop_of_lin hfit hlin hroom, ?value, ?pointer,
    fun q => get32_setStackPointer_of_ne s _, espHigh_setStackPointer s _,
    setStackPointer_eq_setRegs s _⟩
  case value => rw [BitVec.toNat_ofNat, Nat.mod_eq_of_lt (leValue_readAll_lt s.mem a.toNat os)]
  case pointer => rw [stackPointer_setStackPointer, truncTo_popPointer, toNat_popPointer]

/-- Settles O24: the Pop reads where the Push stored, and sets the stack pointer the Push found. -/
theorem popUndoesPush : Obligations.PopUndoesPush := by
  intro os v s t hwf hpush hsame
  obtain ⟨hwraps, a, u, hlin, hstore, rfl⟩ := push_eq_ok.1 hpush
  obtain ⟨hroom, -⟩ := memWrite_eq_ok.1 hstore
  have hregs := memWrite_regs hstore
  have hparams : (setStackPointer u (pushPointer s os)).params = s.params :=
    (setStackPointer_params u _).trans (memWrite_params hstore)
  have hpointer : stackPointer (setStackPointer u (pushPointer s os)) = pushPointer s os := by
    rw [stackPointer_setStackPointer, memWrite_params hstore, truncTo_pushPointer]
  have hpop := pop_of_lin (s := setStackPointer u (pushPointer s os)) (os := os) (a := a)
    (by rwa [hpointer, hparams, ← stackItemWraps_eq_false_iff])
    (by rw [hpointer]; exact (lin_ok_congr hparams).2 (hsame.trans hlin)) hroom
  rw [setStackPointer_mem, readAll_of_memWrite hwf hstore, ofNat_leValue_leBytes,
    popPointer_of_stackPointer_eq_pushPointer hparams hpointer, setStackPointer_setStackPointer] at hpop
  have hback : stackPointer u = stackPointer s := by
    rw [stackPointer, hregs, memWrite_params hstore, stackPointer]
  refine ⟨_, hpop, ?_, ?_⟩
  · rw [← hback, setStackPointer_stackPointer, hregs]
  · rw [setStackPointer_mem, setStackPointer_mem]

theorem push_of_stackItemWraps {os : Size} (v : BitVec os.width) {s : State}
    (h : stackItemWraps s (pushPointer s os) os.bytes = true) :
    push os v s = .error (.refuse .stackItemWrapsSegment) :=
  if_pos h

theorem pop_of_stackItemWraps {os : Size} {s : State}
    (h : stackItemWraps s (stackPointer s) os.bytes = true) :
    pop os s = .error (.refuse .stackItemWrapsSegment) :=
  if_pos h

/-- Settles O25: the check comes before `Lin` is asked. -/
theorem stackItemPastTopRefused : Obligations.StackItemPastTopRefused :=
  fun _ v _ => ⟨fun h => push_of_stackItemWraps v (stackItemWraps_iff.2 h),
    fun h => pop_of_stackItemWraps (stackItemWraps_iff.2 h)⟩

/-! ## Bits of registers and memory (rules R230, R231, R234) -/

/-- One byte of memory is read at every address. -/
theorem memRead_one (s : State) (a : DWord) : memRead s a 1 = .ok (Memory.read s.mem a.toNat).toNat :=
  memRead_eq_ok.2 ⟨a.isLt, rfl⟩

/-- The bit of a memory base is a bit of the byte at the address `Lin` gives. -/
theorem readBit_inMemory_of_lin {s : State} {kind : AccessKind} {seg : SegReg} {ea x : DWord}
    (h : lin s seg ea kind 1 = .ok x) (k : Nat) :
    readBit s kind (.inMemory seg ea k) = .ok ((Memory.read s.mem x.toNat).getLsbD k) :=
  bind_eq_ok.2 ⟨x, h, bind_eq_ok.2 ⟨_, memRead_one s x, rfl⟩⟩

/-- Settles O26: the quotient and the remainder of flooring division by 8. -/
theorem bitOfMemoryBase : Obligations.BitOfMemoryBase := by
  intro s a seg base offset
  have hdiv := Int.mul_ediv_add_emod offset.toInt 8
  exact ⟨offset.toInt / 8, (offset.toInt % 8).toNat, by omega, by omega, rfl,
    fun kind x h => readBit_inMemory_of_lin h _⟩

theorem bitOfRegister_of_outside {r : RegOperand} {offset : DWord}
    (h : offset.toInt < 0 ∨ (r.bits : Int) ≤ offset.toInt) :
    bitOfRegister r offset = .error (.refuse .bitOffsetOutsideRegister) :=
  if_neg (by omega)

/-- Settles O27. -/
theorem bitOfRegisterBase : Obligations.BitOfRegisterBase := by
  refine fun s r offset kind => ⟨fun k hoffset hk => ⟨?_, rfl⟩, bitOfRegister_of_outside⟩
  refine bitOfRegister_eq_ok.2 ⟨by omega, by omega, ?_⟩
  rw [hoffset, Int.toNat_natCast]

/-! ## I-O-Permission (rule R240) -/

/-- The mask has one low bit for each byte of the access. -/
theorem ioBitMask_eq (w : DataWidth) : ioBitMask w = 2 ^ w.bytes - 1 := by
  cases w <;> rfl

/-- No bit of a mask of `n` bits from bit `k` on is set exactly when each of those bits is 0. -/
theorem and_shiftedMask_eq_zero_iff (x n k : Nat) :
    x &&& ((2 ^ n - 1) <<< k) = 0 ↔ ∀ j, j < n → x.testBit (k + j) = false := by
  have hbit (i : Nat) : (x &&& ((2 ^ n - 1) <<< k)).testBit i =
      (x.testBit i && (decide (k ≤ i) && decide (i - k < n))) := by
    rw [Nat.testBit_and, Nat.testBit_shiftLeft, Nat.testBit_two_pow_sub_one]
  constructor
  · intro hzero j hj
    have hj' := hbit (k + j)
    simpa [hzero, hj] using hj'
  · intro h
    refine Nat.eq_of_testBit_eq fun i => ?_
    rw [hbit, Nat.zero_testBit]
    by_cases hi : k ≤ i ∧ i - k < n
    · obtain ⟨hlow, hhigh⟩ := hi
      have hclear := h (i - k) hhigh
      rw [Nat.add_sub_cancel' hlow] at hclear
      rw [hclear, Bool.false_and]
    · rw [← Bool.decide_and, decide_eq_false hi, Bool.and_false]

section
variable {s : State} {port : Word} {w : DataWidth}

theorem ioPermission_t286 (h : s.params.tssType = .t286) : ioPermission s port w = .ok false := by
  rw [ioPermission, h]

theorem ioPermission_of_no_limit (htype : s.params.tssType = .t386) (hlimit : s.params.tssLimit = none) :
    ioPermission s port w = .error (.refuse .ioBitmapLimitUnknown) := by
  rw [ioPermission, htype, hlimit]
  rfl

variable {limit ptr : Nat} (htype : s.params.tssType = .t386) (hlimit : s.params.tssLimit = some limit)
  (hptr : memRead s (s.params.tssBase + 102) 2 = .ok ptr)
include htype hlimit hptr

/-- With a limit the two bitmap bytes are read only where they are within it. -/
theorem ioPermission_of_pointer :
    ioPermission s port w =
      if limit < ptr + port.toNat / 8 + 1 then .ok false
      else (memRead s (s.params.tssBase + BitVec.ofNat 32 (ptr + port.toNat / 8)) 2).map fun word =>
        (word &&& (ioBitMask w <<< (port.toNat % 8))) == 0 := by
  have hptr' : memRead s (s.params.tssBase + BitVec.ofNat 32 ioMapBaseOffset) 2 = .ok ptr := hptr
  rw [ioPermission, htype, hlimit]
  simp only [hptr']
  rfl

theorem ioPermission_past_limit (h : limit < ptr + port.toNat / 8 + 1) :
    ioPermission s port w = .ok false := by
  rw [ioPermission_of_pointer htype hlimit hptr, if_pos h]

/-- Within the limit the access is permitted exactly where each of its bits is 0. -/
theorem ioPermission_within_limit {word : Nat} (h : ptr + port.toNat / 8 + 1 ≤ limit)
    (hword : memRead s (s.params.tssBase + BitVec.ofNat 32 (ptr + port.toNat / 8)) 2 = .ok word) :
    ∃ b, ioPermission s port w = .ok b ∧
      (b = true ↔ ∀ j, j < w.bytes → word.testBit (port.toNat % 8 + j) = false) := by
  rw [ioPermission_of_pointer htype hlimit hptr, if_neg (Nat.not_lt.2 h), hword]
  refine ⟨_, rfl, ?_⟩
  rw [beq_iff_eq, ioBitMask_eq, and_shiftedMask_eq_zero_iff]

end

/-- Settles O28, by the type of the task state segment and its limit. -/
theorem ioPermissionCases : Obligations.IOPermissionCases := by
  refine fun s port w => ⟨ioPermission_t286, ioPermission_of_no_limit,
    fun limit ptr htype hlimit hptr => ⟨?_, fun word => ?_⟩⟩
  · exact ioPermission_past_limit htype hlimit hptr
  · exact ioPermission_within_limit htype hlimit hptr

end Sys2Proof.Machine


/-! ## The state after reset, and the end of every run (rules R25, R282, R289, decision D21) -/

namespace Sys2Proof.Machine

/-- Settles O57: nothing is stored, remembered or marked at reset, and `EndPc` is elsewhere. -/
theorem resetIsALaunch : Obligations.ResetIsALaunch := by
  have hover : isOver State.reset = false := isOver_eq_false.2 (by decide)
  refine ⟨stateInv_iff.2 ⟨rfl, rfl, .inl rfl⟩, rfl, ?_⟩
  rw [isFinal, hover, Bool.false_and]

/-- A state whose run has ended: it is final or it carries a mark. -/
def HasEnded (s : State) : Prop := isFinal s = true ∨ isMarked s = true

theorem not_hasEnded_iff {s : State} : ¬ HasEnded s ↔ isMarked s = false ∧ isOver s = false := by
  cases hmark : isMarked s <;> simp [HasEnded, isFinal, hmark]

/-- The measure of a run: five steps for each offset from `pc` up, less one for each byte remembered.
Four prefix bytes and the instruction after them are at most five steps at one `pc`. -/
def stepsLeft (s : State) : Nat := 5 * (2 ^ 32 - s.pc.toNat) - s.pending.count

theorem stepsLeft_pos (s : State) : 0 < stepsLeft s := by
  have hpc := s.pc.isLt
  have hcount := PrefixSet.count_le s.pending
  simp only [stepsLeft]
  omega

theorem stepsLeft_le (s : State) : stepsLeft s ≤ 5 * 2 ^ 32 := by
  simp only [stepsLeft]
  omega

theorem stepsLeft_setPending {s : State} {p : PrefixSet} (h : p.count = s.pending.count + 1) :
    stepsLeft (s.setPending p) < stepsLeft s := by
  have hpos := stepsLeft_pos s
  simp only [stepsLeft, State.setPending_pc, State.setPending_pending] at hpos ⊢
  omega

/-- A completed CMC moves `pc` up one offset, without wrapping (rule R25). -/
theorem stepsLeft_setPc_setCf {s : State} (hp : s.pending = PrefixSet.empty)
    (hpc : s.pc.toNat + 1 < 2 ^ 32) (b : Bool) :
    stepsLeft ((s.setPc (s.pc + 1)).setCf b) < stepsLeft s := by
  have hnext : (s.pc + 1).toNat = s.pc.toNat + 1 := BitVec.toNat_add_of_lt hpc
  have hempty : s.pending.count = 0 := by rw [hp]; rfl
  simp only [stepsLeft, State.setCf_pc, State.setPc_pc, State.setCf_pending, State.setPc_pending,
    hnext, hempty]
  omega

/-- A step that answers a next state makes progress where the run is not over. -/
theorem stepsLeft_of_step_next {s t : State} (hover : isOver s = false) (h : step s = .next t) :
    stepsLeft t < stepsLeft s := by
  obtain ⟨hend, -⟩ | ⟨-, -, p, hcount, rfl⟩ | ⟨hp, hpc, rfl⟩ := step_next_cases h
  · exact absurd hend (by simp [hover])
  · exact stepsLeft_setPending hcount
  · exact stepsLeft_setPc_setCf hp hpc _

/-- An advance of a run that has not ended makes progress or sets a mark. -/
theorem stepsLeft_advance {s : State} (h : ¬ HasEnded s) :
    stepsLeft (advance s) < stepsLeft s ∨ isMarked (advance s) = true := by
  obtain ⟨hmark, hover⟩ := not_hasEnded_iff.1 h
  cases hstep : step s with
  | next t =>
    rw [advance_of_next hmark hstep]
    exact .inl (stepsLeft_of_step_next hover hstep)
  | fault f =>
    rw [advance_of_fault hmark hstep]
    exact .inr rfl
  | refused r =>
    rw [advance_of_refused hmark hstep]
    exact .inr (by simp [isMarked, markRefused])

/-- The measure bounds the length of a run. -/
theorem exists_advanceN_hasEnded {n : Nat} {s : State} (h : stepsLeft s ≤ n) :
    ∃ m ≤ n, HasEnded (advanceN m s) := by
  induction n generalizing s with
  | zero => exact absurd (stepsLeft_pos s) (Nat.not_lt.2 h)
  | succ n ih =>
    by_cases hend : HasEnded s
    · exact ⟨0, Nat.zero_le _, hend⟩
    · obtain hless | hmarked := stepsLeft_advance hend
      · obtain ⟨m, hm, hended⟩ := ih (Nat.le_of_lt_succ (hless.trans_le h))
        exact ⟨m + 1, Nat.succ_le_succ hm, hended⟩
      · exact ⟨1, Nat.succ_le_succ (Nat.zero_le n), .inr hmarked⟩

/-- Settles O59: no state has more than `5 * 2 ^ 32` steps left. -/
theorem everyRunEnds : Obligations.EveryRunEnds :=
  fun s => exists_advanceN_hasEnded (stepsLeft_le s)

end Sys2Proof.Machine
